-- ==== Sys2Proof/Word.lean ====
section
/-! DEFINITION. The words of the block: every width the spec gives a datum (10_state.md, 30_encoding.md). -/

namespace Sys2Proof

/-- A raw byte, a symbol, a byte lane (R10, R35). -/
abbrev Byte := BitVec 8

/-- A byte address (R9). -/
abbrev Addr := BitVec 64

/-- A length, capacity or cursor field (R8, R29, R31). -/
abbrev Len := BitVec 32

/-- The 24-bit group word of the scalar core: `SE.W`, `SD.W` (R141, R145). -/
abbrev GroupWord := BitVec 24

/-- A word lane: four byte lanes (R35). -/
abbrev WordLane := BitVec 32

/-- A command descriptor, format `CMD` (R90). -/
abbrev Descriptor := BitVec 256

/-- A response record, format `RSP` (R94). -/
abbrev ResponseWord := BitVec 128

/-- A micro-operation select code, format `UOP` (R101). -/
abbrev UopCode := BitVec 5

end Sys2Proof
end

