-- ==== Sys2Proof/Config.lean ====
section
/-! DEFINITION. What is fixed for one block instance: the named parameters of the spec (00_scope.md R8, R11), the type
of the configuration registers (10_state.md R20 to R27), and the free values the spec leaves open. -/

namespace Sys2Proof

/-- `LEN_MAX`, the largest value of the length type (R8; log 21). -/
def Config.lenMax : Nat := 2 ^ 31 - 1

/-- `ENC_MAX`, the largest raw length whose encoded length fits: `floor(LEN_MAX / 4) * 3` (R8). -/
def Config.encMax : Nat := Config.lenMax / 4 * 3

/-- The size of the address space: 64-bit byte addresses (R9, R60). -/
def Config.addressSpace : Nat := 2 ^ 64

/-- A FREE VALUE of `w` bits. The spec calls the value unspecified, so nothing is known of it: it has no body.
`tick` is the state's counter at the moment it is drawn, `field` tells apart values drawn at one tick
(R36, R37, R144, R282; 93_implementation_defined.md U9, U10; log 14, 15, 16, 17, 24, 28). -/
opaque Config.unspecified (w tick field : Nat) : BitVec w

/-- One entry of a range table: `VALID, LO, HI, OFF` (R27). -/
structure RangeEntry where
  valid : Bool
  lo : Byte
  hi : Byte
  off : Byte
  deriving DecidableEq, Repr

/-- The configuration registers (R20, R21 to R27), as a raw record. -/
structure Configuration where
  cap : BitVec 2
  alphabet : Vector Byte 64
  decmap : Vector Byte 256
  pad : Byte
  encShuf : Vector Byte 16
  decShuf : Vector Byte 16
  rcEnc : Vector RangeEntry 8
  rcDec : Vector RangeEntry 8
  deriving DecidableEq, Repr

end Sys2Proof
end

