-- ==== Sys2Proof/Machine/Bytes.lean ====
section
/-! DEFINITION. The byte arithmetic primitives of 00_scope.md R16 and the two table lookups of 10_state.md R21, R23,
the hit test of a range entry (R164) and the sizes that follow from `CAP` (R6). -/

namespace Sys2Proof.Machine

/-- `add8(a, b) = (a + b) mod 256` (R16). -/
def add8 (a b : Byte) : Byte := BitVec.ofNat 8 (a.toNat + b.toNat)

/-- `subs8(a, b) = max(a - b, 0)`: unsigned saturating subtraction (R16). -/
def subs8 (a b : Byte) : Byte := BitVec.ofNat 8 (a.toNat - b.toNat)

/-- `ge8(a, b) = (subs8(b, a) == 0)` (R16). -/
def ge8 (a b : Byte) : Bool := subs8 b a == 0#8

/-- `le8(a, b) = (subs8(a, b) == 0)` (R16). -/
def le8 (a b : Byte) : Bool := subs8 a b == 0#8

/-- `inrange8(c, lo, hi) = ge8(c, lo) and le8(c, hi)` (R16). -/
def inrange8 (c lo hi : Byte) : Bool := ge8 c lo && le8 c hi

/-- The sentinel byte `SENT` of the decode map, the number -1 (R23). -/
def sentinel : Byte := 0xFF#8

/-- `ALPHABET[i]`: the symbol of the 6-bit value `i` (R21). -/
def symbolOf (c : Configuration) (i : BitVec 6) : Byte := c.alphabet[i.toNat]'i.isLt

/-- `DECMAP[x]`: the 6-bit value of the symbol `x`, or the sentinel (R23). -/
def valueOf (c : Configuration) (x : Byte) : Byte := c.decmap[x.toNat]'x.isLt

/-- An entry of a range table that holds and contains `x` (R164). -/
def entryHits (e : RangeEntry) (x : Byte) : Bool := e.valid && inrange8 x e.lo e.hi

/-- `L`, the byte lanes of a vector register at a capability level (R6); none at level 0, and none at the level 3 that
`CAP` never holds (R26; log 25). -/
def lanesOf (cap : BitVec 2) : Nat :=
  match cap.toNat with
  | 1 => 16
  | 2 => 32
  | _ => 0

/-- `N = 3L/4`, the raw bytes one vector iteration transforms (R6). -/
def windowOf (cap : BitVec 2) : Nat := 3 * lanesOf cap / 4

end Sys2Proof.Machine
end

