-- ==== Sys2Proof/Syntax.lean ====
section
/-! DEFINITION. The instructions: one constructor per row of spec/opcode_table.json. The four commands carry the
descriptor fields they use (30_encoding.md R90, R91); the eighteen micro-operations carry nothing, since their
5-bit code is the whole word (R101). -/

namespace Sys2Proof

/-- The commands (R92) and the micro-operations (R101). -/
inductive Instr where
  /-- `ENC`, command code 1 (R225). -/
  | enc (final elem : Bool) (srcLen : Len) (srcBase : Addr) (dstCap : Len) (dstBase : Addr)
  /-- `DEC`, command code 2 (R226). -/
  | dec (final elem : Bool) (srcLen : Len) (srcBase : Addr) (dstCap : Len) (dstBase : Addr)
  /-- `ENCLEN`, command code 3; `n` is the field `SRC_LEN` (R120). -/
  | enclen (n : Len)
  /-- `DECLEN`, command code 4 (R123). -/
  | declen (elem : Bool) (srcLen : Len) (srcBase : Addr)
  /-- `SE.GROUP` (R141). -/
  | seGroup
  /-- `SE.TAIL2` (R142). -/
  | seTail2
  /-- `SE.TAIL1` (R143). -/
  | seTail1
  /-- `SD.GROUP` (R145). -/
  | sdGroup
  /-- `SD.FINAL` (R146). -/
  | sdFinal
  /-- `SPU.SHUF` (R161). -/
  | spuShuf
  /-- `RCU.ENC` (R165). -/
  | rcuEnc
  /-- `RCU.DEC` (R166). -/
  | rcuDec
  /-- `VE.LOAD` (R191). -/
  | veLoad
  /-- `VE.SPLIT6` (R193). -/
  | veSplit6
  /-- `VE.STORE` (R194). -/
  | veStore
  /-- `VE.ITER` (R195). -/
  | veIter
  /-- `VD.LOAD` (R197). -/
  | vdLoad
  /-- `VD.MERGE6` (R199). -/
  | vdMerge6
  /-- `VD.STORE` (R201). -/
  | vdStore
  /-- `VD.ITER` (R202). -/
  | vdIter
  /-- `LC.ENCLEN` (R121). -/
  | lcEnclen
  /-- `LC.DECLEN` (R124). -/
  | lcDeclen
  deriving DecidableEq, Repr

/-- Whether an instruction is a micro-operation of a unit; the others are the host's commands (R101). -/
def Instr.isMicroOp : Instr → Bool
  | .enc .. | .dec .. | .enclen _ | .declen .. => false
  | .seGroup | .seTail2 | .seTail1 | .sdGroup | .sdFinal | .spuShuf | .rcuEnc | .rcuDec | .veLoad | .veSplit6
  | .veStore | .veIter | .vdLoad | .vdMerge6 | .vdStore | .vdIter | .lcEnclen | .lcDeclen => true

/-- The pseudo-command `encode.all src, slen, dst, dcap`: another spelling of `enc ..., final=1` (R103). -/
def Instr.encodeAll (src : Addr) (slen : Len) (dst : Addr) (dcap : Len) : Instr := .enc true false slen src dcap dst

/-- The pseudo-command `decode.all src, slen, dst, dcap`: another spelling of `dec ..., final=1` (R103). -/
def Instr.decodeAll (src : Addr) (slen : Len) (dst : Addr) (dcap : Len) : Instr := .dec true false slen src dcap dst

/-- An instruction as the block receives it: a descriptor from the host (format `CMD`, R90), or a select code on the
units' select lines (format `UOP`, R101). Both are records, not memory images: no byte order applies to them. -/
inductive MachineWord where
  | cmd (d : Descriptor)
  | uop (c : UopCode)
  deriving DecidableEq, Repr

/-- Why a word is no instruction (R98; R101 for the last). -/
inductive Reject where
  /-- A bit of `RSV0` or `RSV1` is set: `IllegalCommand`. -/
  | reservedBit
  /-- `OP` is 0 or 5 to 15: `IllegalCommand`. -/
  | unassignedOp
  /-- A field the command does not use is not 0 (`FINAL`, `ELEM` and the regions): `IllegalCommand`. -/
  | unusedFieldNotZero
  /-- A micro-operation code without a row: the sequencer never issues it. -/
  | unassignedUop
  deriving DecidableEq, Repr

end Sys2Proof
end

