-- ==== Sys2Proof/WellFormed.lean ====
section
/-! DEFINITION. The well-formedness checks: of a configuration (10_state.md R28, from R21, R23, R24, R25, R26, R27) and
of an instruction (30_encoding.md R97, checks 2 and 3: what Accept would answer with a fault). -/

namespace Sys2Proof
open Sys2Proof.Machine

/-! ## The configuration -/

/-- R21: the 64 entries of `ALPHABET` are pairwise distinct. -/
abbrev Configuration.AlphabetDistinct (c : Configuration) : Prop :=
  ∀ i j : BitVec 6, symbolOf c i = symbolOf c j → i = j

/-- R21, R24: `PAD` is no entry of `ALPHABET`. -/
abbrev Configuration.PadOutside (c : Configuration) : Prop := ∀ i : BitVec 6, symbolOf c i ≠ c.pad

/-- R23: `DECMAP[ALPHABET[i]] = i`. -/
abbrev Configuration.DecmapInverts (c : Configuration) : Prop :=
  ∀ i : BitVec 6, valueOf c (symbolOf c i) = i.setWidth 8

/-- R23: every byte that is no entry of `ALPHABET` has the sentinel. -/
abbrev Configuration.DecmapSentinel (c : Configuration) : Prop :=
  ∀ x : Byte, (∀ i : BitVec 6, symbolOf c i ≠ x) → valueOf c x = sentinel

/-- R25: the value of `ENC_SHUF`. -/
abbrev Configuration.EncShufFixed (c : Configuration) : Prop :=
  c.encShuf = #v[0x02#8, 0x01#8, 0x00#8, 0x80#8, 0x05#8, 0x04#8, 0x03#8, 0x80#8,
                 0x08#8, 0x07#8, 0x06#8, 0x80#8, 0x0B#8, 0x0A#8, 0x09#8, 0x80#8]

/-- R25: the value of `DEC_SHUF`. -/
abbrev Configuration.DecShufFixed (c : Configuration) : Prop :=
  c.decShuf = #v[0x02#8, 0x01#8, 0x00#8, 0x06#8, 0x05#8, 0x04#8, 0x0A#8, 0x09#8,
                 0x08#8, 0x0E#8, 0x0D#8, 0x0C#8, 0x80#8, 0x80#8, 0x80#8, 0x80#8]

/-- R26: the value 3 is never held by `CAP`. -/
abbrev Configuration.CapLegal (c : Configuration) : Prop := c.cap ≠ 3#2

/-- R27: the valid entries of a range table are pairwise disjoint. -/
abbrev RangesDisjoint (t : Vector RangeEntry 8) : Prop :=
  ∀ j k : Fin 8, t[j].valid = true → t[k].valid = true → j ≠ k → t[j].hi < t[k].lo ∨ t[k].hi < t[j].lo

/-- R27 (a): the valid entries of `RC_ENC` have `LO <= HI <= 63`. -/
abbrev Configuration.RcEncBounds (c : Configuration) : Prop :=
  ∀ j : Fin 8, c.rcEnc[j].valid = true → c.rcEnc[j].lo ≤ c.rcEnc[j].hi ∧ c.rcEnc[j].hi ≤ 63#8

/-- R27 (a): the valid entries of `RC_ENC` together cover `0 .. 63`. -/
abbrev Configuration.RcEncCovers (c : Configuration) : Prop :=
  ∀ v : BitVec 6, ∃ j : Fin 8, entryHits c.rcEnc[j] (v.setWidth 8) = true

/-- R27 (a): for each valid entry and each `v` in it, `add8(v, OFF) = ALPHABET[v]`. -/
abbrev Configuration.RcEncAgrees (c : Configuration) : Prop :=
  ∀ (v : BitVec 6) (j : Fin 8), entryHits c.rcEnc[j] (v.setWidth 8) = true →
    add8 (v.setWidth 8) c.rcEnc[j].off = symbolOf c v

/-- R27 (b): the valid entries of `RC_DEC` have `LO <= HI`. -/
abbrev Configuration.RcDecBounds (c : Configuration) : Prop :=
  ∀ j : Fin 8, c.rcDec[j].valid = true → c.rcDec[j].lo ≤ c.rcDec[j].hi

/-- R27 (b): for each valid entry and each `x` in it, `add8(x, OFF) = DECMAP[x]`, a value in `0 .. 63`. -/
abbrev Configuration.RcDecAgrees (c : Configuration) : Prop :=
  ∀ (x : Byte) (j : Fin 8), entryHits c.rcDec[j] x = true →
    add8 x c.rcDec[j].off = valueOf c x ∧ valueOf c x ≤ 63#8

/-- R27 (b): every byte in no valid entry has `DECMAP[x] = 0xFF`. -/
abbrev Configuration.RcDecOutside (c : Configuration) : Prop :=
  ∀ x : Byte, (∀ j : Fin 8, entryHits c.rcDec[j] x = false) → valueOf c x = sentinel

/-- R28: a configuration is well formed when rules R21, R23, R24, R25, R26 and R27 hold of it. -/
structure Configuration.WellFormed (c : Configuration) : Prop where
  alphabetDistinct : c.AlphabetDistinct
  padOutside : c.PadOutside
  decmapInverts : c.DecmapInverts
  decmapSentinel : c.DecmapSentinel
  encShufFixed : c.EncShufFixed
  decShufFixed : c.DecShufFixed
  capLegal : c.CapLegal
  rcEncBounds : c.RcEncBounds
  rcEncDisjoint : RangesDisjoint c.rcEnc
  rcEncCovers : c.RcEncCovers
  rcEncAgrees : c.RcEncAgrees
  rcDecBounds : c.RcDecBounds
  rcDecDisjoint : RangesDisjoint c.rcDec
  rcDecAgrees : c.RcDecAgrees
  rcDecOutside : c.RcDecOutside

/-- "A model takes the configuration as a raw record plus a proof of this check and gives no meaning to a command under
any other" (R28; 93_implementation_defined.md U6; log 9). -/
structure WfConfiguration where
  regs : Configuration
  ok : regs.WellFormed
  deriving DecidableEq, Repr

/-! ## Instructions -/

/-- The region `[base, base + len)` does not wrap and its length fits the length type (R9, R97 check 3). -/
abbrev RegionInRange (base : Addr) (len : Len) : Prop :=
  len.toNat ≤ Config.lenMax ∧ base.toNat + len.toNat ≤ Config.addressSpace

/-- A legal instruction: one that passes the checks 2 and 3 of R97, so that Accept raises no fault for it. (Check 1 is
the decoder's: an instruction has no reserved bit and no unused field.) A micro-operation has no operand to check.
R93 calls a command with `ELEM = 1` "a well-formed command that faults": the encoder and the decoder carry it too. -/
abbrev Instr.WellFormed : Instr → Prop
  | .enc _ elem srcLen srcBase dstCap dstBase => elem = false ∧ RegionInRange srcBase srcLen ∧ RegionInRange dstBase dstCap
  | .dec _ elem srcLen srcBase dstCap dstBase => elem = false ∧ RegionInRange srcBase srcLen ∧ RegionInRange dstBase dstCap
  | .enclen n => n.toNat ≤ Config.encMax
  | .declen elem srcLen srcBase => elem = false ∧ RegionInRange srcBase srcLen
  | .seGroup | .seTail2 | .seTail1 | .sdGroup | .sdFinal | .spuShuf | .rcuEnc | .rcuDec | .veLoad | .veSplit6
  | .veStore | .veIter | .vdLoad | .vdMerge6 | .vdStore | .vdIter | .lcEnclen | .lcDeclen => True

end Sys2Proof
end

