-- ==== Sys2Proof/Decode.lean ====
section
/-! DEFINITION. Decoding (30_encoding.md R90 to R93, R97 check 1, R98, R101): total on any word, rejecting by name;
then the encoder, from the same tables. -/

namespace Sys2Proof

/-! ## The fields of a descriptor (R90) -/

/-- `OP`, bits `[3:0]` (R90). -/
def descOp (d : Descriptor) : BitVec 4 := d.extractLsb' 0 4

/-- `FINAL`, bit `[4]` (R90). -/
def descFinal (d : Descriptor) : Bool := d.getLsbD 4

/-- `ELEM`, bit `[5]` (R90). -/
def descElem (d : Descriptor) : Bool := d.getLsbD 5

/-- `RSV0`, bits `[31:6]` (R90). -/
def descRsv0 (d : Descriptor) : BitVec 26 := d.extractLsb' 6 26

/-- `SRC_LEN`, bits `[63:32]` (R90). -/
def descSrcLen (d : Descriptor) : Len := d.extractLsb' 32 32

/-- `SRC_BASE`, bits `[127:64]` (R90). -/
def descSrcBase (d : Descriptor) : Addr := d.extractLsb' 64 64

/-- `RSV1`, bits `[159:128]` (R90). -/
def descRsv1 (d : Descriptor) : BitVec 32 := d.extractLsb' 128 32

/-- `DST_CAP`, bits `[191:160]` (R90). -/
def descDstCap (d : Descriptor) : Len := d.extractLsb' 160 32

/-- `DST_BASE`, bits `[255:192]` (R90). -/
def descDstBase (d : Descriptor) : Addr := d.extractLsb' 192 64

/-! ## Decoding -/

/-- A descriptor's command, or why there is none: check 1 of R97. The checks that depend on the values of used fields
(2 and 3) are Accept's. -/
def decodeCmd (d : Descriptor) : Except Reject Instr :=
  if descRsv0 d ≠ 0#26 ∨ descRsv1 d ≠ 0#32 then .error .reservedBit
  else match (descOp d).toNat with
    | 1 => .ok (.enc (descFinal d) (descElem d) (descSrcLen d) (descSrcBase d) (descDstCap d) (descDstBase d))
    | 2 => .ok (.dec (descFinal d) (descElem d) (descSrcLen d) (descSrcBase d) (descDstCap d) (descDstBase d))
    | 3 =>
      if descFinal d ∨ descElem d ∨ descSrcBase d ≠ 0#64 ∨ descDstCap d ≠ 0#32 ∨ descDstBase d ≠ 0#64 then
        .error .unusedFieldNotZero
      else .ok (.enclen (descSrcLen d))
    | 4 =>
      if descFinal d ∨ descDstCap d ≠ 0#32 ∨ descDstBase d ≠ 0#64 then .error .unusedFieldNotZero
      else .ok (.declen (descElem d) (descSrcLen d) (descSrcBase d))
    | _ => .error .unassignedOp

/-- A select code's micro-operation (the table of R101). -/
def decodeUop (c : UopCode) : Except Reject Instr :=
  match c.toNat with
  | 0x01 => .ok .seGroup
  | 0x02 => .ok .seTail2
  | 0x03 => .ok .seTail1
  | 0x04 => .ok .sdGroup
  | 0x05 => .ok .sdFinal
  | 0x08 => .ok .spuShuf
  | 0x09 => .ok .rcuEnc
  | 0x0A => .ok .rcuDec
  | 0x10 => .ok .veLoad
  | 0x11 => .ok .veSplit6
  | 0x12 => .ok .veStore
  | 0x13 => .ok .veIter
  | 0x18 => .ok .vdLoad
  | 0x19 => .ok .vdMerge6
  | 0x1A => .ok .vdStore
  | 0x1B => .ok .vdIter
  | 0x1C => .ok .lcEnclen
  | 0x1D => .ok .lcDeclen
  | _ => .error .unassignedUop

/-- The instruction a word stands for, or why it stands for none. -/
def decode : MachineWord → Except Reject Instr
  | .cmd d => decodeCmd d
  | .uop c => decodeUop c

/-! ## Encoding -/

/-- A descriptor from its fields, highest bits first (R90); both reserved fields 0 (R91). -/
def packDescriptor (op : BitVec 4) (final elem : Bool) (srcLen : Len) (srcBase : Addr) (dstCap : Len) (dstBase : Addr) :
    Descriptor :=
  dstBase ++ dstCap ++ 0#32 ++ srcBase ++ srcLen ++ 0#26 ++ BitVec.ofBool elem ++ BitVec.ofBool final ++ op

/-- The word of an instruction: the codes of R92 and R101; a field the command does not use is 0 (R91). -/
def encode : Instr → MachineWord
  | .enc final elem srcLen srcBase dstCap dstBase => .cmd (packDescriptor 1#4 final elem srcLen srcBase dstCap dstBase)
  | .dec final elem srcLen srcBase dstCap dstBase => .cmd (packDescriptor 2#4 final elem srcLen srcBase dstCap dstBase)
  | .enclen n => .cmd (packDescriptor 3#4 false false n 0#64 0#32 0#64)
  | .declen elem srcLen srcBase => .cmd (packDescriptor 4#4 false elem srcLen srcBase 0#32 0#64)
  | .seGroup => .uop 0x01#5
  | .seTail2 => .uop 0x02#5
  | .seTail1 => .uop 0x03#5
  | .sdGroup => .uop 0x04#5
  | .sdFinal => .uop 0x05#5
  | .spuShuf => .uop 0x08#5
  | .rcuEnc => .uop 0x09#5
  | .rcuDec => .uop 0x0A#5
  | .veLoad => .uop 0x10#5
  | .veSplit6 => .uop 0x11#5
  | .veStore => .uop 0x12#5
  | .veIter => .uop 0x13#5
  | .vdLoad => .uop 0x18#5
  | .vdMerge6 => .uop 0x19#5
  | .vdStore => .uop 0x1A#5
  | .vdIter => .uop 0x1B#5
  | .lcEnclen => .uop 0x1C#5
  | .lcDeclen => .uop 0x1D#5

/-! ## Words as the opcode table numbers them -/

/-- The machine word of a table row's bits: a row of fewer than 32 bits is a `UOP` row (its word is a select code of
5 bits), a row of 32 bits or more is a `CMD` row (its bits are the low bits of the descriptor, the rest 0; R90).
A `UOP` word with a bit above the code set is none (log 22). -/
def tableWord (nbits w : Nat) : Option MachineWord :=
  if nbits < 32 then (if w < 32 then some (.uop (BitVec.ofNat 5 w)) else none)
  else some (.cmd (BitVec.ofNat 256 (w % 2 ^ nbits)))

/-- The instruction the decoder reads from a row's bits, numbered as spec/opcode_table.json numbers them. -/
def decodeTableWord (nbits w : Nat) : Option Instr :=
  match tableWord nbits w with
  | none => none
  | some word =>
    match decode word with
    | .ok i => some i
    | .error _ => none

end Sys2Proof
end

