-- ==== Sys2Proof/Machine/Tables.lean ====
section
/-! DEFINITION. The standard configuration of 10_state.md R22 to R27, the default of the parameter, and the proof that it
is well formed (R28). -/

namespace Sys2Proof.Machine

/-- `ALPHABET` of the standard configuration: upper, lower, digits, `+`, `/` (R22). -/
def standardAlphabet : Vector Byte 64 :=
  ⟨([0x41, 0x42, 0x43, 0x44, 0x45, 0x46, 0x47, 0x48, 0x49, 0x4A, 0x4B, 0x4C, 0x4D,
     0x4E, 0x4F, 0x50, 0x51, 0x52, 0x53, 0x54, 0x55, 0x56, 0x57, 0x58, 0x59, 0x5A] ++
    [0x61, 0x62, 0x63, 0x64, 0x65, 0x66, 0x67, 0x68, 0x69, 0x6A, 0x6B, 0x6C, 0x6D,
     0x6E, 0x6F, 0x70, 0x71, 0x72, 0x73, 0x74, 0x75, 0x76, 0x77, 0x78, 0x79, 0x7A] ++
    [0x30, 0x31, 0x32, 0x33, 0x34, 0x35, 0x36, 0x37, 0x38, 0x39] ++ [0x2B, 0x2F] : List Byte).toArray, rfl⟩

/-- `DECMAP` of the standard configuration: `'+'` 62, `'/'` 63, digits 52 to 61, upper 0 to 25, lower 26 to 51, every
other byte the sentinel (R23). -/
def standardDecmap : Vector Byte 256 :=
  ⟨(List.replicate 43 0xFF ++ [62] ++ List.replicate 3 0xFF ++ [63] ++
    [52, 53, 54, 55, 56, 57, 58, 59, 60, 61] ++ List.replicate 7 0xFF ++
    [0, 1, 2, 3, 4, 5, 6, 7, 8, 9, 10, 11, 12, 13, 14, 15, 16, 17, 18, 19, 20, 21, 22, 23, 24, 25] ++
    List.replicate 6 0xFF ++
    [26, 27, 28, 29, 30, 31, 32, 33, 34, 35, 36, 37, 38, 39, 40, 41, 42, 43, 44, 45, 46, 47, 48, 49, 50, 51] ++
    List.replicate 133 0xFF : List Byte).toArray, by decide +kernel⟩

/-- `PAD`, the ASCII code of `=` (R24). -/
def standardPad : Byte := 0x3D#8

/-- `ENC_SHUF` (R25). -/
def standardEncShuf : Vector Byte 16 :=
  #v[0x02, 0x01, 0x00, 0x80, 0x05, 0x04, 0x03, 0x80, 0x08, 0x07, 0x06, 0x80, 0x0B, 0x0A, 0x09, 0x80]

/-- `DEC_SHUF` (R25). -/
def standardDecShuf : Vector Byte 16 :=
  #v[0x02, 0x01, 0x00, 0x06, 0x05, 0x04, 0x0A, 0x09, 0x08, 0x0E, 0x0D, 0x0C, 0x80, 0x80, 0x80, 0x80]

/-- An unused entry of a range table (R27). -/
def unusedEntry : RangeEntry := ⟨false, 0, 0, 0⟩

/-- `RC_ENC` of the standard configuration, entries digits, upper, lower, `+`, `/` (R27). -/
def standardRcEnc : Vector RangeEntry 8 :=
  #v[⟨true, 52, 61, 0xFC⟩, ⟨true, 0, 25, 0x41⟩, ⟨true, 26, 51, 0x47⟩, ⟨true, 62, 62, 0xED⟩, ⟨true, 63, 63, 0xF0⟩,
     unusedEntry, unusedEntry, unusedEntry]

/-- `RC_DEC` of the standard configuration (R27). -/
def standardRcDec : Vector RangeEntry 8 :=
  #v[⟨true, 0x30, 0x39, 0x04⟩, ⟨true, 0x41, 0x5A, 0xBF⟩, ⟨true, 0x61, 0x7A, 0xB9⟩, ⟨true, 0x2B, 0x2B, 0x13⟩,
     ⟨true, 0x2F, 0x2F, 0x10⟩, unusedEntry, unusedEntry, unusedEntry]

/-- The standard configuration at the capability level `cap` (R22 to R27; R6). -/
def standardRegs (cap : BitVec 2) : Configuration where
  cap := cap
  alphabet := standardAlphabet
  decmap := standardDecmap
  pad := standardPad
  encShuf := standardEncShuf
  decShuf := standardDecShuf
  rcEnc := standardRcEnc
  rcDec := standardRcDec

theorem standard_decmap_inverts :
    ∀ i : Fin 64, standardDecmap[standardAlphabet[i].toNat]'(standardAlphabet[i].isLt) = BitVec.ofNat 8 i := by
  decide +kernel

theorem standard_decmap_hits :
    ∀ x : Fin 256, standardDecmap[x] = 0xFF#8 ∨
      ∃ h : standardDecmap[x].toNat < 64, standardAlphabet[standardDecmap[x].toNat]'h = BitVec.ofNat 8 x := by
  decide +kernel

theorem standard_pad_outside : ∀ i : Fin 64, standardAlphabet[i] ≠ standardPad := by decide +kernel

theorem standard_rcEnc_bounds : ∀ j : Fin 8, standardRcEnc[j].valid = true →
    standardRcEnc[j].lo ≤ standardRcEnc[j].hi ∧ standardRcEnc[j].hi ≤ 63#8 := by decide +kernel

theorem standard_rcEnc_disjoint : RangesDisjoint standardRcEnc := by decide +kernel

theorem standard_rcEnc_covers :
    ∀ v : Fin 64, ∃ j : Fin 8, entryHits standardRcEnc[j] (BitVec.ofNat 8 v) = true := by decide +kernel

theorem standard_rcEnc_agrees : ∀ (v : Fin 64) (j : Fin 8), entryHits standardRcEnc[j] (BitVec.ofNat 8 v) = true →
    add8 (BitVec.ofNat 8 v) standardRcEnc[j].off = standardAlphabet[v] := by decide +kernel

theorem standard_rcDec_bounds : ∀ j : Fin 8, standardRcDec[j].valid = true →
    standardRcDec[j].lo ≤ standardRcDec[j].hi := by decide +kernel

theorem standard_rcDec_disjoint : RangesDisjoint standardRcDec := by decide +kernel

theorem standard_rcDec_agrees : ∀ (x : Fin 256) (j : Fin 8), entryHits standardRcDec[j] (BitVec.ofNat 8 x) = true →
    add8 (BitVec.ofNat 8 x) standardRcDec[j].off = standardDecmap[x] ∧ standardDecmap[x] ≤ 63#8 := by decide +kernel

theorem standard_rcDec_outside : ∀ x : Fin 256, (∀ j : Fin 8, entryHits standardRcDec[j] (BitVec.ofNat 8 x) = false) →
    standardDecmap[x] = 0xFF#8 := by decide +kernel

theorem setWidth8_of_six (i : BitVec 6) : i.setWidth 8 = BitVec.ofNat 8 i.toNat := by
  apply BitVec.eq_of_toNat_eq; simp

theorem ofNat8_toFin (x : Byte) : BitVec.ofNat 8 (x.toFin : Fin 256).val = x := by
  apply BitVec.eq_of_toNat_eq; simp

theorem standard_decmapInverts (cap : BitVec 2) : (standardRegs cap).DecmapInverts := fun i => by
  rw [setWidth8_of_six]; exact standard_decmap_inverts i.toFin

/-- "The standard configuration of rules R22 to R27 is well formed" (R28), at each capability level of R6. -/
theorem standardRegs_wellFormed (cap : BitVec 2) (hcap : cap ≠ 3#2) : (standardRegs cap).WellFormed where
  alphabetDistinct i j h := by
    have hi := standard_decmapInverts cap i
    have hj := standard_decmapInverts cap j
    rw [h, hj] at hi
    have := congrArg BitVec.toNat hi
    simp only [BitVec.toNat_setWidth] at this
    apply BitVec.eq_of_toNat_eq; omega
  padOutside i := standard_pad_outside i.toFin
  decmapInverts := standard_decmapInverts cap
  decmapSentinel x hx := by
    rcases standard_decmap_hits x.toFin with h | ⟨h, hs⟩
    · exact h
    · refine absurd ?_ (hx (BitVec.ofNat 6 (valueOf (standardRegs cap) x).toNat))
      have hlt : (valueOf (standardRegs cap) x).toNat < 2 ^ 6 := h
      simp only [symbolOf, BitVec.toNat_ofNat, Nat.mod_eq_of_lt hlt]
      exact hs.trans (ofNat8_toFin x)
  encShufFixed := rfl
  decShufFixed := rfl
  capLegal := hcap
  rcEncBounds := standard_rcEnc_bounds
  rcEncDisjoint := standard_rcEnc_disjoint
  rcEncCovers v := by rw [setWidth8_of_six]; exact standard_rcEnc_covers v.toFin
  rcEncAgrees v j h := by rw [setWidth8_of_six] at h ⊢; exact standard_rcEnc_agrees v.toFin j h
  rcDecBounds := standard_rcDec_bounds
  rcDecDisjoint := standard_rcDec_disjoint
  rcDecAgrees x j h := by
    have := standard_rcDec_agrees x.toFin j (by rw [ofNat8_toFin]; exact h)
    rw [ofNat8_toFin] at this
    exact this
  rcDecOutside x h := by
    exact standard_rcDec_outside x.toFin (fun j => by rw [ofNat8_toFin]; exact h j)

/-- The standard configuration with its proof, at a capability level of R6. -/
def standardConfiguration (cap : BitVec 2) (hcap : cap ≠ 3#2) : WfConfiguration :=
  ⟨standardRegs cap, standardRegs_wellFormed cap hcap⟩

end Sys2Proof.Machine
end

