-- ==== Sys2Proof/Machine/State.lean ====
section
/-! DEFINITION. The state of one block instance (10_state.md), the memory and the host it is attached to, its reset
value, and the ways the model stops. INVENTORY.md lists every field with its rule. -/

namespace Sys2Proof.Machine

/-- `PHASE`: the five values it holds (R30). -/
inductive Phase where
  | idle
  | scanning
  | bulkTransform
  | tailTransform
  | done
  deriving DecidableEq, Repr

/-- `STATUS`: all four values of its two bits (R33, R95). -/
inductive Status where
  | done
  | destinationTooSmall
  | needMoreData
  | invalidData
  deriving DecidableEq, Repr

/-- What a faulting command reports (R253). -/
inductive CommandFault where
  | illegalCommand
  | rangeError
  | unsupportedElementType
  deriving DecidableEq, Repr

/-- The command latch (R29). -/
structure Latch where
  op : BitVec 4
  final : Bool
  elem : Bool
  srcBase : Addr
  srcLen : Len
  dstBase : Addr
  dstCap : Len
  deriving DecidableEq, Repr

/-- The working registers of the units (R35, R36), and the inputs and outputs their interfaces name (R140, R144, R160,
R163; log 12). A vector has its `L` lanes, lane 0 first. -/
structure Units where
  /-- `b0, b1, b2`, the scalar encoder's inputs (R140). -/
  seIn : Vector Byte 3
  /-- `SE.W` (R141). -/
  seW : GroupWord
  /-- `s0 .. s3`, the scalar encoder's outputs (R140). -/
  seOut : Vector Byte 4
  /-- `c0 .. c3`, the scalar decoder's inputs (R144). -/
  sdIn : Vector Byte 4
  /-- `SD.W` (R145). -/
  sdW : GroupWord
  /-- `ok` (R144). -/
  sdOk : Bool
  /-- `k`, the number of raw bytes produced (R144). -/
  sdK : BitVec 2
  /-- The `k` raw bytes, the one for the lowest address first (R144). -/
  sdOut : List Byte
  /-- `VE.V` (R35). -/
  veV : List Byte
  /-- `VD.V` (R35). -/
  vdV : List Byte
  /-- `VD.ANYBAD` (R34, R166). -/
  vdAnybad : Bool
  /-- The vector input of the shuffle unit (R160). -/
  spuV : List Byte
  /-- The control constant at the shuffle unit's input (R160). -/
  spuC : Vector Byte 16
  /-- The output of the shuffle unit (R160). -/
  spuOut : List Byte
  /-- The vector input of the range-compare unit (R163). -/
  rcuV : List Byte
  /-- The vector output of the range-compare unit (R163). -/
  rcuOut : List Byte
  deriving DecidableEq, Repr

/-- The memory's bytes (R60): address and byte, addresses strictly rising, no entry equal to what an unlisted address
reads as (`Memory.wf` in Ops). -/
abbrev Memory := List Host.Cell

/-- One range of the platform's address map: addresses that are memory, readable, writable or both (R69, R70). -/
structure MemRegion where
  base : Nat
  len : Nat
  readable : Bool
  writable : Bool
  deriving DecidableEq, Repr

/-- The state: the block's registers (R20), the memory (R60), the host's side of the interface (log 10, 24), and the
model's own select input and free-value counter (log 13, 14). -/
structure State where
  /-- The configuration registers, with the proof of R28. -/
  config : WfConfiguration
  latch : Latch
  phase : Phase
  /-- `CONSUMED` (R31). -/
  consumed : Len
  /-- `WRITTEN` (R31). -/
  written : Len
  status : Status
  /-- `FAULT`: 0 or a fault code (R33, R253). -/
  fault : BitVec 4
  /-- `VALUE`, two's complement (R33, R94). -/
  value : BitVec 32
  units : Units
  mem : Memory
  memMap : List MemRegion
  /-- The descriptors the host will offer; the first is on offer now (R211, R297). -/
  offers : List Descriptor
  /-- The responses delivered, oldest first (R222). -/
  responses : List ResponseWord
  /-- Whether the host takes a ready response (R222). -/
  hostTakes : Bool
  /-- A reset asked for, with the configuration supplied at it (R280, R281). -/
  resetIn : Option WfConfiguration
  /-- A select code driven on the units by itself (R101; log 13). -/
  uopSel : Option UopCode
  /-- The counter free values are drawn at (log 14). -/
  tick : Nat
  deriving DecidableEq, Repr

/-- How a step of the model stops with a fault. None of them is a fault of the block (R253 is `CommandFault`, a response
and a next state); all are safe: the machine stops where hardware might go on. -/
inductive Fault where
  /-- Raised by the read primitive: an access outside the source region, which R63 says a model's memory does not admit.
  No run of a command reaches it (R80). Safe. -/
  | readOutsideSource
  /-- Raised by the write primitive: an access outside the destination region (R64). No run of a command reaches it
  (R81). Safe. -/
  | writeOutsideDestination
  /-- Raised by Accept and by both primitives: a region that is not memory; such a command "has no step (stuck)" (R70;
  93_implementation_defined.md U3). Safe. -/
  | regionNotMemory
  /-- Raised by a step in a phase whose `OP` is neither `ENC` nor `DEC`: no step of R210 is enabled. No run reaches it.
  Safe. -/
  | noEnabledStep
  deriving DecidableEq, Repr

/-- How a step of the model refuses: the situation has no meaning. All are safe: nothing can be proved past one. -/
inductive Refusal where
  /-- Raised by exec for an instruction without a meaning yet. Safe. -/
  | notModelled (mnemonic : String)
  /-- Raised by Accept: the regions of an `ENC` or `DEC` overlap; "A model refuses a command whose regions overlap"
  (R71; U2). Safe. -/
  | regionsOverlap
  /-- Raised by a step whose select input carries a code without a row: "never issued by the sequencer" (R101). Safe. -/
  | unassignedMicroOp
  deriving DecidableEq, Repr

/-! ## Reset -/

/-- The latch of `State.reset`: R38 leaves every field unspecified; all 0 (log 1). -/
def Latch.zero : Latch := ⟨0, false, false, 0, 0, 0, 0⟩

/-- The working registers of `State.reset` with `lanes` lanes: R38 leaves them unspecified; all 0 (log 3). -/
def Units.zero (lanes : Nat) : Units where
  seIn := #v[0, 0, 0]
  seW := 0
  seOut := #v[0, 0, 0, 0]
  sdIn := #v[0, 0, 0, 0]
  sdW := 0
  sdOk := false
  sdK := 0
  sdOut := []
  veV := List.replicate lanes 0
  vdV := List.replicate lanes 0
  vdAnybad := false
  spuV := List.replicate lanes 0
  spuC := #v[0, 0, 0, 0, 0, 0, 0, 0, 0, 0, 0, 0, 0, 0, 0, 0]
  spuOut := List.replicate lanes 0
  rcuV := List.replicate lanes 0
  rcuOut := List.replicate lanes 0

/-- The platform's address map of `State.reset`: every address is readable and writable memory (log 6). -/
def wholeSpace : List MemRegion := [⟨0, Config.addressSpace, true, true⟩]

/-- The machine right after reset (R38, R280): the standard configuration, `PHASE = Idle`, no command offered. What R38
leaves unspecified has the named value of log 1, 2, 3; `CAP` that of log 4; the model's own fields those of log 5, 6, 10,
13, 14, 24. -/
def State.reset : State where
  config := standardConfiguration 1#2 (by decide)
  latch := Latch.zero
  phase := .idle
  consumed := 0
  written := 0
  status := .done
  fault := 0
  value := 0
  units := Units.zero (lanesOf 1#2)
  mem := []
  memMap := wholeSpace
  offers := []
  responses := []
  hostTakes := true
  resetIn := none
  uopSel := none
  tick := 0

end Sys2Proof.Machine
end

