-- ==== Sys2Proof/Machine/Operands.lean ====
section
/-! DEFINITION. The operand forms: the addresses a step or a unit works at, what is left of the two regions, and the
lanes of a vector register (10_state.md R31, R35; 43_vector_engines.md R190, R196). -/

namespace Sys2Proof.Machine

/-- `L` of the instance (R6). -/
def State.lanes (s : State) : Nat := lanesOf s.config.regs.cap

/-- `N` of the instance (R6). -/
def State.window (s : State) : Nat := windowOf s.config.regs.cap

/-- `p = SRC_BASE + CONSUMED`, the address of the next source byte (R31, R190). -/
def State.srcAddr (s : State) : Nat := s.latch.srcBase.toNat + s.consumed.toNat

/-- `q = DST_BASE + WRITTEN`, the address of the next destination byte (R31, R190). -/
def State.dstAddr (s : State) : Nat := s.latch.dstBase.toNat + s.written.toNat

/-- `SRC_LEN - CONSUMED` (R126; log 27 for states no run reaches). -/
def State.remaining (s : State) : Nat := s.latch.srcLen.toNat - s.consumed.toNat

/-- `DST_CAP - WRITTEN` (R126; log 27 for states no run reaches). -/
def State.room (s : State) : Nat := s.latch.dstCap.toNat - s.written.toNat

/-- Byte lane `i` of a vector (R35). -/
def lane (v : List Byte) (i : Nat) : Byte := v.getD i 0#8

/-- `W_g(V)`, word lane `g`: byte lanes `4g .. 4g+3`, lane `4g` least significant (R35). -/
def wordLane (v : List Byte) (g : Nat) : WordLane :=
  lane v (4 * g + 3) ++ lane v (4 * g + 2) ++ lane v (4 * g + 1) ++ lane v (4 * g)

/-- The vector of `n` lanes whose lane `i` is `f i`. -/
def lanesFrom (n : Nat) (f : Nat → Byte) : List Byte := (List.range n).map f

end Sys2Proof.Machine
end

