-- ==== Sys2Proof/Machine/Flags.lean ====
section
/-! DEFINITION. The codes of phases, statuses and faults, and every predicate that acts as a flag (10_state.md R30, R33,
R34; 44_chunk_driver.md R213, R220; 20_memory.md R71). -/

namespace Sys2Proof.Machine

/-- The value of `PHASE` (R30). -/
def phaseCode : Phase → BitVec 3
  | .idle => 0#3
  | .scanning => 1#3
  | .bulkTransform => 2#3
  | .tailTransform => 3#3
  | .done => 4#3

/-- The value of `STATUS` (R95). -/
def statusCode : Status → BitVec 2
  | .done => 0#2
  | .destinationTooSmall => 1#2
  | .needMoreData => 2#2
  | .invalidData => 3#2

/-- The status of a two-bit value (R95); it reads a free value of the register (log 15). -/
def statusOfCode (b : BitVec 2) : Status :=
  match b.toNat with
  | 0 => .done
  | 1 => .destinationTooSmall
  | 2 => .needMoreData
  | _ => .invalidData

/-- The value of `FAULT` for a fault (R253). -/
def faultCode : CommandFault → BitVec 4
  | .illegalCommand => 1#4
  | .rangeError => 2#4
  | .unsupportedElementType => 3#4

/-- The command code of `ENC` (R92). -/
def opEnc : BitVec 4 := 1#4

/-- The command code of `DEC` (R92). -/
def opDec : BitVec 4 := 2#4

/-- The command code of `ENCLEN` (R92). -/
def opEnclen : BitVec 4 := 3#4

/-- The command code of `DECLEN` (R92). -/
def opDeclen : BitVec 4 := 4#4

/-- `bulk_ok()`: a vector iteration may be started (R213). With another `OP` none is. -/
def bulkOk (s : State) : Bool :=
  if s.latch.op = opEnc then decide (s.lanes ≤ s.remaining ∧ s.lanes ≤ s.room)
  else if s.latch.op = opDec then decide (s.lanes ≤ s.remaining ∧ s.window ≤ s.room)
  else false

/-- `last`: the group is the last four symbols of a final block (R220). -/
def isLastGroup (s : State) : Bool := s.latch.final && s.remaining == 4

/-- Two ranges of addresses share a byte (R71). -/
def rangesMeet (base1 len1 base2 len2 : Nat) : Bool := decide (max base1 base2 < min (base1 + len1) (base2 + len2))

/-- The two regions of the latched command overlap (R71). -/
def regionsOverlap (l : Latch) : Bool := rangesMeet l.srcBase.toNat l.srcLen.toNat l.dstBase.toNat l.dstCap.toNat

end Sys2Proof.Machine
end

