-- ==== Sys2Proof/Machine/Ops.lean ====
section
/-! DEFINITION. The shared operations: the memory and its two access primitives (20_memory.md R63, R64), the ways a
command ends (`finish` R214, `raise` R254), the delivery of a response (R222), reset (R280), and what becomes
unspecified when a step ends (10_state.md R36, R37). -/

namespace Sys2Proof.Machine

/-! ## Memory -/

/-- What a byte of memory nothing has written reads as (log 5). -/
def Memory.unlisted : Byte := 0x00#8

/-- The byte at an address. -/
def Memory.read : Memory → Nat → Byte
  | [], _ => Memory.unlisted
  | (b, v) :: rest, a => if a < b then Memory.unlisted else if a = b then v else Memory.read rest a

/-- The memory with the byte at an address set; it keeps the canonical form. -/
def Memory.write : Memory → Nat → Byte → Memory
  | [], a, v => if v = Memory.unlisted then [] else [(a, v)]
  | (b, w) :: rest, a, v =>
    if a < b then (if v = Memory.unlisted then (b, w) :: rest else (a, v) :: (b, w) :: rest)
    else if a = b then (if v = Memory.unlisted then rest else (a, v) :: rest)
    else (b, w) :: Memory.write rest a v

/-- The list form of the canonical memory above a bound: addresses strictly rising from `lo`, inside the address space,
no entry equal to the unlisted byte. -/
def Memory.wfFrom : Nat → Memory → Bool
  | _, [] => true
  | lo, (b, v) :: rest =>
    decide (lo ≤ b) && decide (b < Config.addressSpace) && decide (v ≠ Memory.unlisted) && Memory.wfFrom (b + 1) rest

/-- The canonical form of the memory. -/
def Memory.wf (m : Memory) : Bool := Memory.wfFrom 0 m

/-- `n` bytes from `a` on, lowest address first (R14). -/
def Memory.readBytes (m : Memory) (a n : Nat) : List Byte := (List.range n).map fun i => m.read (a + i)

/-- A list of bytes stored from `a` on, the first at the lowest address (R14). -/
def Memory.writeBytes : Memory → Nat → List Byte → Memory
  | m, _, [] => m
  | m, a, v :: vs => Memory.writeBytes (m.write a v) (a + 1) vs

/-- Addresses `[a, e)` are covered by ranges of the map that `ok` admits. `fuel` bounds the ranges passed through; the
length of the map is enough, since each is passed at most once. -/
def coveredFrom (ok : MemRegion → Bool) (map : List MemRegion) : (fuel : Nat) → (a e : Nat) → Bool
  | 0, a, e => decide (e ≤ a)
  | fuel + 1, a, e =>
    if e ≤ a then true
    else match map.find? fun r => ok r && decide (r.base ≤ a) && decide (a < r.base + r.len) with
      | none => false
      | some r => coveredFrom ok map fuel (r.base + r.len) e

/-- Every byte of `[a, a + n)` is inside the address space and readable memory (R70). -/
def readableMem (map : List MemRegion) (a n : Nat) : Bool :=
  decide (a + n ≤ Config.addressSpace) && coveredFrom (·.readable) map map.length a (a + n)

/-- Every byte of `[a, a + n)` is inside the address space and writable memory (R70). -/
def writableMem (map : List MemRegion) (a n : Nat) : Bool :=
  decide (a + n ≤ Config.addressSpace) && coveredFrom (·.writable) map map.length a (a + n)

/-- `[a, a + n)` lies in the source region of the latched command (R63). -/
def insideSource (l : Latch) (a n : Nat) : Bool :=
  decide (l.srcBase.toNat ≤ a ∧ a + n ≤ l.srcBase.toNat + l.srcLen.toNat)

/-- `[a, a + n)` lies in the destination region of the latched command (R64; log 18). -/
def insideDestination (l : Latch) (a n : Nat) : Bool :=
  decide (l.dstBase.toNat ≤ a ∧ a + n ≤ l.dstBase.toNat + l.dstCap.toNat)

/-- `MemRead(addr, n)` under the condition of R63, from memory (R70). -/
def memRead (s : State) (a n : Nat) : Except Fault (List Byte) :=
  if insideSource s.latch a n = false then .error .readOutsideSource
  else if readableMem s.memMap a n = false then .error .regionNotMemory
  else .ok (s.mem.readBytes a n)

/-- `MemWrite(addr, n, bytes)` with `n` the length of the list, inside the destination region (R64), to memory (R70). -/
def memWrite (s : State) (a : Nat) (bytes : List Byte) : Except Fault State :=
  if insideDestination s.latch a bytes.length = false then .error .writeOutsideDestination
  else if writableMem s.memMap a bytes.length = false then .error .regionNotMemory
  else .ok { s with mem := s.mem.writeBytes a bytes }

/-! ## Outcomes -/

/-- The outcome of a computation that may stop with a fault of the model. -/
def outcome : Except Fault State → Host.Outcome State Fault Refusal
  | .ok s => .next s
  | .error f => .fault f

/-- The next computation on the result, if there is one. -/
def andThen {α β : Type} (r : Except Fault α) (f : α → Except Fault β) : Except Fault β :=
  match r with
  | .ok a => f a
  | .error e => .error e

/-! ## Free values -/

/-- A list of `n` free bytes drawn at `tick`, told apart from field `field` on. -/
def freeBytes (tick field n : Nat) : List Byte := (List.range n).map fun i => Config.unspecified 8 tick (field + i)

/-- Free values in every working register, input and output of the units, `lanes` lanes a vector (R36; log 14). -/
def freeUnits (lanes tick : Nat) : Units where
  seIn := Vector.ofFn fun i => Config.unspecified 8 tick i.val
  seW := Config.unspecified 24 tick 3
  seOut := Vector.ofFn fun i => Config.unspecified 8 tick (4 + i.val)
  sdIn := Vector.ofFn fun i => Config.unspecified 8 tick (8 + i.val)
  sdW := Config.unspecified 24 tick 12
  sdOk := (Config.unspecified 1 tick 13).getLsbD 0
  sdK := Config.unspecified 2 tick 14
  sdOut := freeBytes tick 16 3
  veV := freeBytes tick 32 lanes
  vdV := freeBytes tick 64 lanes
  vdAnybad := (Config.unspecified 1 tick 15).getLsbD 0
  spuV := freeBytes tick 96 lanes
  spuC := Vector.ofFn fun i => Config.unspecified 8 tick (128 + i.val)
  spuOut := freeBytes tick 160 lanes
  rcuV := freeBytes tick 192 lanes
  rcuOut := freeBytes tick 224 lanes

/-- Free values in the command latch (R37, R38; log 15, 28). -/
def freeLatch (tick : Nat) : Latch where
  op := Config.unspecified 4 tick 256
  final := (Config.unspecified 1 tick 257).getLsbD 0
  elem := (Config.unspecified 1 tick 258).getLsbD 0
  srcBase := Config.unspecified 64 tick 259
  srcLen := Config.unspecified 32 tick 260
  dstBase := Config.unspecified 64 tick 261
  dstCap := Config.unspecified 32 tick 262

/-- The end of an iteration or group: the working registers hold no defined value (R36; log 14). -/
def release (s : State) : State := { s with units := freeUnits s.lanes s.tick, tick := s.tick + 1 }

/-- Everything of the block but the configuration and `PHASE` without a defined value (R37, R38; log 15, 28). -/
def forget (s : State) : State :=
  { s with
    latch := freeLatch s.tick
    consumed := Config.unspecified 32 s.tick 263
    written := Config.unspecified 32 s.tick 264
    status := statusOfCode (Config.unspecified 2 s.tick 265)
    fault := Config.unspecified 4 s.tick 266
    value := Config.unspecified 32 s.tick 267
    units := freeUnits s.lanes s.tick
    tick := s.tick + 1 }

/-! ## The two ways a command ends (R15), and the delivery of its response -/

/-- `raise F`: taking a fault (R254). -/
def raise (f : CommandFault) (s : State) : State :=
  { s with fault := faultCode f, status := .done, consumed := 0, written := 0, value := 0, phase := .done }

/-- `finish(S)` (R214). -/
def finish (st : Status) (s : State) : State := { s with status := st, fault := 0, value := 0, phase := .done }

/-- The response record formed from the result and progress registers, highest bits first (R94, R222). -/
def responseOf (s : State) : ResponseWord :=
  s.value ++ s.written ++ s.consumed ++ 0#24 ++ s.fault ++ 0#2 ++ statusCode s.status

/-- Step Deliver, when the host takes the response: back to `Idle`, with nothing kept of the command (R222, R37). The
nearest thing to a return from a fault (R263). -/
def deliver (s : State) : State :=
  { forget s with responses := s.responses ++ [responseOf s], phase := .idle }

/-- `STATUS` field of a response record, bits `[1:0]` (R94). -/
def rspStatus (r : ResponseWord) : BitVec 2 := r.extractLsb' 0 2

/-- `FAULT` field of a response record, bits `[7:4]` (R94). -/
def rspFault (r : ResponseWord) : BitVec 4 := r.extractLsb' 4 4

/-- `CONSUMED` field of a response record, bits `[63:32]` (R94). -/
def rspConsumed (r : ResponseWord) : Len := r.extractLsb' 32 32

/-- `WRITTEN` field of a response record, bits `[95:64]` (R94). -/
def rspWritten (r : ResponseWord) : Len := r.extractLsb' 64 32

/-- `VALUE` field of a response record, bits `[127:96]`, a signed number (R94, R17). -/
def rspValue (r : ResponseWord) : Int := (r.extractLsb' 96 32).toInt

/-! ## Reset -/

/-- The reset event with the configuration supplied at it: `PHASE = Idle`, every other register unspecified, the memory
untouched (R280, R281; log 28). The reset request is taken with it. -/
def resetBlock (c : WfConfiguration) (s : State) : State :=
  { forget { s with config := c } with phase := .idle, uopSel := none, resetIn := none }

end Sys2Proof.Machine
end

