-- ==== Sys2Proof/Machine/Length.lean ====
section
/-! DEFINITION. The length calculator (40_length_calculator.md): the functions EncodedLength (R121, R122) and
DecodedLength (R124, R125), and their micro-operations. The two length commands are in Commands.lean. -/

namespace Sys2Proof.Machine

/-- `EncodedLength(n) = ((n + 2) div 3) * 4`, computed without wrap (R121, R122). -/
def encodedLength (n : Nat) : Nat := (n + 2) / 3 * 4

/-- `(len div 4) * 3 - p`, a signed number (R124). -/
def decodedLength (len p : Nat) : Int := ((len / 4 * 3 : Nat) : Int) - (p : Int)

/-- The byte `back` places before the end of the source region, read through the read primitive. -/
def readBack (s : State) (back : Nat) : Except Fault Byte :=
  andThen (memRead s (s.latch.srcBase.toNat + s.latch.srcLen.toNat - back) 1) fun bytes => .ok (bytes.getD 0 0#8)

/-- `p` of R124: the length of the run of `PAD` at the very end of the source, cut at 2. With length 0 nothing is read,
and the second-to-last symbol is looked at only when the last is `PAD`. -/
def paddingRun (s : State) : Except Fault Nat :=
  if s.latch.srcLen.toNat = 0 then .ok 0
  else andThen (readBack s 1) fun last =>
    if last ≠ s.config.regs.pad then .ok 0
    else if s.latch.srcLen.toNat = 1 then .ok 1
    else andThen (readBack s 2) fun second => .ok (if second = s.config.regs.pad then 2 else 1)

/-- `DecodedLength(SRC_BASE, SRC_LEN)` (R124). -/
def decodedLengthOf (s : State) : Except Fault Int :=
  andThen (paddingRun s) fun p => .ok (decodedLength s.latch.srcLen.toNat p)

/-- `VALUE` written with a signed number (R94). -/
def setValue (v : Int) (s : State) : State := { s with value := BitVec.ofInt 32 v }

/-- `VALUE` where the spec states no result: a free value (log 17). -/
def openValue (s : State) : State := { s with value := Config.unspecified 32 s.tick 280, tick := s.tick + 1 }

/-- `LC.ENCLEN`: `VALUE <- EncodedLength(SRC_LEN)`. R121 gives the function for `0 <= n <= ENC_MAX`; beyond it, where no
command ever issues the operation (R120), the result is a free value (log 17). -/
def lcEnclen (s : State) : State :=
  if s.latch.srcLen.toNat ≤ Config.encMax then setValue (encodedLength s.latch.srcLen.toNat : Nat) s else openValue s

/-- `LC.DECLEN`: `VALUE <- DecodedLength(SRC_BASE, SRC_LEN)` (R124). R29 and R125 give it for `SRC_LEN` up to `LEN_MAX`;
beyond it, where no command ever issues the operation (R97, R123), the result is a free value, the symbols being read all
the same (log 17). -/
def lcDeclen (s : State) : Except Fault State :=
  andThen (decodedLengthOf s) fun v =>
    .ok (if s.latch.srcLen.toNat ≤ Config.lenMax then setValue v s else openValue s)

/-! ## Meanings -/

/-- `LC.ENCLEN` (R121). -/
def execLcEnclen (s : State) : Host.Outcome State Fault Refusal := .next (lcEnclen s)

/-- `LC.DECLEN` (R124). -/
def execLcDeclen (s : State) : Host.Outcome State Fault Refusal := outcome (lcDeclen s)

end Sys2Proof.Machine
end

