-- ==== Sys2Proof/Machine/Commands.lean ====
section
/-! DEFINITION. The step Accept (44_chunk_driver.md R211) for each command: the latch, the checks 2 and 3 of
30_encoding.md R97, the preconditions of 20_memory.md R70 and R71, and what each command does at it (R120, R123, R225,
R226). An `ENC` or `DEC` goes on in the steps of Sequencer.lean. -/

namespace Sys2Proof.Machine

/-- The first two lines of Accept: the latch takes the fields of the descriptor, the progress and result registers are
cleared (R211). -/
def latchCommand (l : Latch) (s : State) : State :=
  { s with latch := l, consumed := 0, written := 0, status := .done, fault := 0, value := 0 }

/-- The latch's fields of a descriptor, whatever it holds (R90, R211). -/
def latchOfDescriptor (d : Descriptor) : Latch :=
  ⟨descOp d, descFinal d, descElem d, descSrcBase d, descSrcLen d, descDstBase d, descDstCap d⟩

/-- A length is in range and its region does not wrap (R97 check 3; R9). -/
def regionInRange (base : Addr) (len : Len) : Bool :=
  decide (len.toNat ≤ Config.lenMax) && decide (base.toNat + len.toNat ≤ Config.addressSpace)

/-- The first failing check of R97 after check 1, for a latched command of the codes 1 to 4: `ELEM`, then the ranges of
the fields the command uses (R97, R258). -/
def firstFailingCheck (l : Latch) : Option CommandFault :=
  if l.elem then some .unsupportedElementType
  else if l.op = opEnclen then (if l.srcLen.toNat ≤ Config.encMax then none else some .rangeError)
  else if regionInRange l.srcBase l.srcLen && regionInRange l.dstBase l.dstCap then none
  else some .rangeError

/-- Every byte of the source region is readable memory and every byte of the destination region writable memory (R70). -/
def regionsAreMemory (s : State) : Bool :=
  readableMem s.memMap s.latch.srcBase.toNat s.latch.srcLen.toNat &&
  writableMem s.memMap s.latch.dstBase.toNat s.latch.dstCap.toNat

/-- The last line of Accept, for `ENC` and `DEC`: `PHASE <- Scanning` (R211), once the preconditions of R71 and R70 hold;
without them the command has no meaning and no step (log 7, 8). -/
def startTransfer (s : State) : Host.Outcome State Fault Refusal :=
  if regionsOverlap s.latch then .refused .regionsOverlap
  else if regionsAreMemory s then .next { s with phase := .scanning }
  else .fault .regionNotMemory

/-- `ENCLEN` at Accept: `VALUE <- EncodedLength(SRC_LEN); PHASE <- Done` (R120, R211). -/
def startEnclen (s : State) : Host.Outcome State Fault Refusal := .next { lcEnclen s with phase := .done }

/-- `DECLEN` at Accept: `VALUE <- DecodedLength(SRC_BASE, SRC_LEN); PHASE <- Done` (R123, R211), its source being memory
(R70). -/
def startDeclen (s : State) : Host.Outcome State Fault Refusal :=
  if regionsAreMemory s then outcome (andThen (lcDeclen s) fun t => .ok { t with phase := .done })
  else .fault .regionNotMemory

/-- Step Accept for a decoded command: enabled in `Idle` only; in another phase the command is not taken and nothing
happens (R211, R297; log 30). -/
def accept (l : Latch) (start : State → Host.Outcome State Fault Refusal) (s : State) :
    Host.Outcome State Fault Refusal :=
  if s.phase = .idle then
    match firstFailingCheck l with
    | some f => .next (raise f (latchCommand l s))
    | none => start (latchCommand l s)
  else .next s

/-- Step Accept for a descriptor that is none of the commands: `IllegalCommand` (R98, R211, R255). -/
def acceptIllegal (d : Descriptor) (s : State) : State := raise .illegalCommand (latchCommand (latchOfDescriptor d) s)

/-! ## Meanings -/

/-- `ENC` (R211, R225): Accept; the transfer itself is the steps of the sequencer that follow (log 19). -/
def execEnc (final elem : Bool) (srcLen : Len) (srcBase : Addr) (dstCap : Len) (dstBase : Addr) (s : State) :
    Host.Outcome State Fault Refusal :=
  accept ⟨opEnc, final, elem, srcBase, srcLen, dstBase, dstCap⟩ startTransfer s

/-- `DEC` (R211, R226): Accept; the transfer itself is the steps of the sequencer that follow (log 19). -/
def execDec (final elem : Bool) (srcLen : Len) (srcBase : Addr) (dstCap : Len) (dstBase : Addr) (s : State) :
    Host.Outcome State Fault Refusal :=
  accept ⟨opDec, final, elem, srcBase, srcLen, dstBase, dstCap⟩ startTransfer s

/-- `ENCLEN` (R120). -/
def execEnclen (n : Len) (s : State) : Host.Outcome State Fault Refusal :=
  accept ⟨opEnclen, false, false, 0, n, 0, 0⟩ startEnclen s

/-- `DECLEN` (R123). -/
def execDeclen (elem : Bool) (srcLen : Len) (srcBase : Addr) (s : State) : Host.Outcome State Fault Refusal :=
  accept ⟨opDeclen, false, elem, srcBase, srcLen, 0, 0⟩ startDeclen s

end Sys2Proof.Machine
end

