-- ==== Sys2Proof/Machine/Vector.lean ====
section
/-! DEFINITION. The shared vector units (42_vector_units.md): shuffle_permute_unit (R160 to R162) and range_compare_unit
(R163 to R167), pure functions of their inputs and of the configuration. -/

namespace Sys2Proof.Machine

/-! ## shuffle_permute_unit -/

/-- `SPU.SHUF(V, C)` on `n` lanes, each half on its own with the same `C` (R161). -/
def shuffle (n : Nat) (v : List Byte) (ctls : Vector Byte 16) : List Byte :=
  lanesFrom n fun j =>
    let ctl := ctls[j % 16]'(Nat.mod_lt j (by decide))
    if ctl.getLsbD 7 then 0x00#8 else lane v (16 * (j / 16) + (ctl.extractLsb' 0 4).toNat)

/-- `SPU.SHUF` from the unit's inputs to its output (R161). -/
def spuShuf (s : State) : State :=
  { s with units := { s.units with spuOut := shuffle s.lanes s.units.spuV s.units.spuC } }

/-! ## range_compare_unit -/

/-- The first entry of an ordered list that holds and contains `x` gives `add8(x, OFF)`; none gives no hit (R164). -/
def firstHit (x : Byte) : List RangeEntry → Option Byte
  | [] => none
  | e :: rest => if entryHits e x then some (add8 x e.off) else firstHit x rest

/-- The lane function `rc(x, T)`: `some y` for `(hit = 1, y)`, `none` for `(hit = 0, 0x00)`, lowest entry first (R164). -/
def rangeCompare (x : Byte) (t : Vector RangeEntry 8) : Option Byte := firstHit x t.toList

/-- A lane of `RCU.ENC`: the symbol, or `0x00` with no hit (R165). -/
def encodeLane (c : Configuration) (x : Byte) : Byte :=
  match rangeCompare x c.rcEnc with
  | some y => y
  | none => 0x00#8

/-- A lane of `RCU.DEC`: the 6-bit value, or the sentinel with no hit (R166). -/
def decodeLane (c : Configuration) (x : Byte) : Byte :=
  match rangeCompare x c.rcDec with
  | some y => y
  | none => sentinel

/-- A lane of `RCU.DEC` without a hit, which sets `ANYBAD` (R166). -/
def badLane (c : Configuration) (x : Byte) : Bool := (rangeCompare x c.rcDec).isNone

/-- `RCU.ENC` from the unit's input to its output (R165). -/
def rcuEnc (s : State) : State :=
  { s with units := { s.units with
      rcuOut := lanesFrom s.lanes fun i => encodeLane s.config.regs (lane s.units.rcuV i) } }

/-- `RCU.DEC` from the unit's input to its output, and the flag `VD.ANYBAD` (R166). -/
def rcuDec (s : State) : State :=
  { s with units := { s.units with
      rcuOut := lanesFrom s.lanes fun i => decodeLane s.config.regs (lane s.units.rcuV i)
      vdAnybad := (List.range s.lanes).any fun i => badLane s.config.regs (lane s.units.rcuV i) } }

/-! ## Meanings -/

/-- `SPU.SHUF` (R161). -/
def execSpuShuf (s : State) : Host.Outcome State Fault Refusal := .next (spuShuf s)

/-- `RCU.ENC` (R165). -/
def execRcuEnc (s : State) : Host.Outcome State Fault Refusal := .next (rcuEnc s)

/-- `RCU.DEC` (R166). -/
def execRcuDec (s : State) : Host.Outcome State Fault Refusal := .next (rcuDec s)

end Sys2Proof.Machine
end

