-- ==== Sys2Proof/Machine/Engines.lean ====
section
/-! DEFINITION. The vector engines (43_vector_engines.md): base64_encode_vec_engine (R190 to R195) and
base64_decode_vec_engine (R196 to R203). The addresses `p` and `q` are `SRC_BASE + CONSUMED` and `DST_BASE + WRITTEN`. -/

namespace Sys2Proof.Machine

/-! ## base64_encode_vec_engine -/

/-- The halves `0 .. k-1` of a load: half `h` is 16 bytes at `p + 12h` (R191). -/
def loadHalves (s : State) (p : Nat) : Nat → Except Fault (List Byte)
  | 0 => .ok []
  | k + 1 => andThen (loadHalves s p k) fun front => andThen (memRead s (p + 12 * k) 16) fun half => .ok (front ++ half)

/-- The encode engine with its register set. -/
def setVe (v : List Byte) (s : State) : State := { s with units := { s.units with veV := v } }

/-- `VE.LOAD(p)` (R191). -/
def veLoad (s : State) : Except Fault State :=
  andThen (loadHalves s s.srcAddr (s.lanes / 16)) fun v => .ok (setVe v s)

/-- The shuffle step: `VE.V <- SPU.SHUF(VE.V, ENC_SHUF)` (R192). -/
def veShuffle (s : State) : State :=
  let t := spuShuf { s with units := { s.units with spuV := s.units.veV, spuC := s.config.regs.encShuf } }
  setVe t.units.spuOut t

/-- Byte lane `4g + k` of `VE.SPLIT6`: field `k` of word lane `g` (R193). -/
def splitLane (v : List Byte) (j : Nat) : Byte := (wordLane v (j / 4) >>> (18 - 6 * (j % 4))).setWidth 8 &&& 0x3F#8

/-- `VE.SPLIT6(VE.V)` into `VE.V` (R193, R195). -/
def veSplit6 (s : State) : State := setVe (lanesFrom s.lanes (splitLane s.units.veV)) s

/-- The translate step: `VE.V <- RCU.ENC(VE.V)` (R194). -/
def veTranslate (s : State) : State :=
  let t := rcuEnc { s with units := { s.units with rcuV := s.units.veV } }
  setVe t.units.rcuOut t

/-- `VE.STORE(q)`: all `L` lanes (R194). -/
def veStore (s : State) : Except Fault State := memWrite s s.dstAddr (lanesFrom s.lanes (lane s.units.veV))

/-- `VE.ITER(p, q)`: one whole encode iteration (R195). -/
def veIter (s : State) : Except Fault State :=
  andThen (veLoad s) fun t => veStore (veTranslate (veSplit6 (veShuffle t)))

/-! ## base64_decode_vec_engine -/

/-- The decode engine with its register set. -/
def setVd (v : List Byte) (s : State) : State := { s with units := { s.units with vdV := v } }

/-- `VD.LOAD(p)`: `L` symbols; the first shuffle is the identity (R197). -/
def vdLoad (s : State) : Except Fault State :=
  andThen (memRead s s.srcAddr s.lanes) fun v => .ok (setVd v s)

/-- The translate step: `(VD.V, VD.ANYBAD) <- RCU.DEC(VD.V)` (R198). -/
def vdTranslate (s : State) : State :=
  let t := rcuDec { s with units := { s.units with rcuV := s.units.vdV } }
  setVd t.units.rcuOut t

/-- The word `w` of the four 6-bit values of group `g` (R199). -/
def mergeWord (v : List Byte) (g : Nat) : WordLane :=
  ((lane v (4 * g)).setWidth 32 <<< 18) ||| ((lane v (4 * g + 1)).setWidth 32 <<< 12) |||
  ((lane v (4 * g + 2)).setWidth 32 <<< 6) ||| (lane v (4 * g + 3)).setWidth 32

/-- Byte lane `4g + k` of `VD.MERGE6`: byte `k` of `w`, and 0 for `k = 3` (R199). -/
def mergeLane (v : List Byte) (j : Nat) : Byte :=
  if j % 4 = 3 then 0x00#8 else (mergeWord v (j / 4)).extractLsb' (8 * (j % 4)) 8

/-- `VD.MERGE6(VD.V)` into `VD.V` (R199, R202). -/
def vdMerge6 (s : State) : State := setVd (lanesFrom s.lanes (mergeLane s.units.vdV)) s

/-- The shuffle step: `VD.V <- SPU.SHUF(VD.V, DEC_SHUF)` (R200). -/
def vdShuffle (s : State) : State :=
  let t := spuShuf { s with units := { s.units with spuV := s.units.vdV, spuC := s.config.regs.decShuf } }
  setVd t.units.spuOut t

/-- The halves `0 .. k-1` of a store: lanes `16h .. 16h+11` at `q + 12h` (R201). -/
def storeHalves (q : Nat) : Nat → State → Except Fault State
  | 0, s => .ok s
  | k + 1, s => andThen (storeHalves q k s) fun t =>
      memWrite t (q + 12 * k) (lanesFrom 12 fun i => lane t.units.vdV (16 * k + i))

/-- `VD.STORE(q)`: exactly `N` bytes (R201). -/
def vdStore (s : State) : Except Fault State := storeHalves s.dstAddr (s.lanes / 16) s

/-- `VD.ITER(p, q)`: one whole decode iteration; abandoned, storing nothing, when `VD.ANYBAD` is set, which is how the
sequencer tells the two ends apart (R202, R203). -/
def vdIter (s : State) : Except Fault State :=
  andThen (vdLoad s) fun t =>
    let u := vdTranslate t
    if u.units.vdAnybad then .ok u else vdStore (vdShuffle (vdMerge6 u))

/-! ## Meanings -/

/-- `VE.LOAD` (R191). -/
def execVeLoad (s : State) : Host.Outcome State Fault Refusal := outcome (veLoad s)

/-- `VE.SPLIT6` (R193). -/
def execVeSplit6 (s : State) : Host.Outcome State Fault Refusal := .next (veSplit6 s)

/-- `VE.STORE` (R194). -/
def execVeStore (s : State) : Host.Outcome State Fault Refusal := outcome (veStore s)

/-- `VE.ITER` (R195). -/
def execVeIter (s : State) : Host.Outcome State Fault Refusal := outcome (veIter s)

/-- `VD.LOAD` (R197). -/
def execVdLoad (s : State) : Host.Outcome State Fault Refusal := outcome (vdLoad s)

/-- `VD.MERGE6` (R199). -/
def execVdMerge6 (s : State) : Host.Outcome State Fault Refusal := .next (vdMerge6 s)

/-- `VD.STORE` (R201). -/
def execVdStore (s : State) : Host.Outcome State Fault Refusal := outcome (vdStore s)

/-- `VD.ITER` (R202). -/
def execVdIter (s : State) : Host.Outcome State Fault Refusal := outcome (vdIter s)

end Sys2Proof.Machine
end

