-- ==== Sys2Proof/Machine/Scalar.lean ====
section
/-! DEFINITION. The scalar core (41_scalar_core.md): base64_scalar_encoder (R140 to R143) and base64_scalar_decoder (R144
to R147), each a function of its inputs and of the configuration; the sequencer feeds the inputs and takes the outputs. -/

namespace Sys2Proof.Machine

/-! ## base64_scalar_encoder -/

/-- `(b0 << 16) | (b1 << 8) | b2` (R141). -/
def rawWord (b0 b1 b2 : Byte) : GroupWord := b0 ++ b1 ++ b2

/-- The 6-bit field of the group word at bit `lo`: `SE.W[lo+5:lo]` (R141). -/
def sixBits (w : GroupWord) (lo : Nat) : BitVec 6 := w.extractLsb' lo 6

/-- The four symbols of a raw group (R141). -/
def encodeGroup (c : Configuration) (b0 b1 b2 : Byte) : Vector Byte 4 :=
  let w := rawWord b0 b1 b2
  #v[symbolOf c (sixBits w 18), symbolOf c (sixBits w 12), symbolOf c (sixBits w 6), symbolOf c (sixBits w 0)]

/-- The final short group of two raw bytes: three symbols and one `PAD` (R142). -/
def encodeTail2 (c : Configuration) (b0 b1 : Byte) : Vector Byte 4 :=
  let w := rawWord b0 b1 0
  #v[symbolOf c (sixBits w 18), symbolOf c (sixBits w 12), symbolOf c (sixBits w 6), c.pad]

/-- The final short group of one raw byte: two symbols and two `PAD` (R143). -/
def encodeTail1 (c : Configuration) (b0 : Byte) : Vector Byte 4 :=
  let w := rawWord b0 0 0
  #v[symbolOf c (sixBits w 18), symbolOf c (sixBits w 12), c.pad, c.pad]

/-- The encoder with its word and outputs set. -/
def setEncoder (w : GroupWord) (out : Vector Byte 4) (s : State) : State :=
  { s with units := { s.units with seW := w, seOut := out } }

/-- `SE.GROUP` (R141). -/
def seGroup (s : State) : State :=
  setEncoder (rawWord s.units.seIn[0] s.units.seIn[1] s.units.seIn[2])
    (encodeGroup s.config.regs s.units.seIn[0] s.units.seIn[1] s.units.seIn[2]) s

/-- `SE.TAIL2` (R142). -/
def seTail2 (s : State) : State :=
  setEncoder (rawWord s.units.seIn[0] s.units.seIn[1] 0) (encodeTail2 s.config.regs s.units.seIn[0] s.units.seIn[1]) s

/-- `SE.TAIL1` (R143). -/
def seTail1 (s : State) : State :=
  setEncoder (rawWord s.units.seIn[0] 0 0) (encodeTail1 s.config.regs s.units.seIn[0]) s

/-! ## base64_scalar_decoder -/

/-- `(v0 << 18) | (v1 << 12) | (v2 << 6) | v3`, 24 bits (R145). -/
def valueWord (v0 v1 v2 v3 : Byte) : GroupWord :=
  (v0.setWidth 24 <<< 18) ||| (v1.setWidth 24 <<< 12) ||| (v2.setWidth 24 <<< 6) ||| v3.setWidth 24

/-- Byte 0 of the group word, bits `[23:16]` (R145). -/
def wordByte0 (w : GroupWord) : Byte := w.extractLsb' 16 8

/-- Byte 1 of the group word, bits `[15:8]` (R145). -/
def wordByte1 (w : GroupWord) : Byte := w.extractLsb' 8 8

/-- Byte 2 of the group word, bits `[7:0]` (R145). -/
def wordByte2 (w : GroupWord) : Byte := w.extractLsb' 0 8

/-- `SD.GROUP` as a function: the group word and the three raw bytes, or nothing for `ok = 0` (R145). -/
def decodeGroup (c : Configuration) (c0 c1 c2 c3 : Byte) : Option (GroupWord × List Byte) :=
  if valueOf c c0 = sentinel ∨ valueOf c c1 = sentinel ∨ valueOf c c2 = sentinel ∨ valueOf c c3 = sentinel then none
  else
    let w := valueWord (valueOf c c0) (valueOf c c1) (valueOf c c2) (valueOf c c3)
    some (w, [wordByte0 w, wordByte1 w, wordByte2 w])

/-- `SD.FINAL` as a function: no padding, one `=` or two `=`, tried in that order (R146). The dropped low bits are not
checked (R147). -/
def decodeFinal (c : Configuration) (c0 c1 c2 c3 : Byte) : Option (GroupWord × List Byte) :=
  if c3 ≠ c.pad then decodeGroup c c0 c1 c2 c3
  else if c2 ≠ c.pad then
    if valueOf c c0 = sentinel ∨ valueOf c c1 = sentinel ∨ valueOf c c2 = sentinel then none
    else
      let w := valueWord (valueOf c c0) (valueOf c c1) (valueOf c c2) 0
      some (w, [wordByte0 w, wordByte1 w])
  else
    if valueOf c c0 = sentinel ∨ valueOf c c1 = sentinel then none
    else
      let w := valueWord (valueOf c c0) (valueOf c c1) 0 0
      some (w, [wordByte0 w])

/-- The decoder with its outputs set. With `ok = 0` "the other outputs have no meaning" (R144): they are free values
(log 16); `SD.W` is not written. -/
def setDecoder (r : Option (GroupWord × List Byte)) (s : State) : State :=
  match r with
  | some (w, bytes) =>
    { s with units := { s.units with sdW := w, sdOk := true, sdK := BitVec.ofNat 2 bytes.length, sdOut := bytes } }
  | none =>
    { s with
      units := { s.units with sdOk := false, sdK := Config.unspecified 2 s.tick 270, sdOut := freeBytes s.tick 271 3 }
      tick := s.tick + 1 }

/-- `SD.GROUP` (R145). -/
def sdGroup (s : State) : State :=
  setDecoder (decodeGroup s.config.regs s.units.sdIn[0] s.units.sdIn[1] s.units.sdIn[2] s.units.sdIn[3]) s

/-- `SD.FINAL` (R146). -/
def sdFinal (s : State) : State :=
  setDecoder (decodeFinal s.config.regs s.units.sdIn[0] s.units.sdIn[1] s.units.sdIn[2] s.units.sdIn[3]) s

/-! ## Meanings -/

/-- `SE.GROUP` (R141). -/
def execSeGroup (s : State) : Host.Outcome State Fault Refusal := .next (seGroup s)

/-- `SE.TAIL2` (R142). -/
def execSeTail2 (s : State) : Host.Outcome State Fault Refusal := .next (seTail2 s)

/-- `SE.TAIL1` (R143). -/
def execSeTail1 (s : State) : Host.Outcome State Fault Refusal := .next (seTail1 s)

/-- `SD.GROUP` (R145). -/
def execSdGroup (s : State) : Host.Outcome State Fault Refusal := .next (sdGroup s)

/-- `SD.FINAL` (R146). -/
def execSdFinal (s : State) : Host.Outcome State Fault Refusal := .next (sdFinal s)

end Sys2Proof.Machine
end

