-- ==== Sys2Proof/Machine/Sequencer.lean ====
section
/-! DEFINITION. The sequencer's steps after Accept (44_chunk_driver.md R212 to R222), one definition per step, each
atomic (R210), the reset event (70_reset_and_hazards.md R280, R282), and the micro-operation each step issues
(30_encoding.md R101). -/

namespace Sys2Proof.Machine

/-- The cursors moved (R32). -/
def advance (read wrote : Nat) (s : State) : State :=
  { s with consumed := s.consumed + BitVec.ofNat 32 read, written := s.written + BitVec.ofNat 32 wrote }

/-- A write of a group's or iteration's bytes has been made: on to the next, from the bulk loop to the tail when no
further iteration may be started (R215, R219). -/
def leaveBulkUnlessOk (s : State) : State := if bulkOk s then s else { s with phase := .tailTransform }

/-- Step Scan (R212). -/
def scan (s : State) : State :=
  if s.config.regs.cap ≠ 0#2 ∧ bulkOk s then { s with phase := .bulkTransform } else { s with phase := .tailTransform }

/-- Step EncBulk (R215). -/
def encBulk (s : State) : Except Fault State :=
  andThen (veIter s) fun t => .ok (release (leaveBulkUnlessOk (advance s.window s.lanes t)))

/-- Step DecBulk (R219). -/
def decBulk (s : State) : Except Fault State :=
  andThen (vdIter s) fun t =>
    .ok (release (if t.units.vdAnybad then { t with phase := .tailTransform }
      else leaveBulkUnlessOk (advance s.lanes s.window t)))

/-- The scalar encoder's inputs from the bytes read; an input that was not read keeps what it held. -/
def feedEncoder (bytes : List Byte) (s : State) : State :=
  { s with units := { s.units with seIn := #v[bytes.getD 0 s.units.seIn[0], bytes.getD 1 s.units.seIn[1],
      bytes.getD 2 s.units.seIn[2]] } }

/-- The scalar decoder's inputs from the four bytes read. -/
def feedDecoder (bytes : List Byte) (s : State) : State :=
  { s with units := { s.units with sdIn := #v[bytes.getD 0 0#8, bytes.getD 1 0#8, bytes.getD 2 0#8, bytes.getD 3 0#8] } }

/-- A scalar group of the encoder: `n` bytes read, the unit run, its four symbols written, both cursors advanced (R216,
R217). -/
def encodeStep (n : Nat) (unit : State → State) (s : State) : Except Fault State :=
  andThen (memRead s s.srcAddr n) fun bytes =>
    let t := unit (feedEncoder bytes s)
    andThen (memWrite t t.dstAddr t.units.seOut.toList) fun u => .ok (advance n 4 u)

/-- Step EncGroup (R216). -/
def encGroup (s : State) : Except Fault State :=
  if s.room < 4 then .ok (release (finish .destinationTooSmall s))
  else andThen (encodeStep 3 seGroup s) fun t => .ok (release t)

/-- Step EncTrail (R217). -/
def encTrail (s : State) : Except Fault State :=
  if s.remaining = 0 then .ok (release (finish .done s))
  else if s.latch.final = false then .ok (release (finish .needMoreData s))
  else if s.room < 4 then .ok (release (finish .destinationTooSmall s))
  else if s.remaining = 2 then andThen (encodeStep 2 seTail2 s) fun t => .ok (release (finish .done t))
  else andThen (encodeStep 1 seTail1 s) fun t => .ok (release (finish .done t))

/-- Step DecGroup (R220). -/
def decGroup (s : State) : Except Fault State :=
  andThen (memRead s s.srcAddr 4) fun symbols =>
    let t := if isLastGroup s then sdFinal (feedDecoder symbols s) else sdGroup (feedDecoder symbols s)
    if t.units.sdOk = false then .ok (release (finish .invalidData t))
    else if t.room < t.units.sdK.toNat then .ok (release (finish .destinationTooSmall t))
    else andThen (memWrite t t.dstAddr t.units.sdOut) fun u => .ok (release (advance 4 t.units.sdK.toNat u))

/-- Step DecTrail (R221). -/
def decTrail (s : State) : Except Fault State :=
  if s.remaining = 0 then .ok (release (finish .done s))
  else if s.latch.final = false then .ok (release (finish .needMoreData s))
  else .ok (release (finish .invalidData s))

/-- The step enabled in `BulkTransform` (R215, R219). -/
def bulkStep (s : State) : Except Fault State :=
  if s.latch.op = opEnc then encBulk s
  else if s.latch.op = opDec then decBulk s
  else .error .noEnabledStep

/-- The step enabled in `TailTransform` (R216, R217, R220, R221). -/
def tailStep (s : State) : Except Fault State :=
  if s.latch.op = opEnc then (if 3 ≤ s.remaining then encGroup s else encTrail s)
  else if s.latch.op = opDec then (if 4 ≤ s.remaining then decGroup s else decTrail s)
  else .error .noEnabledStep

/-- Step Deliver, or waiting for the host to take the response (R222; log 11). -/
def doneStep (s : State) : State := if s.hostTakes then deliver s else s

/-! ## Reset while a command is in flight -/

/-- The command in flight carried on by its own steps, at most `fuel` of them. -/
def carryOn : (fuel : Nat) → State → State
  | 0, s => s
  | fuel + 1, s =>
    match s.phase with
    | .scanning => carryOn fuel (scan s)
    | .bulkTransform =>
      match bulkStep s with
      | .ok t => carryOn fuel t
      | .error _ => s
    | .tailTransform =>
      match tailStep s with
      | .ok t => carryOn fuel t
      | .error _ => s
    | .idle | .done => s

/-- The destination bytes the command in flight would still write. Each step but Scan, the last one and an abandoned
iteration consumes three bytes at least, so the fuel is enough (R232). -/
def restOfOutput (s : State) : List Byte :=
  let e := carryOn (s.remaining / 3 + 3) s
  e.mem.readBytes s.dstAddr (e.written.toNat - s.written.toNat)

/-- The memory a reset in mid-command leaves: the destination region holds "an unspecified prefix of what the command
would have written, group boundaries not guaranteed". The length of what is written beyond `WRITTEN` is a free value
(R282, U10; log 24). -/
def abandon (s : State) : State :=
  match memWrite s s.dstAddr ((restOfOutput s).take (Config.unspecified 32 s.tick 268).toNat) with
  | .ok t => t
  | .error _ => s

/-- The reset event (R280): between commands memory is not touched; in mid-command the command is abandoned and no
response is delivered (R282). -/
def resetEvent (c : WfConfiguration) (s : State) : State :=
  if s.phase = .idle then resetBlock c s else resetBlock c (abandon { s with resetIn := none })

/-! ## The micro-operations a step issues -/

/-- The micro-operation Accept issues for a command it takes: a length command that passes its checks runs the length
calculator (R120, R123, R211). -/
def acceptMicroOp (s : State) : Instr → Option Instr
  | .enclen n => if firstFailingCheck ⟨opEnclen, false, false, 0, n, 0, 0⟩ = none then some .lcEnclen else none
  | .declen elem srcLen srcBase =>
    let l : Latch := ⟨opDeclen, false, elem, srcBase, srcLen, 0, 0⟩
    if firstFailingCheck l = none ∧ regionsAreMemory (latchCommand l s) then some .lcDeclen else none
  | .enc .. | .dec .. | .seGroup | .seTail2 | .seTail1 | .sdGroup | .sdFinal | .spuShuf | .rcuEnc | .rcuDec | .veLoad
  | .veSplit6 | .veStore | .veIter | .vdLoad | .vdMerge6 | .vdStore | .vdIter | .lcEnclen | .lcDeclen => none

/-- The micro-operation the next step of the sequencer issues to a unit, if it issues one: what a trace of a command
writes down (R101; 95_test_vectors.md section 4). -/
def nextMicroOp (s : State) : Option Instr :=
  match s.phase with
  | .idle =>
    match s.offers with
    | [] => none
    | d :: _ =>
      match decode (.cmd d) with
      | .ok i => acceptMicroOp s i
      | .error _ => none
  | .bulkTransform =>
    if s.latch.op = opEnc then some .veIter else if s.latch.op = opDec then some .vdIter else none
  | .tailTransform =>
    if s.latch.op = opEnc then
      if s.room < 4 then none
      else if 3 ≤ s.remaining then some .seGroup
      else if s.latch.final = false then none
      else if s.remaining = 2 then some .seTail2
      else if s.remaining = 1 then some .seTail1
      else none
    else if s.latch.op = opDec then
      if 4 ≤ s.remaining then (if isLastGroup s then some .sdFinal else some .sdGroup) else none
    else none
  | .scanning | .done => none

/-- Whether the decode iteration that starts in this state is abandoned (R202, R203). -/
def iterationAbandoned (s : State) : Bool :=
  match vdIter s with
  | .ok t => t.units.vdAnybad
  | .error _ => false

/-- The micro-operations a micro-operation is made of in this state, in order: a whole iteration issues its parts (R195,
R202), an abandoned decode iteration the load and the translation only (R203; 95_test_vectors.md section 4); any other
stands for itself. -/
def microOpParts (s : State) : Instr → List Instr
  | .veIter => [.veLoad, .spuShuf, .veSplit6, .rcuEnc, .veStore]
  | .vdIter => if iterationAbandoned s then [.vdLoad, .rcuDec] else [.vdLoad, .rcuDec, .vdMerge6, .spuShuf, .vdStore]
  | i => [i]

end Sys2Proof.Machine
end

