-- ==== Sys2Proof/Machine/Dispatch.lean ====
section
/-! DEFINITION. One arm per instruction: a direct call of its meaning. -/

namespace Sys2Proof.Machine

/-- The meaning of an instruction. -/
def exec (i : Instr) (s : State) : Host.Outcome State Fault Refusal :=
  match i with
  -- the commands
  | .enc final elem srcLen srcBase dstCap dstBase => Sys2Proof.Machine.execEnc final elem srcLen srcBase dstCap dstBase s
  | .dec final elem srcLen srcBase dstCap dstBase => Sys2Proof.Machine.execDec final elem srcLen srcBase dstCap dstBase s
  | .enclen n => Sys2Proof.Machine.execEnclen n s
  | .declen elem srcLen srcBase => Sys2Proof.Machine.execDeclen elem srcLen srcBase s
  -- the scalar core
  | .seGroup => Sys2Proof.Machine.execSeGroup s
  | .seTail2 => Sys2Proof.Machine.execSeTail2 s
  | .seTail1 => Sys2Proof.Machine.execSeTail1 s
  | .sdGroup => Sys2Proof.Machine.execSdGroup s
  | .sdFinal => Sys2Proof.Machine.execSdFinal s
  -- the shared vector units
  | .spuShuf => Sys2Proof.Machine.execSpuShuf s
  | .rcuEnc => Sys2Proof.Machine.execRcuEnc s
  | .rcuDec => Sys2Proof.Machine.execRcuDec s
  -- the vector engines
  | .veLoad => Sys2Proof.Machine.execVeLoad s
  | .veSplit6 => Sys2Proof.Machine.execVeSplit6 s
  | .veStore => Sys2Proof.Machine.execVeStore s
  | .veIter => Sys2Proof.Machine.execVeIter s
  | .vdLoad => Sys2Proof.Machine.execVdLoad s
  | .vdMerge6 => Sys2Proof.Machine.execVdMerge6 s
  | .vdStore => Sys2Proof.Machine.execVdStore s
  | .vdIter => Sys2Proof.Machine.execVdIter s
  -- the length calculator
  | .lcEnclen => Sys2Proof.Machine.execLcEnclen s
  | .lcDeclen => Sys2Proof.Machine.execLcDeclen s

end Sys2Proof.Machine
end

