-- ==== Sys2Proof/Machine/Fetch.lean ====
section
/-! DEFINITION. Where the next instruction comes from: the host's offer, the select lines, the phase; how one is placed there
for the next step (log 20), and the trace of what the sequencer issues to the units (30_encoding.md R101). -/

namespace Sys2Proof.Machine

/-- The code on the select lines runs as one micro-operation and is off them afterwards (R101; log 13). -/
def uopStep (c : UopCode) (s : State) : Host.Outcome State Fault Refusal :=
  match decode (.uop c) with
  | .ok i => exec i { s with uopSel := none }
  | .error _ => .refused .unassignedMicroOp

/-- Step Accept, when a descriptor is on offer; else the block stays `Idle` (R211; U16). -/
def idleStep (s : State) : Host.Outcome State Fault Refusal :=
  match s.offers with
  | [] => .next s
  | d :: rest =>
    match decode (.cmd d) with
    | .ok i => exec i { s with offers := rest }
    | .error _ => .next (acceptIllegal d { s with offers := rest })

/-- The step of R210 that `PHASE` enables. -/
def sequencerStep (s : State) : Host.Outcome State Fault Refusal :=
  match s.phase with
  | .idle => idleStep s
  | .scanning => .next (scan s)
  | .bulkTransform => outcome (bulkStep s)
  | .tailTransform => outcome (tailStep s)
  | .done => .next (doneStep s)

/-- The micro-operations the sequencer issues in its next `k` steps, each with the parts it is made of: a trace of a
command as data (R101; 95_test_vectors.md section 4). It ends where a step does. -/
def microOpTrace : (k : Nat) → State → List (Instr × List Instr)
  | 0, _ => []
  | k + 1, s =>
    let issued := ((nextMicroOp s).map fun i => (i, microOpParts s i)).toList
    match sequencerStep s with
    | .next t => issued ++ microOpTrace k t
    | .fault _ => issued
    | .refused _ => issued

/-- The latch of a command in flight that a micro-operation can serve: 32 source bytes at 0, 32 destination bytes at 32.
`State.withFetchWord` uses it when no command is in flight (log 13, 20). -/
def servingLatch (op : BitVec 4) : Latch := ⟨op, true, false, 0#64, 32#32, 32#64, 32#32⟩

/-- The command a micro-operation belongs to (R101). -/
def servingOp : Instr → BitVec 4
  | .enc .. | .seGroup | .seTail2 | .seTail1 | .rcuEnc | .veLoad | .veSplit6 | .veStore | .veIter | .spuShuf => opEnc
  | .dec .. | .sdGroup | .sdFinal | .rcuDec | .vdLoad | .vdMerge6 | .vdStore | .vdIter => opDec
  | .enclen _ | .lcEnclen => opEnclen
  | .declen .. | .lcDeclen => opDeclen

/-- A word placed where the next step fetches: a descriptor first among the host's offers, with the block `Idle`; a select
code on the select lines, and when no command is in flight whose micro-operation it could be, such a command in the latch
(log 20). -/
def placeWord (s : State) : MachineWord → State
  | .cmd d => { s with resetIn := none, uopSel := none, phase := .idle, offers := d :: s.offers }
  | .uop c =>
    match s.phase, decodeUop c with
    | .idle, .ok i =>
      { s with resetIn := none, uopSel := some c, latch := servingLatch (servingOp i), consumed := 0, written := 0 }
    | _, _ => { s with resetIn := none, uopSel := some c }

end Sys2Proof.Machine
end

