-- ==== Sys2Proof/Machine/Step.lean ====
section
/-! DEFINITION. One step of the machine: a reset (70_reset_and_hazards.md R280), or one micro-operation by itself (log 13), or
a step of the sequencer (44_chunk_driver.md R210). -/

namespace Sys2Proof.Machine

/-- One step of the machine. -/
def step (s : State) : Host.Outcome State Fault Refusal :=
  match s.resetIn with
  | some c => .next (resetEvent c s)
  | none =>
    match s.uopSel with
    | some c => uopStep c s
    | none => sequencerStep s

/-- The state whose very next step fetches and runs the instruction with the bits `w` (log 20). A word that is none
changes nothing. -/
def State.withFetchWord (s : State) (nbits w : Nat) : State :=
  match tableWord nbits w with
  | none => s
  | some word => placeWord s word

end Sys2Proof.Machine
end

