-- ==== Sys2Proof/Safety.lean ====
section
/-! DEFINITION. What claims are stated in: a quiet state, regions, the commands as functions of their inputs
(44_chunk_driver.md R225, R226; 40_length_calculator.md R124), and the invariant of a run (10_state.md R31). -/

namespace Sys2Proof.Machine

/-! ## The ground a step stands on -/

/-- No reset is asked for and no select code is driven from outside: the step is the sequencer's. -/
abbrev State.Quiet (s : State) : Prop := s.resetIn = none ∧ s.uopSel = none

/-- An address of the region `[base, base + len)` (R60). -/
abbrev InRegion (base : Addr) (len : Len) (a : Nat) : Prop := base.toNat ≤ a ∧ a < base.toNat + len.toNat

/-- No byte is in both regions (R71). -/
def RegionsDisjoint (srcBase : Addr) (srcLen : Len) (dstBase : Addr) (dstCap : Len) : Prop :=
  ∀ a, ¬(InRegion srcBase srcLen a ∧ InRegion dstBase dstCap a)

/-- The next `n` source bytes are inside the source region and readable memory (R63, R70). -/
abbrev State.SourceHolds (s : State) (n : Nat) : Prop :=
  insideSource s.latch s.srcAddr n = true ∧ readableMem s.memMap s.srcAddr n = true

/-- The next `n` destination bytes are inside the destination region and writable memory (R64, R70). -/
abbrev State.DestinationHolds (s : State) (n : Nat) : Prop :=
  insideDestination s.latch s.dstAddr n = true ∧ writableMem s.memMap s.dstAddr n = true

/-- Source byte `i` from the cursor on. -/
abbrev State.nextByte (s : State) (i : Nat) : Byte := s.mem.read (s.srcAddr + i)

/-- The preconditions of an `ENC` or `DEC` (R97 checks 2 and 3, R70, R71). -/
structure Admitted (s : State) (srcLen : Len) (srcBase : Addr) (dstCap : Len) (dstBase : Addr) : Prop where
  source : RegionInRange srcBase srcLen
  destination : RegionInRange dstBase dstCap
  disjoint : RegionsDisjoint srcBase srcLen dstBase dstCap
  readable : readableMem s.memMap srcBase.toNat srcLen.toNat = true
  writable : writableMem s.memMap dstBase.toNat dstCap.toNat = true

/-- `k` steps of the machine. -/
abbrev runSteps (k : Nat) (s : State) : Host.Outcome State Fault Refusal := Host.Core.run Sys2Proof.core k s

/-! ## The commands as functions -/

/-- The symbols of a byte sequence: whole groups, then the short group with its padding (R225). -/
def encodeList (c : Configuration) : List Byte → List Byte
  | b0 :: b1 :: b2 :: rest => (encodeGroup c b0 b1 b2).toList ++ encodeList c rest
  | [b0, b1] => (encodeTail2 c b0 b1).toList
  | [b0] => (encodeTail1 c b0).toList
  | [] => []

/-- `status, consumed, written` of an `ENC` with `n = SRC_LEN`, `cap = DST_CAP` (R225). -/
def encodeResult (n cap : Nat) (final : Bool) : Status × Nat × Nat :=
  if cap / 4 < n / 3 then (.destinationTooSmall, 3 * (cap / 4), 4 * (cap / 4))
  else if n % 3 = 0 then (.done, n, 4 * (n / 3))
  else if final = false then (.needMoreData, 3 * (n / 3), 4 * (n / 3))
  else if n / 3 + 1 ≤ cap / 4 then (.done, n, 4 * (n / 3 + 1))
  else (.destinationTooSmall, 3 * (n / 3), 4 * (n / 3))

/-- `status, consumed` and the raw bytes written by a `DEC` with `cap` free bytes on the symbols of a list: the loop of
R226. -/
def decodeResult (c : Configuration) (final : Bool) : (cap : Nat) → List Byte → Status × Nat × List Byte
  | cap, c0 :: c1 :: c2 :: c3 :: rest =>
    match (if final && rest.isEmpty then decodeFinal c c0 c1 c2 c3 else decodeGroup c c0 c1 c2 c3) with
    | none => (.invalidData, 0, [])
    | some (_, bytes) =>
      if cap < bytes.length then (.destinationTooSmall, 0, [])
      else
        let r := decodeResult c final (cap - bytes.length) rest
        (r.1, r.2.1 + 4, bytes ++ r.2.2)
  | _, [] => (.done, 0, [])
  | _, _ :: _ => (if final then .invalidData else .needMoreData, 0, [])

/-- `paddingCount`: "the length of the run of `=` at the very end, cut at 2" (R124). -/
def paddingCount (pad : Byte) (symbols : List Byte) : Nat :=
  min 2 (symbols.reverse.takeWhile fun x => x == pad).length

/-- What a byte of memory holds when `bytes` have been stored from `base` on into the memory of `s`. -/
def storedByte (s : State) (base : Nat) (bytes : List Byte) (a : Nat) : Byte :=
  if base ≤ a ∧ a < base + bytes.length then bytes.getD (a - base) 0#8 else s.mem.read a

/-- Memory `m` is that of `s` with `bytes` stored from `base` on, in its canonical form: every other byte as before. -/
def StoredAt (s : State) (m : Memory) (base : Nat) (bytes : List Byte) : Prop :=
  m.wf = true ∧ ∀ a, m.read a = storedByte s base bytes a

/-- The destination bytes that a step makes of the next `n` source bytes: the symbols of an `ENC`, the raw bytes of a
`DEC`, whose last group is that of a final block when nothing is left behind it (R225, R226). -/
def State.outputOf (s : State) (n : Nat) : List Byte :=
  let source := s.mem.readBytes s.srcAddr n
  if s.latch.op = 1#4 then encodeList s.config.regs source
  else (decodeResult s.config.regs (s.latch.final && s.remaining == n) s.room source).2.2

/-- The outcome with its next state, if it is one, changed by `f`. -/
def mapNext (f : State → State) : Host.Outcome State Fault Refusal → Host.Outcome State Fault Refusal
  | .next s => .next (f s)
  | .fault r => .fault r
  | .refused r => .refused r

/-! ## The states a step leaves -/

/-- Accept's state: the latch `l`, both cursors 0, `STATUS` 0, and the fault code, the value and the phase given (R211,
R254). -/
def afterAccept (l : Latch) (fault : BitVec 4) (value : BitVec 32) (phase : Phase) (s : State) : State :=
  { s with
    latch := l, consumed := 0#32, written := 0#32, status := .done, fault := fault, value := value, phase := phase }

/-- The state of a command ended with a status, both cursors left as they are (R214); `u` and `n` are what the working
registers and the counter of free values hold afterwards, of which nothing is known (R36). -/
def ended (st : Status) (u : Units) (n : Nat) (s : State) : State :=
  { s with units := u, tick := n, status := st, fault := 0#4, value := 0#32, phase := .done }

/-- The state with these raw bytes at the scalar encoder's inputs (R140). -/
def State.withRaw (s : State) (b0 b1 b2 : Byte) : State := { s with units := { s.units with seIn := #v[b0, b1, b2] } }

/-- The state with these symbols at the scalar decoder's inputs (R144). -/
def State.withSymbols (s : State) (c0 c1 c2 c3 : Byte) : State :=
  { s with units := { s.units with sdIn := #v[c0, c1, c2, c3] } }

/-- Two configurations that differ in `CAP` at most (R228). -/
def SameButCap (c1 c2 : Configuration) : Prop := c2 = { c1 with cap := c2.cap }

/-- What the host sees of a finished command: status, fault, counts and value (R94). -/
def SameResponse (s t : State) : Prop :=
  s.status = t.status ∧ s.fault = t.fault ∧ s.consumed = t.consumed ∧ s.written = t.written ∧ s.value = t.value

/-! ## Descriptors -/

/-- The illegal encodings, as R98 lists them. -/
def IllegalDescriptor (d : Descriptor) : Prop :=
  (d.extractLsb' 0 4 = 0#4 ∨ 5 ≤ (d.extractLsb' 0 4).toNat) ∨
  d.extractLsb' 6 26 ≠ 0#26 ∨ d.extractLsb' 128 32 ≠ 0#32 ∨
  ((d.extractLsb' 0 4 = 3#4 ∨ d.extractLsb' 0 4 = 4#4) ∧
    (d.getLsbD 4 = true ∨ d.extractLsb' 160 32 ≠ 0#32 ∨ d.extractLsb' 192 64 ≠ 0#64)) ∨
  (d.extractLsb' 0 4 = 3#4 ∧ (d.getLsbD 5 = true ∨ d.extractLsb' 64 64 ≠ 0#64))

/-! ## The phases -/

/-- The transitions of R30 that change the phase. -/
def phaseMayChange : Phase → Phase → Bool
  | .idle, .scanning => true
  | .scanning, .bulkTransform => true
  | .scanning, .tailTransform => true
  | .bulkTransform, .tailTransform => true
  | .tailTransform, .done => true
  | .idle, .done => true
  | .done, .idle => true
  | _, _ => false

/-- The transitions of R30 that keep the phase. -/
def phaseMayStay : Phase → Bool
  | .bulkTransform => true
  | .tailTransform => true
  | .idle | .scanning | .done => false

/-! ## The invariant of a run -/

/-- What holds while an `ENC` or `DEC` is in flight (R31, R213, R218; R70 to R72 for its regions). -/
structure TransferInv (s : State) : Prop where
  transfer : s.latch.op = opEnc ∨ s.latch.op = opDec
  admitted : Admitted s s.latch.srcLen s.latch.srcBase s.latch.dstCap s.latch.dstBase
  consumedBound : s.consumed.toNat ≤ s.latch.srcLen.toNat
  writtenBound : s.written.toNat ≤ s.latch.dstCap.toNat
  encCursors : s.latch.op = opEnc → s.consumed.toNat % 3 = 0 ∧ s.written.toNat = 4 * (s.consumed.toNat / 3)
  decCursors : s.latch.op = opDec → s.consumed.toNat % 4 = 0 ∧ s.written.toNat ≤ 3 * (s.consumed.toNat / 4) ∧
    (s.consumed.toNat < s.latch.srcLen.toNat → s.written.toNat = 3 * (s.consumed.toNat / 4))
  scanStart : s.phase = .scanning → s.consumed = 0#32 ∧ s.written = 0#32
  bulkReady : s.phase = .bulkTransform → s.config.regs.cap ≠ 0#2 ∧ bulkOk s = true

/-- What holds when a command has ended and its response is not yet delivered (R31, R94, R251, R254). -/
structure ResultInv (s : State) : Prop where
  faultKnown : s.fault.toNat ≤ 3
  faultClean : s.fault ≠ 0#4 → s.status = .done ∧ s.consumed = 0#32 ∧ s.written = 0#32 ∧ s.value = 0#32
  consumedBound : s.consumed.toNat ≤ s.latch.srcLen.toNat
  writtenBound : s.written.toNat ≤ s.latch.dstCap.toNat
  encCursors : s.latch.op = opEnc → s.written.toNat = 4 * ((s.consumed.toNat + 2) / 3)
  decCursors : s.latch.op = opDec → s.consumed.toNat % 4 = 0 ∧ s.written.toNat ≤ 3 * (s.consumed.toNat / 4)
  transferValue : s.latch.op = opEnc ∨ s.latch.op = opDec → s.value = 0#32
  doneConsumesAll : s.latch.op = opEnc ∨ s.latch.op = opDec → s.fault = 0#4 → s.status = .done →
    s.consumed = s.latch.srcLen

/-- The invariant every step keeps: nothing drives the select lines from outside ("the host cannot issue them", R101),
the memory has its canonical form, and the registers are as the phase says. -/
structure State.Inv (s : State) : Prop where
  selectQuiet : s.uopSel = none
  memory : s.mem.wf = true
  inFlight : s.phase = .scanning ∨ s.phase = .bulkTransform ∨ s.phase = .tailTransform → TransferInv s
  ended : s.phase = .done → ResultInv s

end Sys2Proof.Machine
end

