-- ==== Sys2Proof/Certificates/Slice0/Obligations.lean ====
section
/-! DEFINITION. The statements for the provers, by the spec's own order: reset and configuration, encodings, the step,
the commands at Accept, the units, the sequencer's steps, the whole machine. A docstring names the rules a statement
formalises; "log n" marks a part that is the model's choice. -/

section
open Sys2Proof Sys2Proof.Machine

/-! ## Reset and the configuration -/

/-- R38, with the values of R22, R23, R24, R25 and R27: after reset `PHASE` is `Idle` and the configuration's tables are
the standard ones. (That reset supplies the default tables and not others is the model's choice, log 4.) -/
def Obligations.ResetIsIdleWithStandardTables : Prop :=
  State.reset.phase = .idle ∧
  (∀ i : BitVec 6, (symbolOf State.reset.config.regs i).toNat =
    if i.toNat < 26 then 0x41 + i.toNat
    else if i.toNat < 52 then 0x61 + (i.toNat - 26)
    else if i.toNat < 62 then 0x30 + (i.toNat - 52)
    else if i.toNat = 62 then 0x2B
    else 0x2F) ∧
  (∀ x : Byte, (valueOf State.reset.config.regs x).toNat =
    if 0x41 ≤ x.toNat ∧ x.toNat < 0x41 + 26 then x.toNat - 0x41
    else if 0x61 ≤ x.toNat ∧ x.toNat < 0x61 + 26 then 26 + (x.toNat - 0x61)
    else if 0x30 ≤ x.toNat ∧ x.toNat < 0x30 + 10 then 52 + (x.toNat - 0x30)
    else if x.toNat = 0x2B then 62
    else if x.toNat = 0x2F then 63
    else 0xFF) ∧
  State.reset.config.regs.pad = 0x3D#8 ∧
  State.reset.config.regs.encShuf = #v[0x02#8, 0x01#8, 0x00#8, 0x80#8, 0x05#8, 0x04#8, 0x03#8, 0x80#8, 0x08#8, 0x07#8,
    0x06#8, 0x80#8, 0x0B#8, 0x0A#8, 0x09#8, 0x80#8] ∧
  State.reset.config.regs.decShuf = #v[0x02#8, 0x01#8, 0x00#8, 0x06#8, 0x05#8, 0x04#8, 0x0A#8, 0x09#8, 0x08#8, 0x0E#8,
    0x0D#8, 0x0C#8, 0x80#8, 0x80#8, 0x80#8, 0x80#8] ∧
  State.reset.config.regs.rcEnc = #v[⟨true, 52#8, 61#8, 0xFC#8⟩, ⟨true, 0#8, 25#8, 0x41#8⟩, ⟨true, 26#8, 51#8, 0x47#8⟩,
    ⟨true, 62#8, 62#8, 0xED#8⟩, ⟨true, 63#8, 63#8, 0xF0#8⟩, ⟨false, 0#8, 0#8, 0#8⟩, ⟨false, 0#8, 0#8, 0#8⟩,
    ⟨false, 0#8, 0#8, 0#8⟩] ∧
  State.reset.config.regs.rcDec = #v[⟨true, 0x30#8, 0x39#8, 0x04#8⟩, ⟨true, 0x41#8, 0x5A#8, 0xBF#8⟩,
    ⟨true, 0x61#8, 0x7A#8, 0xB9#8⟩, ⟨true, 0x2B#8, 0x2B#8, 0x13#8⟩, ⟨true, 0x2F#8, 0x2F#8, 0x10#8⟩,
    ⟨false, 0#8, 0#8, 0#8⟩, ⟨false, 0#8, 0#8, 0#8⟩, ⟨false, 0#8, 0#8, 0#8⟩]

/-- R280, R281: a reset between commands installs the configuration supplied, whatever well-formed one it is, leaves the
block `Idle` and does not touch memory. (That the host's side is left alone is the model's choice, log 28.) -/
def Obligations.ResetEventInstallsConfiguration : Prop :=
  ∀ (s : State) (c : WfConfiguration), s.resetIn = some c → s.phase = .idle →
    ∃ t, step s = .next t ∧ t.config = c ∧ t.phase = .idle ∧ t.mem = s.mem ∧ t.memMap = s.memMap ∧
      t.offers = s.offers ∧ t.responses = s.responses ∧ t.hostTakes = s.hostTakes ∧ t.resetIn = none ∧ t.uopSel = none

/-- R282 (log 24): a reset in mid-command abandons the command: the new configuration, `Idle`, no response; beyond
`WRITTEN` the destination region holds a prefix, of a length of which nothing is known, of what the command would have
written had it run to its end, and every other byte of memory is unchanged. -/
def Obligations.ResetAbandonsCommand : Prop :=
  ∀ (s : State) (c : WfConfiguration), s.Inv → s.resetIn = some c → s.phase ≠ .idle →
    ∃ t n e bytes, step s = .next t ∧ t.config = c ∧ t.phase = .idle ∧ t.responses = s.responses ∧
      t.offers = s.offers ∧ t.memMap = s.memMap ∧ t.hostTakes = s.hostTakes ∧ t.resetIn = none ∧ t.uopSel = none ∧
      runSteps n { s with resetIn := none } = .next e ∧ e.phase = .done ∧
      bytes <+: e.mem.readBytes s.dstAddr (e.written.toNat - s.written.toNat) ∧
      s.written.toNat + bytes.length ≤ s.latch.dstCap.toNat ∧ StoredAt s t.mem s.dstAddr bytes

/-- R20, R281: without a reset no step of any kind changes a configuration register (nor, in the model, the address map
or the reset request), whether a sequencer's step or a micro-operation driven by itself. -/
def Obligations.OnlyResetWritesConfiguration : Prop :=
  ∀ s t : State, s.resetIn = none → step s = .next t →
    t.config = s.config ∧ t.memMap = s.memMap ∧ t.resetIn = none ∧ t.uopSel = none

/-- R21, R23, R24: in every state the decode map is the exact inverse of the alphabet: each symbol's entry is its value,
every other entry is the sentinel, and so is that of `PAD`. -/
def Obligations.DecodeMapInvertsAlphabet : Prop :=
  ∀ s : State,
    (∀ i : BitVec 6, (valueOf s.config.regs (symbolOf s.config.regs i)).toNat = i.toNat) ∧
    (∀ x : Byte, valueOf s.config.regs x = 0xFF#8 ∨
      ((valueOf s.config.regs x).toNat < 64 ∧ symbolOf s.config.regs ((valueOf s.config.regs x).setWidth 6) = x)) ∧
    valueOf s.config.regs s.config.regs.pad = 0xFF#8

/-! ## Encodings -/

/-- R90 to R93, R101: the decoder reads back every instruction the encoder writes, every operand at every value. -/
def Obligations.DecodeOfEncode : Prop := ∀ i : Instr, decode (encode i) = .ok i

/-- R90 to R93, R97, R101: an instruction has one word; what the decoder reads, the encoder writes back bit for bit. -/
def Obligations.EncodeOfDecode : Prop := ∀ (w : MachineWord) (i : Instr), decode w = .ok i → encode i = w

/-- R98, R255: the illegal encodings are those of the list, each answered with the fault `IllegalCommand` and no other
effect on memory, cursors, status or value; every other descriptor is one of the commands. -/
def Obligations.IllegalDescriptorsFault : Prop :=
  ∀ (s : State) (d : Descriptor) (rest : List Descriptor),
    s.Quiet → s.phase = .idle → s.offers = d :: rest →
      (IllegalDescriptor d → ∃ l, step s = .next (afterAccept l 1#4 0#32 .done { s with offers := rest })) ∧
      (¬IllegalDescriptor d → ∃ i, decode (.cmd d) = .ok i ∧ i.isMicroOp = false)

/-- R92, R93, R101: words written out from the tables decode to the instructions they stand for. -/
def Obligations.TableWordsDecode : Prop :=
  decodeTableWord 256 0x00000000000020000000000400000000000000000000100000000003_00000011 =
    some (.enc true false 3#32 0x1000#64 4#32 0x2000#64) ∧
  decodeTableWord 256 0x00000000000020000000000300000000000000000000100000000004_00000002 =
    some (.dec false false 4#32 0x1000#64 3#32 0x2000#64) ∧
  decodeTableWord 256 0x0000000500000003 = some (.enclen 5#32) ∧
  decodeTableWord 256 0x00000000000010000000000400000004 = some (.declen false 4#32 0x1000#64) ∧
  decodeTableWord 5 0b00001 = some .seGroup ∧ decodeTableWord 5 0b00101 = some .sdFinal ∧
  decodeTableWord 5 0b01000 = some .spuShuf ∧ decodeTableWord 5 0b01010 = some .rcuDec ∧
  decodeTableWord 5 0b10011 = some .veIter ∧ decodeTableWord 5 0b11011 = some .vdIter ∧
  decodeTableWord 5 0b11101 = some .lcDeclen ∧ decodeTableWord 5 0b00110 = none

/-! ## The step -/

/-- R211: in `Idle` with a descriptor on offer that decodes to a command, the step is that command's meaning, the
descriptor taken from the offers (log 10). -/
def Obligations.StepRunsOfferedCommand : Prop :=
  ∀ (s : State) (d : Descriptor) (rest : List Descriptor) (i : Instr),
    s.Quiet → s.phase = .idle → s.offers = d :: rest → decode (.cmd d) = .ok i →
      step s = exec i { s with offers := rest }

/-- R101 (log 13): a code on the select lines that is a micro-operation's runs as that micro-operation and is off the
lines afterwards; a code without a row, which the sequencer never issues, is refused. -/
def Obligations.StepRunsSelectedMicroOp : Prop :=
  ∀ (s : State) (c : UopCode), s.resetIn = none → s.uopSel = some c →
    (∀ i, decode (.uop c) = .ok i → step s = exec i { s with uopSel := none }) ∧
    ((∀ i, decode (.uop c) ≠ .ok i) → step s = .refused .unassignedMicroOp)

/-- R211, R222, R297: a descriptor offered in another phase than `Idle` is not taken, and the latch is constant until the
response is delivered (R29). With nothing offered in `Idle`, and with a response the host does not take, the block waits
and nothing changes (log 11); the meaning of a command outside `Idle` is to change nothing (log 30). -/
def Obligations.WaitingChangesNothing : Prop :=
  ∀ s : State,
    (s.Quiet → s.phase = .idle → s.offers = [] → step s = .next s) ∧
    (s.Quiet → s.phase = .done → s.hostTakes = false → step s = .next s) ∧
    (∀ t, s.Quiet → s.phase ≠ .idle → step s = .next t →
      t.offers = s.offers ∧ (s.phase ≠ .done → t.latch = s.latch)) ∧
    (∀ i : Instr, s.phase ≠ .idle → i.isMicroOp = false → exec i s = .next s)

/-! ## The commands at Accept -/

/-- R211 for `ENC` and `DEC`: with legal operands whose regions are memory and disjoint, the command is latched, cursors
and results are cleared and the phase is `Scanning`; nothing else changes. -/
def Obligations.TransferCommandsStart : Prop :=
  ∀ (s : State) (final : Bool) (srcLen : Len) (srcBase : Addr) (dstCap : Len) (dstBase : Addr),
    s.phase = .idle → Admitted s srcLen srcBase dstCap dstBase →
      exec (.enc final false srcLen srcBase dstCap dstBase) s =
        .next (afterAccept ⟨1#4, final, false, srcBase, srcLen, dstBase, dstCap⟩ 0#4 0#32 .scanning s) ∧
      exec (.dec final false srcLen srcBase dstCap dstBase) s =
        .next (afterAccept ⟨2#4, final, false, srcBase, srcLen, dstBase, dstCap⟩ 0#4 0#32 .scanning s)

/-- R120, R121: `ENCLEN n` answers `4 * ceil(n/3)` for `n` up to `ENC_MAX` and faults with `RangeError` above, as a field
with bit 31 set does; it reads and writes no memory. -/
def Obligations.EnclenAnswers : Prop :=
  ∀ (s : State) (n : Len), s.phase = .idle →
    (n.toNat ≤ 1610612733 → ∃ v, exec (.enclen n) s =
        .next (afterAccept ⟨3#4, false, false, 0#64, n, 0#64, 0#32⟩ 0#4 v .done s) ∧
      v.toNat = 4 * ((n.toNat + 2) / 3) ∧ v.toNat ≤ 2147483644) ∧
    (1610612733 < n.toNat → exec (.enclen n) s =
        .next (afterAccept ⟨3#4, false, false, 0#64, n, 0#64, 0#32⟩ 2#4 0#32 .done s))

/-- R123, R124, R125: `DECLEN` answers `(len div 4) * 3 - paddingCount` as a signed number, for every length, and writes
no memory. -/
def Obligations.DeclenAnswers : Prop :=
  ∀ (s : State) (srcLen : Len) (srcBase : Addr), s.phase = .idle → RegionInRange srcBase srcLen →
    readableMem s.memMap srcBase.toNat srcLen.toNat = true →
    ∃ v, exec (.declen false srcLen srcBase) s =
        .next (afterAccept ⟨4#4, false, false, srcBase, srcLen, 0#64, 0#32⟩ 0#4 v .done s) ∧
      v.toInt = (srcLen.toNat / 4 * 3 : Nat) -
        (paddingCount s.config.regs.pad (s.mem.readBytes srcBase.toNat srcLen.toNat) : Int)

/-- R256, R258: `ELEM = 1` on a command that touches symbols is the fault `UnsupportedElementType`, whatever its other
operands are, before any range is looked at. -/
def Obligations.WideElementsFault : Prop :=
  ∀ (s : State) (final : Bool) (srcLen : Len) (srcBase : Addr) (dstCap : Len) (dstBase : Addr), s.phase = .idle →
    exec (.enc final true srcLen srcBase dstCap dstBase) s =
      .next (afterAccept ⟨1#4, final, true, srcBase, srcLen, dstBase, dstCap⟩ 3#4 0#32 .done s) ∧
    exec (.dec final true srcLen srcBase dstCap dstBase) s =
      .next (afterAccept ⟨2#4, final, true, srcBase, srcLen, dstBase, dstCap⟩ 3#4 0#32 .done s) ∧
    exec (.declen true srcLen srcBase) s =
      .next (afterAccept ⟨4#4, false, true, srcBase, srcLen, 0#64, 0#32⟩ 3#4 0#32 .done s)

/-- R257: `RangeError` is raised for `ENCLEN` beyond `ENC_MAX`, for a length or capacity beyond `LEN_MAX` and for a
region that wraps, in every command that uses the field, and for nothing else. -/
def Obligations.RangeErrors : Prop :=
  ∀ (s : State) (final : Bool) (srcLen : Len) (srcBase : Addr) (dstCap : Len) (dstBase : Addr), s.phase = .idle →
    (¬(srcLen.toNat ≤ 2147483647 ∧ srcBase.toNat + srcLen.toNat ≤ 2 ^ 64 ∧
        dstCap.toNat ≤ 2147483647 ∧ dstBase.toNat + dstCap.toNat ≤ 2 ^ 64) →
      exec (.enc final false srcLen srcBase dstCap dstBase) s =
        .next (afterAccept ⟨1#4, final, false, srcBase, srcLen, dstBase, dstCap⟩ 2#4 0#32 .done s) ∧
      exec (.dec final false srcLen srcBase dstCap dstBase) s =
        .next (afterAccept ⟨2#4, final, false, srcBase, srcLen, dstBase, dstCap⟩ 2#4 0#32 .done s)) ∧
    (¬(srcLen.toNat ≤ 2147483647 ∧ srcBase.toNat + srcLen.toNat ≤ 2 ^ 64) →
      exec (.declen false srcLen srcBase) s =
        .next (afterAccept ⟨4#4, false, false, srcBase, srcLen, 0#64, 0#32⟩ 2#4 0#32 .done s)) ∧
    (1610612733 < srcLen.toNat →
      exec (.enclen srcLen) s =
        .next (afterAccept ⟨3#4, false, false, 0#64, srcLen, 0#64, 0#32⟩ 2#4 0#32 .done s)) ∧
    (∀ t,
      (srcLen.toNat ≤ 2147483647 ∧ srcBase.toNat + srcLen.toNat ≤ 2 ^ 64 ∧
          dstCap.toNat ≤ 2147483647 ∧ dstBase.toNat + dstCap.toNat ≤ 2 ^ 64 ∧
          (exec (.enc final false srcLen srcBase dstCap dstBase) s = .next t ∨
            exec (.dec final false srcLen srcBase dstCap dstBase) s = .next t) ∨
        srcLen.toNat ≤ 2147483647 ∧ srcBase.toNat + srcLen.toNat ≤ 2 ^ 64 ∧
          exec (.declen false srcLen srcBase) s = .next t ∨
        srcLen.toNat ≤ 1610612733 ∧ exec (.enclen srcLen) s = .next t) →
      t.fault = 0#4)

/-- R71: an `ENC` or `DEC` whose regions share a byte is refused. (At Accept, after the checks of R97 and before the test
of R70: log 8.) -/
def Obligations.OverlappingRegionsRefused : Prop :=
  ∀ (s : State) (final : Bool) (srcLen : Len) (srcBase : Addr) (dstCap : Len) (dstBase : Addr) (a : Nat),
    s.phase = .idle → RegionInRange srcBase srcLen → RegionInRange dstBase dstCap →
    InRegion srcBase srcLen a → InRegion dstBase dstCap a →
      exec (.enc final false srcLen srcBase dstCap dstBase) s = .refused .regionsOverlap ∧
      exec (.dec final false srcLen srcBase dstCap dstBase) s = .refused .regionsOverlap

/-- R70: a command whose source holds a byte that is not readable memory, or whose destination one that is not writable
memory, has no step. (It stops at Accept with a fault of the model: log 7.) -/
def Obligations.InaccessibleRegionsStick : Prop :=
  ∀ (s : State) (final : Bool) (srcLen : Len) (srcBase : Addr) (dstCap : Len) (dstBase : Addr) (a : Nat),
    s.phase = .idle → RegionInRange srcBase srcLen → RegionInRange dstBase dstCap →
    RegionsDisjoint srcBase srcLen dstBase dstCap →
      (InRegion srcBase srcLen a → (∀ r ∈ s.memMap, r.readable = true → ¬(r.base ≤ a ∧ a < r.base + r.len)) →
        exec (.enc final false srcLen srcBase dstCap dstBase) s = .fault .regionNotMemory ∧
        exec (.dec final false srcLen srcBase dstCap dstBase) s = .fault .regionNotMemory ∧
        exec (.declen false srcLen srcBase) s = .fault .regionNotMemory) ∧
      (InRegion dstBase dstCap a → (∀ r ∈ s.memMap, r.writable = true → ¬(r.base ≤ a ∧ a < r.base + r.len)) →
        exec (.enc final false srcLen srcBase dstCap dstBase) s = .fault .regionNotMemory ∧
        exec (.dec final false srcLen srcBase dstCap dstBase) s = .fault .regionNotMemory)

/-! ## The scalar core -/

/-- R141: `SE.GROUP` packs three bytes into `SE.W`, the first most significant, and maps its four 6-bit fields through
the alphabet, most significant first; it changes nothing else. -/
def Obligations.SeGroupSymbols : Prop :=
  ∀ s : State,
    let w := (s.units.seIn[0].toNat <<< 16) ||| (s.units.seIn[1].toNat <<< 8) ||| s.units.seIn[2].toNat
    let symbol := fun i : Nat => symbolOf s.config.regs (BitVec.ofNat 6 i)
    exec .seGroup s = .next { s with units := { s.units with
      seW := BitVec.ofNat 24 w
      seOut := #v[symbol (w >>> 18), symbol ((w >>> 12) &&& 0x3F), symbol ((w >>> 6) &&& 0x3F), symbol (w &&& 0x3F)] } }

/-- R142, R143: the final short groups: two bytes give three symbols and one `PAD`, one byte two symbols and two `PAD`;
inputs that are not used have no influence, and nothing else changes. -/
def Obligations.SeTailSymbols : Prop :=
  ∀ s : State,
    let symbol := fun i : Nat => symbolOf s.config.regs (BitVec.ofNat 6 i);
    (let w := (s.units.seIn[0].toNat <<< 16) ||| (s.units.seIn[1].toNat <<< 8);
      exec .seTail2 s = .next { s with units := { s.units with
        seW := BitVec.ofNat 24 w
        seOut := #v[symbol (w >>> 18), symbol ((w >>> 12) &&& 0x3F), symbol ((w >>> 6) &&& 0x3F),
          s.config.regs.pad] } }) ∧
    (let w := s.units.seIn[0].toNat <<< 16;
      exec .seTail1 s = .next { s with units := { s.units with
        seW := BitVec.ofNat 24 w
        seOut := #v[symbol (w >>> 18), symbol ((w >>> 12) &&& 0x3F), s.config.regs.pad, s.config.regs.pad] } })

/-- R145: `SD.GROUP` is invalid exactly when one of the four symbols has the sentinel; else it answers the three bytes of
the word of the four values. With `ok = 0` the other outputs are free values (log 16). -/
def Obligations.SdGroupBytes : Prop :=
  ∀ s : State,
    let v := fun i : Fin 4 => valueOf s.config.regs s.units.sdIn[i]
    let w := ((v 0).toNat <<< 18) ||| ((v 1).toNat <<< 12) ||| ((v 2).toNat <<< 6) ||| (v 3).toNat;
    ((∃ i, v i = 0xFF#8) → ∃ k bytes n, exec .sdGroup s = .next { s with
      units := { s.units with sdOk := false, sdK := k, sdOut := bytes }, tick := n }) ∧
    ((∀ i, v i ≠ 0xFF#8) → exec .sdGroup s = .next { s with units := { s.units with
      sdW := BitVec.ofNat 24 w, sdOk := true, sdK := 3#2,
      sdOut := [BitVec.ofNat 8 (w >>> 16), BitVec.ofNat 8 (w >>> 8), BitVec.ofNat 8 w] } })

/-- R146, R147: `SD.FINAL` without padding is `SD.GROUP`; with `PAD` last it answers two bytes of the first three
symbols, with `PAD` in the last two places one byte of the first two, dropping the low bits unchecked; in each case it
is invalid exactly when a symbol it looks up has the sentinel. -/
def Obligations.SdFinalBytes : Prop :=
  ∀ s : State,
    let v := fun i : Fin 4 => valueOf s.config.regs s.units.sdIn[i];
    (s.units.sdIn[3] ≠ s.config.regs.pad → exec .sdFinal s = exec .sdGroup s) ∧
    (s.units.sdIn[3] = s.config.regs.pad → s.units.sdIn[2] ≠ s.config.regs.pad →
      let w := ((v 0).toNat <<< 18) ||| ((v 1).toNat <<< 12) ||| ((v 2).toNat <<< 6);
      (v 0 = 0xFF#8 ∨ v 1 = 0xFF#8 ∨ v 2 = 0xFF#8 → ∃ k bytes n, exec .sdFinal s = .next { s with
        units := { s.units with sdOk := false, sdK := k, sdOut := bytes }, tick := n }) ∧
      (v 0 ≠ 0xFF#8 → v 1 ≠ 0xFF#8 → v 2 ≠ 0xFF#8 → exec .sdFinal s = .next { s with units := { s.units with
        sdW := BitVec.ofNat 24 w, sdOk := true, sdK := 2#2,
        sdOut := [BitVec.ofNat 8 (w >>> 16), BitVec.ofNat 8 (w >>> 8)] } })) ∧
    (s.units.sdIn[3] = s.config.regs.pad → s.units.sdIn[2] = s.config.regs.pad →
      let w := ((v 0).toNat <<< 18) ||| ((v 1).toNat <<< 12);
      (v 0 = 0xFF#8 ∨ v 1 = 0xFF#8 → ∃ k bytes n, exec .sdFinal s = .next { s with
        units := { s.units with sdOk := false, sdK := k, sdOut := bytes }, tick := n }) ∧
      (v 0 ≠ 0xFF#8 → v 1 ≠ 0xFF#8 → exec .sdFinal s = .next { s with units := { s.units with
        sdW := BitVec.ofNat 24 w, sdOk := true, sdK := 1#2, sdOut := [BitVec.ofNat 8 (w >>> 16)] } }))

/-- R149: the decoder undoes the encoder, group by group, under every configuration: `SD.GROUP` and `SD.FINAL` after
`SE.GROUP`, `SD.FINAL` after `SE.TAIL2` and after `SE.TAIL1`. -/
def Obligations.ScalarInverse : Prop :=
  ∀ s : State,
    let gives := fun (enc dec : Instr) (bytes : List Byte) => ∃ e d, exec enc s = .next e ∧
      exec dec (e.withSymbols e.units.seOut[0] e.units.seOut[1] e.units.seOut[2] e.units.seOut[3]) = .next d ∧
      d.units.sdOk = true ∧ d.units.sdK.toNat = bytes.length ∧ d.units.sdOut = bytes
    gives .seGroup .sdGroup [s.units.seIn[0], s.units.seIn[1], s.units.seIn[2]] ∧
    gives .seTail2 .sdFinal [s.units.seIn[0], s.units.seIn[1]] ∧
    gives .seTail1 .sdFinal [s.units.seIn[0]] ∧
    gives .seGroup .sdFinal [s.units.seIn[0], s.units.seIn[1], s.units.seIn[2]]

/-! ## The shared vector units -/

/-- R161: `SPU.SHUF`: output lane `i` of each half is zero when bit 7 of `C[i]` is set, else the input lane of the same
half that the low four bits of `C[i]` name. -/
def Obligations.SpuShufLanes : Prop :=
  decode (.uop 0x08#5) = .ok .spuShuf ∧
  ∀ s : State, ∃ out, exec .spuShuf s = .next { s with units := { s.units with spuOut := out } } ∧
    out.length = s.lanes ∧
    ∀ h < s.lanes / 16, ∀ i : Fin 16, lane out (16 * h + i) =
      if s.units.spuC[i].toNat / 128 = 1 then 0#8 else lane s.units.spuV (16 * h + s.units.spuC[i].toNat % 16)

/-- R164, R16: the lane function answers from the lowest valid entry whose range holds the byte, adding its offset modulo
256, and has no hit when no entry's does. -/
def Obligations.RangeCompareLowestHit : Prop :=
  ∀ (x : Byte) (t : Vector RangeEntry 8),
    let hits := fun j : Fin 8 => t[j].valid = true ∧ t[j].lo.toNat ≤ x.toNat ∧ x.toNat ≤ t[j].hi.toNat;
    ((∀ j, ¬hits j) → rangeCompare x t = none) ∧
    (∀ j, hits j → (∀ k, k < j → ¬hits k) →
      rangeCompare x t = some (BitVec.ofNat 8 ((x.toNat + t[j].off.toNat) % 256)))

/-- R165, R167: `RCU.ENC` is a lane-wise look-up in `ALPHABET` for the values 0 to 63, and answers `0x00` for a lane of
64 or more, under every well-formed configuration. -/
def Obligations.RcuEncIsAlphabet : Prop :=
  ∀ s : State, ∃ out, exec .rcuEnc s = .next { s with units := { s.units with rcuOut := out } } ∧
    out.length = s.lanes ∧
    ∀ i < s.lanes,
      ((lane s.units.rcuV i).toNat < 64 → lane out i = symbolOf s.config.regs ((lane s.units.rcuV i).setWidth 6)) ∧
      (64 ≤ (lane s.units.rcuV i).toNat → lane out i = 0x00#8)

/-- R166, R167: `RCU.DEC` is a lane-wise look-up in `DECMAP`, the sentinel `0xFF` included, and sets `VD.ANYBAD` exactly
when at least one lane gave the sentinel. -/
def Obligations.RcuDecIsDecodeMap : Prop :=
  ∀ s : State, ∃ out bad,
    exec .rcuDec s = .next { s with units := { s.units with rcuOut := out, vdAnybad := bad } } ∧
    out.length = s.lanes ∧
    (∀ i < s.lanes, lane out i = valueOf s.config.regs (lane s.units.rcuV i)) ∧
    (bad = true ↔ ∃ i < s.lanes, lane out i = 0xFF#8)

/-! ## The vector engines -/

/-- R191: `VE.LOAD` puts 16 bytes from `p + 12h` into each half `h`, the lowest address in lane 0; 4 bytes past the window
are read and nothing else changes. (Without lanes it reads nothing: log 25.) -/
def Obligations.VeLoadLanes : Prop :=
  ∀ s : State, (s.lanes ≠ 0 → s.SourceHolds (s.window + 4)) →
    ∃ v, exec .veLoad s = .next { s with units := { s.units with veV := v } } ∧ v.length = s.lanes ∧
      ∀ h < s.lanes / 16, ∀ i < 16, lane v (16 * h + i) = s.nextByte (12 * h + i)

/-- R192, R200: `SPU.SHUF` with `ENC_SHUF` makes word lane `4h + g` the scalar encoder's word of the three bytes of group
`g` of half `h`, dropping lanes 12 to 15; with `DEC_SHUF` it compacts each half: lanes `3g .. 3g+2` are the three useful
bytes of word lane `g`, most significant first, and lanes 12 to 15 are zero. -/
def Obligations.ShuffleConstants : Prop :=
  ∀ s : State, ∃ out, exec .spuShuf s = .next { s with units := { s.units with spuOut := out } } ∧
    out.length = s.lanes ∧
    (s.units.spuC = s.config.regs.encShuf → ∀ h < s.lanes / 16, ∀ g < 4,
      (wordLane out (4 * h + g)).toNat =
        ((lane s.units.spuV (16 * h + 3 * g)).toNat <<< 16) ||| ((lane s.units.spuV (16 * h + 3 * g + 1)).toNat <<< 8) |||
          (lane s.units.spuV (16 * h + 3 * g + 2)).toNat) ∧
    (s.units.spuC = s.config.regs.decShuf → ∀ h < s.lanes / 16,
      (∀ g < 4,
        let w := (wordLane s.units.spuV (4 * h + g)).toNat;
        (lane out (16 * h + 3 * g)).toNat = (w >>> 16) % 256 ∧
        (lane out (16 * h + 3 * g + 1)).toNat = (w >>> 8) % 256 ∧
        (lane out (16 * h + 3 * g + 2)).toNat = w % 256) ∧
      (∀ i, 12 ≤ i → i < 16 → lane out (16 * h + i) = 0#8))

/-- R193: `VE.SPLIT6` puts the four 6-bit fields of each word lane into its byte lanes, most significant first; every
lane is below 64. -/
def Obligations.VeSplitFields : Prop :=
  decode (.uop 0x11#5) = .ok .veSplit6 ∧
  ∀ s : State, ∃ out, exec .veSplit6 s = .next { s with units := { s.units with veV := out } } ∧
    out.length = s.lanes ∧
    ∀ g < s.lanes / 4,
      let w := (lane s.units.veV (4 * g)).toNat ||| ((lane s.units.veV (4 * g + 1)).toNat <<< 8) |||
        ((lane s.units.veV (4 * g + 2)).toNat <<< 16) ||| ((lane s.units.veV (4 * g + 3)).toNat <<< 24);
      (lane out (4 * g)).toNat = (w >>> 18) &&& 0x3F ∧ (lane out (4 * g + 1)).toNat = (w >>> 12) &&& 0x3F ∧
      (lane out (4 * g + 2)).toNat = (w >>> 6) &&& 0x3F ∧ (lane out (4 * g + 3)).toNat = w &&& 0x3F

/-- R194: `VE.STORE` stores all `L` lanes at `q`, lane `i` at `q + i`, and changes nothing else. -/
def Obligations.VeStoreBytes : Prop :=
  ∀ s : State, s.mem.wf = true → s.DestinationHolds s.lanes →
    ∃ m, exec .veStore s = .next { s with mem := m } ∧ m.wf = true ∧
      ∀ a, m.read a = if s.dstAddr ≤ a ∧ a < s.dstAddr + s.lanes then lane s.units.veV (a - s.dstAddr) else s.mem.read a

/-- R195: an encode iteration equals, bit for bit, `N/3` runs of `SE.GROUP` on the active window, stored one after the
other at `q`; every other byte of memory, and every register outside the units, is unchanged. -/
def Obligations.VeIterEqualsScalarGroups : Prop :=
  ∀ s : State, s.mem.wf = true → (s.lanes ≠ 0 → s.SourceHolds (s.window + 4)) → s.DestinationHolds s.lanes →
    ∃ u m, exec .veIter s = .next { s with units := u, mem := m } ∧ m.wf = true ∧
      (∀ t < s.window / 3, ∃ g,
        exec .seGroup (s.withRaw (s.nextByte (3 * t)) (s.nextByte (3 * t + 1)) (s.nextByte (3 * t + 2))) = .next g ∧
        ∀ j : Fin 4, m.read (s.dstAddr + 4 * t + j) = g.units.seOut[j]) ∧
      ∀ a, ¬(s.dstAddr ≤ a ∧ a < s.dstAddr + s.lanes) → m.read a = s.mem.read a

/-- R197: `VD.LOAD` puts the `L` bytes at `p` into the lanes, lane `i` from `p + i`, and changes nothing else. -/
def Obligations.VdLoadLanes : Prop :=
  ∀ s : State, s.SourceHolds s.lanes →
    ∃ v, exec .vdLoad s = .next { s with units := { s.units with vdV := v } } ∧ v.length = s.lanes ∧
      ∀ i < s.lanes, lane v i = s.nextByte i

/-- R199: `VD.MERGE6` makes word lane `g` the 24-bit word of the four values in its byte lanes, low byte first, with 0 in
the top lane. -/
def Obligations.VdMergeWords : Prop :=
  decode (.uop 0x19#5) = .ok .vdMerge6 ∧
  ∀ s : State, ∃ out, exec .vdMerge6 s = .next { s with units := { s.units with vdV := out } } ∧
    out.length = s.lanes ∧
    ∀ g < s.lanes / 4,
      let w := ((lane s.units.vdV (4 * g)).toNat <<< 18) ||| ((lane s.units.vdV (4 * g + 1)).toNat <<< 12) |||
        ((lane s.units.vdV (4 * g + 2)).toNat <<< 6) ||| (lane s.units.vdV (4 * g + 3)).toNat;
      (lane out (4 * g)).toNat = w % 256 ∧ (lane out (4 * g + 1)).toNat = (w >>> 8) % 256 ∧
      (lane out (4 * g + 2)).toNat = (w >>> 16) % 256 ∧ lane out (4 * g + 3) = 0#8 ∧
      ((∀ k < 4, (lane s.units.vdV (4 * g + k)).toNat < 64) → (wordLane out g).toNat = w)

/-- R201: `VD.STORE` stores exactly `N` bytes at `q`: lanes `0 .. 11` of each half, the halves one after the other, and
nothing past them. -/
def Obligations.VdStoreBytes : Prop :=
  ∀ s : State, s.mem.wf = true → s.DestinationHolds s.window →
    ∃ m, exec .vdStore s = .next { s with mem := m } ∧ m.wf = true ∧
      ∀ a, m.read a = if s.dstAddr ≤ a ∧ a < s.dstAddr + s.window
        then lane s.units.vdV (16 * ((a - s.dstAddr) / 12) + (a - s.dstAddr) % 12) else s.mem.read a

/-- R202, R203: a decode iteration is abandoned exactly when one of its `L` symbols has the sentinel, and then changes
nothing outside the units; else every group is valid for `SD.GROUP`, and the `N` bytes at `q` are those groups' bytes one
after the other, every other byte of memory unchanged. -/
def Obligations.VdIterEqualsScalarGroups : Prop :=
  ∀ s : State, s.SourceHolds s.lanes →
    ((∃ i < s.lanes, valueOf s.config.regs (s.nextByte i) = 0xFF#8) →
      ∃ u, exec .vdIter s = .next { s with units := u } ∧ u.vdAnybad = true) ∧
    ((∀ i < s.lanes, valueOf s.config.regs (s.nextByte i) ≠ 0xFF#8) → s.mem.wf = true → s.DestinationHolds s.window →
      ∃ u m, exec .vdIter s = .next { s with units := u, mem := m } ∧ u.vdAnybad = false ∧ m.wf = true ∧
        (∀ t < s.lanes / 4, ∃ g,
          exec .sdGroup (s.withSymbols (s.nextByte (4 * t)) (s.nextByte (4 * t + 1)) (s.nextByte (4 * t + 2))
            (s.nextByte (4 * t + 3))) = .next g ∧
          g.units.sdOk = true ∧ ∀ j < 3, m.read (s.dstAddr + 3 * t + j) = g.units.sdOut.getD j 0#8) ∧
        ∀ a, ¬(s.dstAddr ≤ a ∧ a < s.dstAddr + s.window) → m.read a = s.mem.read a)

/-! ## The length calculator's micro-operations -/

/-- R121, R122, R124, R125: `LC.ENCLEN` sets `VALUE` to `((n + 2) div 3) * 4` of the latched length, for `n` up to
`ENC_MAX`, and `LC.DECLEN` sets it to the formula over the latched source region, for a length up to `LEN_MAX`; beyond,
where neither function is given, each sets it to a value of which nothing is known (log 17). Neither changes anything
else of the block. -/
def Obligations.LengthMicroOps : Prop :=
  ∀ s : State,
    (s.latch.srcLen.toNat ≤ 1610612733 → exec .lcEnclen s =
      .next { s with value := BitVec.ofNat 32 ((s.latch.srcLen.toNat + 2) / 3 * 4) }) ∧
    (1610612733 < s.latch.srcLen.toNat → ∃ v n, exec .lcEnclen s = .next { s with value := v, tick := n }) ∧
    (readableMem s.memMap s.latch.srcBase.toNat s.latch.srcLen.toNat = true →
      (s.latch.srcLen.toNat ≤ 2147483647 →
        exec .lcDeclen s = .next { s with value := BitVec.ofInt 32 ((s.latch.srcLen.toNat / 4 * 3 : Nat) -
          (paddingCount s.config.regs.pad (s.mem.readBytes s.latch.srcBase.toNat s.latch.srcLen.toNat) : Int)) }) ∧
      (2147483647 < s.latch.srcLen.toNat → ∃ v n, exec .lcDeclen s = .next { s with value := v, tick := n }))

/-- R63, R64 (log 18): an access of an engine that does not lie in its region is not admitted. A load past the source
region (`L` bytes for `VD.LOAD`, `N + 4` for `VE.LOAD`) and a store past the destination region (`L` bytes for `VE.STORE`,
`N` for `VD.STORE`) stop the model, by themselves and inside an iteration. The fault is that of the region, unless the
first half of the access lies in it and is not memory (log 7). -/
def Obligations.AccessOutsideRegionStops : Prop :=
  ∀ s : State,
    (s.latch.srcBase.toNat + s.latch.srcLen.toNat < s.srcAddr + s.lanes →
      exec .vdLoad s = .fault .readOutsideSource ∧ exec .vdIter s = .fault .readOutsideSource) ∧
    (s.lanes ≠ 0 → s.latch.srcBase.toNat + s.latch.srcLen.toNat < s.srcAddr + (s.window + 4) →
      ∃ f, exec .veLoad s = .fault f ∧ exec .veIter s = .fault f ∧
        (readableMem s.memMap s.latch.srcBase.toNat s.latch.srcLen.toNat = true → f = .readOutsideSource)) ∧
    (s.latch.dstBase.toNat + s.latch.dstCap.toNat < s.dstAddr + s.lanes →
      exec .veStore s = .fault .writeOutsideDestination ∧
      ((s.lanes ≠ 0 → s.SourceHolds (s.window + 4)) → exec .veIter s = .fault .writeOutsideDestination)) ∧
    (s.lanes ≠ 0 → s.latch.dstBase.toNat + s.latch.dstCap.toNat < s.dstAddr + s.window →
      ∃ f, exec .vdStore s = .fault f ∧
        (s.SourceHolds s.lanes → (∀ i < s.lanes, valueOf s.config.regs (s.nextByte i) ≠ 0xFF#8) →
          exec .vdIter s = .fault f) ∧
        (writableMem s.memMap s.latch.dstBase.toNat s.latch.dstCap.toNat = true → f = .writeOutsideDestination))

/-! ## The sequencer's steps -/

/-- R212, R213: Scan goes to the bulk path exactly when there are lanes, `L` source bytes and room for one iteration's
bytes (`L` for `ENC`, `N` for `DEC`), else to the tail; nothing else changes. -/
def Obligations.ScanChoosesPath : Prop :=
  ∀ s : State, s.Quiet → s.phase = .scanning → s.latch.op = 1#4 ∨ s.latch.op = 2#4 →
    step s = .next { s with phase :=
      if s.config.regs.cap ≠ 0#2 ∧ s.consumed.toNat + s.lanes ≤ s.latch.srcLen.toNat ∧
          s.written.toNat + (if s.latch.op = 1#4 then s.lanes else s.window) ≤ s.latch.dstCap.toNat
      then .bulkTransform else .tailTransform }

/-- R215: EncBulk is one `VE.ITER`; the cursors move by `N` and `L`, and the phase stays while one more iteration may be
started. What the working registers hold afterwards is unspecified (log 14). -/
def Obligations.EncBulkStep : Prop :=
  ∀ s t : State, s.Quiet → s.phase = .bulkTransform → s.latch.op = 1#4 →
    s.consumed.toNat + s.lanes ≤ s.latch.srcLen.toNat → s.written.toNat + s.lanes ≤ s.latch.dstCap.toNat →
    exec .veIter s = .next t →
    ∃ u n, step s = .next { t with
      units := u, tick := n
      consumed := s.consumed + BitVec.ofNat 32 s.window, written := s.written + BitVec.ofNat 32 s.lanes
      phase := if s.consumed.toNat + s.window + s.lanes ≤ s.latch.srcLen.toNat ∧
          s.written.toNat + s.lanes + s.lanes ≤ s.latch.dstCap.toNat
        then .bulkTransform else .tailTransform }

/-- R216: EncGroup: with fewer than 4 free bytes it ends with `DestinationTooSmall`, reading and writing nothing; else
the three source bytes go through `SE.GROUP` to the next four destination bytes, and the cursors move by 3 and 4. -/
def Obligations.EncGroupStep : Prop :=
  ∀ s : State, s.Quiet → s.phase = .tailTransform → s.latch.op = 1#4 →
    s.consumed.toNat + 3 ≤ s.latch.srcLen.toNat →
    (s.latch.dstCap.toNat < s.written.toNat + 4 → ∃ u n, step s = .next (ended .destinationTooSmall u n s)) ∧
    (s.written.toNat + 4 ≤ s.latch.dstCap.toNat → s.mem.wf = true → readableMem s.memMap s.srcAddr 3 = true →
      writableMem s.memMap s.dstAddr 4 = true →
      ∃ g u n m, exec .seGroup (s.withRaw (s.nextByte 0) (s.nextByte 1) (s.nextByte 2)) = .next g ∧
        StoredAt s m s.dstAddr g.units.seOut.toList ∧
        step s = .next { s with
          units := u, tick := n, mem := m, consumed := s.consumed + 3#32, written := s.written + 4#32 })

/-- R217: EncTrail: nothing left is `Done`; one or two bytes left are `NeedMoreData` without the final flag, whatever the
room; with it, `DestinationTooSmall` without 4 free bytes, else the short group's symbols and `Done`. -/
def Obligations.EncTrailStep : Prop :=
  ∀ s : State, s.Quiet → s.phase = .tailTransform → s.latch.op = 1#4 →
    s.consumed.toNat ≤ s.latch.srcLen.toNat → s.latch.srcLen.toNat < s.consumed.toNat + 3 →
    (s.latch.srcLen.toNat = s.consumed.toNat → ∃ u n, step s = .next (ended .done u n s)) ∧
    (s.latch.srcLen.toNat ≠ s.consumed.toNat → s.latch.final = false →
      ∃ u n, step s = .next (ended .needMoreData u n s)) ∧
    (s.latch.srcLen.toNat ≠ s.consumed.toNat → s.latch.final = true → s.latch.dstCap.toNat < s.written.toNat + 4 →
      ∃ u n, step s = .next (ended .destinationTooSmall u n s)) ∧
    (s.latch.final = true → s.written.toNat + 4 ≤ s.latch.dstCap.toNat → s.mem.wf = true →
      writableMem s.memMap s.dstAddr 4 = true →
      (s.latch.srcLen.toNat = s.consumed.toNat + 2 → readableMem s.memMap s.srcAddr 2 = true →
        ∃ g u n m, exec .seTail2 (s.withRaw (s.nextByte 0) (s.nextByte 1) 0#8) = .next g ∧
          StoredAt s m s.dstAddr g.units.seOut.toList ∧
          step s = .next (ended .done u n
            { s with mem := m, consumed := s.consumed + 2#32, written := s.written + 4#32 })) ∧
      (s.latch.srcLen.toNat = s.consumed.toNat + 1 → readableMem s.memMap s.srcAddr 1 = true →
        ∃ g u n m, exec .seTail1 (s.withRaw (s.nextByte 0) 0#8 0#8) = .next g ∧
          StoredAt s m s.dstAddr g.units.seOut.toList ∧
          step s = .next (ended .done u n
            { s with mem := m, consumed := s.consumed + 1#32, written := s.written + 4#32 })))

/-- R219: DecBulk is one `VD.ITER`; an abandoned one only leaves the bulk path, a completed one moves the cursors by `L`
and `N`, and the phase stays while one more iteration may be started. -/
def Obligations.DecBulkStep : Prop :=
  ∀ s t : State, s.Quiet → s.phase = .bulkTransform → s.latch.op = 2#4 →
    s.consumed.toNat + s.lanes ≤ s.latch.srcLen.toNat → s.written.toNat + s.window ≤ s.latch.dstCap.toNat →
    exec .vdIter s = .next t →
    (t.units.vdAnybad = true → ∃ u n, step s = .next { t with units := u, tick := n, phase := .tailTransform }) ∧
    (t.units.vdAnybad = false → ∃ u n, step s = .next { t with
      units := u, tick := n
      consumed := s.consumed + BitVec.ofNat 32 s.lanes, written := s.written + BitVec.ofNat 32 s.window
      phase := if s.consumed.toNat + s.lanes + s.lanes ≤ s.latch.srcLen.toNat ∧
          s.written.toNat + s.window + s.window ≤ s.latch.dstCap.toNat
        then .bulkTransform else .tailTransform })

/-- R220: DecGroup: the next four symbols go through `SD.FINAL` when they are the last four of a final block, else
through `SD.GROUP`; an invalid group ends with `InvalidData`, one that does not fit with `DestinationTooSmall`, and any
other has its `k` bytes written and moves the cursors by 4 and `k`. -/
def Obligations.DecGroupStep : Prop :=
  ∀ s : State, s.Quiet → s.phase = .tailTransform → s.latch.op = 2#4 →
    s.consumed.toNat + 4 ≤ s.latch.srcLen.toNat → readableMem s.memMap s.srcAddr 4 = true →
    ∃ g, exec (if s.latch.final = true ∧ s.latch.srcLen.toNat = s.consumed.toNat + 4 then .sdFinal else .sdGroup)
        (s.withSymbols (s.nextByte 0) (s.nextByte 1) (s.nextByte 2) (s.nextByte 3)) = .next g ∧
      (g.units.sdOk = false → ∃ u n, step s = .next (ended .invalidData u n s)) ∧
      (g.units.sdOk = true → s.latch.dstCap.toNat < s.written.toNat + g.units.sdK.toNat →
        ∃ u n, step s = .next (ended .destinationTooSmall u n s)) ∧
      (g.units.sdOk = true → s.written.toNat + g.units.sdK.toNat ≤ s.latch.dstCap.toNat → s.mem.wf = true →
        writableMem s.memMap s.dstAddr g.units.sdK.toNat = true →
        ∃ u n m, g.units.sdOut.length = g.units.sdK.toNat ∧ StoredAt s m s.dstAddr g.units.sdOut ∧
          step s = .next { s with
            units := u, tick := n, mem := m
            consumed := s.consumed + 4#32, written := s.written + g.units.sdK.setWidth 32 })

/-- R221: DecTrail: nothing left is `Done`; one to three symbols left are `NeedMoreData` without the final flag and
`InvalidData` with it; nothing is read or written. -/
def Obligations.DecTrailStep : Prop :=
  ∀ s : State, s.Quiet → s.phase = .tailTransform → s.latch.op = 2#4 →
    s.consumed.toNat ≤ s.latch.srcLen.toNat → s.latch.srcLen.toNat < s.consumed.toNat + 4 →
    ∃ u n, step s = .next (ended
      (if s.latch.srcLen.toNat = s.consumed.toNat then .done
        else if s.latch.final = false then .needMoreData else .invalidData) u n s)

/-- R223, R224: in a group that is not the last four symbols of a final block any `PAD` ends the command with
`InvalidData` at the start of the group, nothing written; in the last group so does a `PAD` in one of the first two
places, or in the third place only. -/
def Obligations.PaddingOnlyAtTheEnd : Prop :=
  ∀ s : State, s.Quiet → s.phase = .tailTransform → s.latch.op = 2#4 →
    s.consumed.toNat + 4 ≤ s.latch.srcLen.toNat → readableMem s.memMap s.srcAddr 4 = true →
    ((s.latch.final = false ∨ s.consumed.toNat + 4 < s.latch.srcLen.toNat) ∧
        (∃ i < 4, s.nextByte i = s.config.regs.pad) ∨
      s.nextByte 0 = s.config.regs.pad ∨ s.nextByte 1 = s.config.regs.pad ∨
      s.nextByte 2 = s.config.regs.pad ∧ s.nextByte 3 ≠ s.config.regs.pad) →
    ∃ u n, step s = .next (ended .invalidData u n s)

/-- R222, R94, R95: Deliver hands back one response whose fields are the result and progress registers, every reserved
bit 0, and returns to `Idle`; the configuration and memory are kept. Of the command's registers nothing is known
afterwards (R37; log 15). -/
def Obligations.DeliverResponds : Prop :=
  ∀ s : State, s.Quiet → s.phase = .done → s.hostTakes = true →
    ∃ t r, step s = .next t ∧ t.phase = .idle ∧ t.config = s.config ∧ t.mem = s.mem ∧ t.memMap = s.memMap ∧
      t.offers = s.offers ∧ t.responses = s.responses ++ [r] ∧
      (r.extractLsb' 0 2).toNat = (match s.status with
        | .done => 0 | .destinationTooSmall => 1 | .needMoreData => 2 | .invalidData => 3) ∧
      r.extractLsb' 2 2 = 0#2 ∧ r.extractLsb' 4 4 = s.fault ∧ r.extractLsb' 8 24 = 0#24 ∧
      r.extractLsb' 32 32 = s.consumed ∧ r.extractLsb' 64 32 = s.written ∧ r.extractLsb' 96 32 = s.value

/-! ## The whole machine -/

/-- R30: the phases have the numbers of the table, and the transitions listed there are the only ones: a step that does
not wait goes along one of them. -/
def Obligations.PhaseTransitions : Prop :=
  (phaseCode .idle = 0#3 ∧ phaseCode .scanning = 1#3 ∧ phaseCode .bulkTransform = 2#3 ∧
    phaseCode .tailTransform = 3#3 ∧ phaseCode .done = 4#3) ∧
  ∀ s t : State, s.Quiet → step s = .next t →
    (t = s ∧ (s.phase = .idle ∧ s.offers = [] ∨ s.phase = .done ∧ s.hostTakes = false)) ∨
    phaseMayChange s.phase t.phase = true ∨ (t.phase = s.phase ∧ phaseMayStay s.phase = true)

/-- R64, R81, with the bytes of R225 and R226: a step in a transform phase writes exactly the destination bytes it counts.
`WRITTEN` grows by the number of bytes that the source bytes it counts in `CONSUMED` give, those bytes stand from
`DST_BASE + WRITTEN` on, inside the destination region, and every other byte of memory is as before; a step in another
phase writes nothing. -/
def Obligations.StepsWriteWhatTheyCount : Prop :=
  ∀ s t : State, s.Quiet → s.mem.wf = true → step s = .next t →
    (s.phase = .bulkTransform ∨ s.phase = .tailTransform →
      let output := s.outputOf (t.consumed.toNat - s.consumed.toNat)
      t.written.toNat = s.written.toNat + output.length ∧
      (output = [] ∨ t.written.toNat ≤ s.latch.dstCap.toNat) ∧
      StoredAt s t.mem (s.latch.dstBase.toNat + s.written.toNat) output) ∧
    (s.phase ≠ .bulkTransform → s.phase ≠ .tailTransform → t.mem = s.mem)

/-- R227, R250, R254: which outcome a command may end with: `ENC` never with `InvalidData`, either transfer with
`NeedMoreData` only without the final flag, a length command always with `Done`; and a fault is raised by Accept only,
with `STATUS`, both cursors and `VALUE` 0. -/
def Obligations.OutcomeOrigins : Prop :=
  ∀ s t : State, s.Quiet → step s = .next t → s.phase ≠ .done → t.phase = .done →
    (t.status = .invalidData → t.latch.op = 2#4) ∧
    (t.status = .needMoreData → t.latch.final = false ∧ (t.latch.op = 1#4 ∨ t.latch.op = 2#4)) ∧
    (t.status = .destinationTooSmall → t.latch.op = 1#4 ∨ t.latch.op = 2#4) ∧
    (t.fault ≠ 0#4 → s.phase = .idle ∧ t.fault.toNat ≤ 3 ∧ t.status = .done ∧ t.consumed = 0#32 ∧
      t.written = 0#32 ∧ t.value = 0#32)

/-- R31, R70, R94, R213, R254: what State.Inv says of a state (the memory's form, the cursors' bounds and their relation,
the regions of a command in flight, the guard of the bulk phase, the registers of an ended command) is kept by every
step. -/
def Obligations.InvariantKept : Prop := ∀ s t : State, s.Inv → step s = .next t → t.Inv

/-- The state after reset meets the invariant (with the model's own reset values, log 5, 29). -/
def Obligations.ResetMeetsInvariant : Prop := State.reset.Inv

/-- R80, R232, R250: a command that has been started always has a next step: no access leaves its region and nothing else
stops it; and at Accept the only stops are the two preconditions of R70 and R71 (where they are tested: log 7, 8). -/
def Obligations.StartedCommandsNeverStop : Prop :=
  ∀ s : State, s.Inv → s.resetIn = none →
    (s.phase ≠ .idle → ∃ t, step s = .next t) ∧
    (s.phase = .idle →
      (∃ t, step s = .next t) ∨ step s = .refused .regionsOverlap ∨ step s = .fault .regionNotMemory)

/-- R225, R218, R232: the command `ENC` as a function of its inputs: from Accept, at most `SRC_LEN div 3 + 3` further
steps reach `Done` with the status and counts of the rule, the symbols of the consumed bytes at the destination's start,
and every other byte of memory unchanged; at every capability level. -/
def Obligations.EncCommand : Prop :=
  ∀ (s : State) (final : Bool) (srcLen : Len) (srcBase : Addr) (dstCap : Len) (dstBase : Addr),
    s.Quiet → s.phase = .idle → s.mem.wf = true → Admitted s srcLen srcBase dstCap dstBase →
    ∃ a k t, exec (.enc final false srcLen srcBase dstCap dstBase) s = .next a ∧
      k ≤ srcLen.toNat / 3 + 3 ∧ runSteps k a = .next t ∧ t.phase = .done ∧ t.fault = 0#4 ∧ t.value = 0#32 ∧
      (t.status, t.consumed.toNat, t.written.toNat) = encodeResult srcLen.toNat dstCap.toNat final ∧
      StoredAt s t.mem dstBase.toNat
        (encodeList s.config.regs (s.mem.readBytes srcBase.toNat t.consumed.toNat)) ∧
      t.config = s.config ∧ t.offers = s.offers ∧ t.responses = s.responses

/-- R226, R218, R232: the command `DEC` as a function of its inputs: status, counts, the raw bytes at the destination's
start and nothing else in memory, as the rule's loop gives them; at every capability level. -/
def Obligations.DecCommand : Prop :=
  ∀ (s : State) (final : Bool) (srcLen : Len) (srcBase : Addr) (dstCap : Len) (dstBase : Addr),
    s.Quiet → s.phase = .idle → s.mem.wf = true → Admitted s srcLen srcBase dstCap dstBase →
    let r := decodeResult s.config.regs final dstCap.toNat (s.mem.readBytes srcBase.toNat srcLen.toNat)
    ∃ a k t, exec (.dec final false srcLen srcBase dstCap dstBase) s = .next a ∧
      k ≤ srcLen.toNat / 3 + 3 ∧ runSteps k a = .next t ∧ t.phase = .done ∧ t.fault = 0#4 ∧ t.value = 0#32 ∧
      t.status = r.1 ∧ t.consumed.toNat = r.2.1 ∧ t.written.toNat = r.2.2.length ∧
      StoredAt s t.mem dstBase.toNat r.2.2 ∧
      t.config = s.config ∧ t.offers = s.offers ∧ t.responses = s.responses

/-- R228: the response and the memory after a command do not depend on `CAP`, for two instances whose configurations differ
in `CAP` only. First, Accept does the same at both, whatever descriptor is on offer: a length command or a faulting one
ends with the same registers. Second, an `ENC` or `DEC` that is started ends with the same registers and the same memory.
(The host does not take the response yet, so that both stand at `Done` to be compared.) -/
def Obligations.CapabilityLevelUnobservable : Prop :=
  ∀ (s : State) (c : WfConfiguration), s.Quiet → s.phase = .idle → SameButCap s.config.regs c.regs →
    step { s with config := c } = mapNext (fun a => { a with config := c }) (step s) ∧
    ∀ (decoding final : Bool) (srcLen : Len) (srcBase : Addr) (dstCap : Len) (dstBase : Addr),
    s.mem.wf = true → s.hostTakes = false → Admitted s srcLen srcBase dstCap dstBase →
    let i : Instr := if decoding then .dec final false srcLen srcBase dstCap dstBase
      else .enc final false srcLen srcBase dstCap dstBase
    ∃ a1 a2 t1 t2, exec i s = .next a1 ∧ exec i { s with config := c } = .next a2 ∧
      runSteps (srcLen.toNat / 3 + 3) a1 = .next t1 ∧ runSteps (srcLen.toNat / 3 + 3) a2 = .next t2 ∧
      t1.phase = .done ∧ t2.phase = .done ∧ SameResponse t1 t2 ∧ t1.mem = t2.mem

/-- R37: the result of a command is a function of the configuration, the descriptor and the content of the source region.
Two states that agree on these, whatever else their registers and memory hold, give the same response: a command that ends
at Accept (a length command, a faulting command, an illegal descriptor) in the first clause, whose hypothesis on the source
is that of a `DECLEN`; an `ENC` or `DEC` in the second, with the same destination bytes. -/
def Obligations.SourceDeterminesResult : Prop :=
  ∀ s1 s2 : State, s1.Quiet → s2.Quiet → s1.phase = .idle → s2.phase = .idle → s1.config = s2.config →
    (∀ (d : Descriptor) (rest1 rest2 : List Descriptor) (a1 : State), s1.offers = d :: rest1 → s2.offers = d :: rest2 →
      (∀ n base, decode (.cmd d) = .ok (.declen false n base) → RegionInRange base n →
        readableMem s2.memMap base.toNat n.toNat = true ∧ ∀ a, InRegion base n a → s1.mem.read a = s2.mem.read a) →
      step s1 = .next a1 → a1.phase = .done →
      ∃ a2, step s2 = .next a2 ∧ a2.phase = .done ∧ SameResponse a1 a2) ∧
    ∀ (decoding final : Bool) (srcLen : Len) (srcBase : Addr) (dstCap : Len) (dstBase : Addr),
    s1.mem.wf = true → s2.mem.wf = true → s1.hostTakes = false → s2.hostTakes = false →
    Admitted s1 srcLen srcBase dstCap dstBase → Admitted s2 srcLen srcBase dstCap dstBase →
    (∀ a, InRegion srcBase srcLen a → s1.mem.read a = s2.mem.read a) →
    let i : Instr := if decoding then .dec final false srcLen srcBase dstCap dstBase
      else .enc final false srcLen srcBase dstCap dstBase
    ∃ a1 a2 t1 t2, exec i s1 = .next a1 ∧ exec i s2 = .next a2 ∧
      runSteps (srcLen.toNat / 3 + 3) a1 = .next t1 ∧ runSteps (srcLen.toNat / 3 + 3) a2 = .next t2 ∧
      t1.phase = .done ∧ t2.phase = .done ∧ SameResponse t1 t2 ∧
      ∀ j < t1.written.toNat, t1.mem.read (dstBase.toNat + j) = t2.mem.read (dstBase.toNat + j)

/-- R230: round trip through the machine: of an `ENC` and a `DEC` of what it wrote, offered one after the other with the
final flag and enough room, both responses are `Done` with the counts of the rule, and the destination of the second
holds the bytes of the source of the first. -/
def Obligations.RoundTrip : Prop :=
  ∀ (s : State) (n : Len) (srcBase : Addr) (midCap : Len) (midBase : Addr) (outCap : Len) (outBase : Addr)
    (d1 d2 : Descriptor),
    s.Quiet → s.phase = .idle → s.mem.wf = true → s.hostTakes = true → n.toNat ≤ Config.encMax →
    let e := 4 * ((n.toNat + 2) / 3)
    e ≤ midCap.toNat → n.toNat ≤ outCap.toNat →
    Admitted s n srcBase midCap midBase → Admitted s (BitVec.ofNat 32 e) midBase outCap outBase →
    encode (.enc true false n srcBase midCap midBase) = .cmd d1 →
    encode (.dec true false (BitVec.ofNat 32 e) midBase outCap outBase) = .cmd d2 → s.offers = [d1, d2] →
    ∃ k t r1 r2, runSteps k s = .next t ∧ t.phase = .idle ∧ t.offers = [] ∧ t.responses = s.responses ++ [r1, r2] ∧
      rspFault r1 = 0#4 ∧ rspStatus r1 = 0#2 ∧ rspConsumed r1 = n ∧ (rspWritten r1).toNat = e ∧
      rspFault r2 = 0#4 ∧ rspStatus r2 = 0#2 ∧ (rspConsumed r2).toNat = e ∧ rspWritten r2 = n ∧
      ∀ j < n.toNat, t.mem.read (outBase.toNat + j) = s.mem.read (srcBase.toNat + j)

/-- R229 for a split into two chunks that lie one after the other in memory: an `ENC` of the first without the final flag
and a final `ENC` of what it did not consume together with the second write what one final `ENC` of the whole writes.
(Splits into more chunks, and the rule's same claim for `DEC`, are not stated.) -/
def Obligations.StreamedEncodeEqualsWhole : Prop :=
  ∀ (s : State) (n first : Len) (srcBase : Addr) (dstCap : Len) (dstBase : Addr) (d1 d2 : Descriptor),
    s.Quiet → s.phase = .idle → s.mem.wf = true → s.hostTakes = true → Admitted s n srcBase dstCap dstBase →
    first.toNat ≤ n.toNat → 4 * ((n.toNat + 2) / 3) ≤ dstCap.toNat →
    let groups := first.toNat / 3
    encode (.enc false false first srcBase dstCap dstBase) = .cmd d1 →
    encode (.enc true false (n - BitVec.ofNat 32 (3 * groups)) (srcBase + BitVec.ofNat 64 (3 * groups))
      (dstCap - BitVec.ofNat 32 (4 * groups)) (dstBase + BitVec.ofNat 64 (4 * groups))) = .cmd d2 →
    s.offers = [d1, d2] →
    ∃ k t r1 r2, runSteps k s = .next t ∧ t.phase = .idle ∧ t.offers = [] ∧ t.responses = s.responses ++ [r1, r2] ∧
      rspFault r1 = 0#4 ∧ rspStatus r1 = (if first.toNat % 3 = 0 then 0#2 else 2#2) ∧
      (rspConsumed r1).toNat = 3 * groups ∧ rspFault r2 = 0#4 ∧ rspStatus r2 = 0#2 ∧
      (rspWritten r1).toNat + (rspWritten r2).toNat = 4 * ((n.toNat + 2) / 3) ∧
      StoredAt s t.mem dstBase.toNat (encodeList s.config.regs (s.mem.readBytes srcBase.toNat n.toNat))

end
end

