-- ==== Sys2Proof/Laws/Encoding.lean ====
section
/-! SUPPORT. The fields of a packed descriptor, and a descriptor from its fields (R90): what proofs about the decoder and
the encoder cite. -/

namespace Sys2Proof

/-- Appending bit vectors is shifting and adding. -/
theorem toNat_append_add {n m : Nat} (x : BitVec n) (y : BitVec m) : (x ++ y).toNat = x.toNat * 2 ^ m + y.toNat := by
  rw [BitVec.toNat_append, ← Nat.shiftLeft_add_eq_or_of_lt y.isLt, Nat.shiftLeft_eq]

/-- The number a packed descriptor is (R90). -/
theorem packDescriptor_toNat (op : BitVec 4) (f e : Bool) (srcLen : Len) (srcBase : Addr) (dstCap : Len) (dstBase : Addr) :
    (packDescriptor op f e srcLen srcBase dstCap dstBase).toNat = dstBase.toNat * 2 ^ 192 + dstCap.toNat * 2 ^ 160 +
      srcBase.toNat * 2 ^ 64 + srcLen.toNat * 2 ^ 32 + e.toNat * 32 + f.toNat * 16 + op.toNat := by
  have h : (packDescriptor op f e srcLen srcBase dstCap dstBase).toNat = (dstBase ++ dstCap ++ 0#32 ++ srcBase ++
    srcLen ++ 0#26 ++ BitVec.ofBool e ++ BitVec.ofBool f ++ op).toNat := rfl
  rw [h]
  simp only [toNat_append_add, BitVec.toNat_ofBool, BitVec.toNat_ofNat]
  omega

/-- Bit `k` of a descriptor, from the number it is. -/
theorem toNat_getLsbD (d : Descriptor) (k : Nat) : (d.getLsbD k).toNat = d.toNat / 2 ^ k % 2 := by
  rw [BitVec.getLsbD, Nat.testBit_eq_decide_div_mod_eq]
  rcases Nat.mod_two_eq_zero_or_one (d.toNat / 2 ^ k) with h | h <;> simp [h]

/-- Every field of a packed descriptor reads back what was packed, and both reserved fields are 0 (R90, R91). -/
theorem packDescriptor_fields (op : BitVec 4) (f e : Bool) (srcLen : Len) (srcBase : Addr) (dstCap : Len) (dstBase : Addr)
    (d : Descriptor) (hd : d = packDescriptor op f e srcLen srcBase dstCap dstBase) :
    descOp d = op ∧ descFinal d = f ∧ descElem d = e ∧ descRsv0 d = 0#26 ∧ descSrcLen d = srcLen ∧
      descSrcBase d = srcBase ∧ descRsv1 d = 0#32 ∧ descDstCap d = dstCap ∧ descDstBase d = dstBase := by
  have hN : d.toNat = _ := (congrArg _ hd).trans (packDescriptor_toNat op f e srcLen srcBase dstCap dstBase)
  clear hd
  have h1 := op.isLt
  have h2 := srcLen.isLt
  have h3 := srcBase.isLt
  have h4 := dstCap.isLt
  have h5 := dstBase.isLt
  have hf := f.toNat_le
  have he := e.toNat_le
  have bit : ∀ (k : Nat) (b : Bool), d.toNat / 2 ^ k % 2 = b.toNat → d.getLsbD k = b := fun k b h => by
    rw [← toNat_getLsbD] at h
    revert h
    cases d.getLsbD k <;> cases b <;> simp
  refine ⟨?_, bit _ _ ?_, bit _ _ ?_, ?_, ?_, ?_, ?_, ?_, ?_⟩
  all_goals first
    | (rw [hN]; omega)
    | (apply BitVec.eq_of_toNat_eq
       simp only [descOp, descRsv0, descSrcLen, descSrcBase, descRsv1, descDstCap, descDstBase,
         BitVec.extractLsb'_toNat, Nat.shiftRight_eq_div_pow, hN, BitVec.toNat_ofNat]
       omega)

/-- A descriptor without reserved bits is the packing of its fields (R90). -/
theorem packDescriptor_of_fields (d : Descriptor) (h0 : descRsv0 d = 0#26) (h1 : descRsv1 d = 0#32) :
    packDescriptor (descOp d) (descFinal d) (descElem d) (descSrcLen d) (descSrcBase d) (descDstCap d) (descDstBase d) =
      d := by
  apply BitVec.eq_of_toNat_eq
  rw [packDescriptor_toNat]
  have h0 := congrArg BitVec.toNat h0
  have h1 := congrArg BitVec.toNat h1
  simp only [descOp, descRsv0, descSrcLen, descSrcBase, descRsv1, descDstCap, descDstBase, descFinal, descElem,
    toNat_getLsbD, BitVec.extractLsb'_toNat, Nat.shiftRight_eq_div_pow, BitVec.toNat_ofNat] at *
  have := d.isLt
  omega

end Sys2Proof
end

