-- ==== Sys2Proof/Laws/Memory.lean ====
section
/-! SUPPORT. The laws of the memory (20_memory.md R60, R63, R64): a read after a write, a write leaves every other byte
alone, every memory operation keeps the canonical form, and the two inversion lemmas of the access primitives. -/

namespace Sys2Proof.Machine

/-- A lower bound of the canonical form may be lowered. -/
theorem Memory.wfFrom_mono {lo lo' : Nat} (h : lo' ≤ lo) : ∀ {m : Memory}, Memory.wfFrom lo m = true → Memory.wfFrom lo' m = true
  | [], _ => rfl
  | (b, v) :: rest, hm => by
    simp only [Memory.wfFrom, Bool.and_eq_true, decide_eq_true_eq] at hm ⊢
    exact ⟨⟨⟨by omega, hm.1.1.2⟩, hm.1.2⟩, hm.2⟩

/-- Nothing is listed below the bound of the canonical form. -/
theorem Memory.read_below {lo a : Nat} (h : a < lo) : ∀ {m : Memory}, Memory.wfFrom lo m = true → m.read a = Memory.unlisted
  | [], _ => rfl
  | (b, v) :: rest, hm => by
    simp only [Memory.wfFrom, Bool.and_eq_true, decide_eq_true_eq] at hm
    simp [Memory.read, show a < b by omega]

/-- A write at or above the bound keeps the canonical form. -/
theorem Memory.wfFrom_write {a : Nat} (ha : a < Config.addressSpace) (v : Byte) :
    ∀ {lo : Nat} {m : Memory}, lo ≤ a → Memory.wfFrom lo m = true → Memory.wfFrom lo (m.write a v) = true
  | lo, [], hlo, _ => by
    unfold Memory.write; split <;> simp_all [Memory.wfFrom]
  | lo, (b, w) :: rest, hlo, hm => by
    have hm' := hm
    simp only [Memory.wfFrom, Bool.and_eq_true, decide_eq_true_eq] at hm
    obtain ⟨⟨⟨hb, hs⟩, hw⟩, hr⟩ := hm
    unfold Memory.write
    split
    · split
      · exact hm'
      · rename_i hab hv
        simp only [Memory.wfFrom, Bool.and_eq_true, decide_eq_true_eq]
        exact ⟨⟨⟨hlo, ha⟩, hv⟩, ⟨⟨by omega, hs⟩, hw⟩, hr⟩
    · split
      · split
        · exact Memory.wfFrom_mono (by omega) hr
        · rename_i _ hab hv
          subst hab
          simp only [Memory.wfFrom, Bool.and_eq_true, decide_eq_true_eq]
          exact ⟨⟨⟨hlo, ha⟩, hv⟩, hr⟩
      · simp only [Memory.wfFrom, Bool.and_eq_true, decide_eq_true_eq]
        exact ⟨⟨⟨hb, hs⟩, hw⟩, Memory.wfFrom_write ha v (by omega) hr⟩

/-- A write inside the address space keeps the canonical form. -/
theorem Memory.wf_write {m : Memory} {a : Nat} (h : m.wf = true) (ha : a < Config.addressSpace) (v : Byte) :
    (m.write a v).wf = true := Memory.wfFrom_write ha v (Nat.zero_le a) h

/-- A read after a write, in a memory canonical above a bound at or below the address. -/
theorem Memory.read_write_from {a : Nat} (v : Byte) (x : Nat) :
    ∀ {lo : Nat} {m : Memory}, Memory.wfFrom lo m = true → (m.write a v).read x = if x = a then v else m.read x
  | lo, [], _ => by
    unfold Memory.write
    split
    · by_cases h : x = a <;> simp_all [Memory.read]
    · simp only [Memory.read]
      split
      · rename_i h; simp [show x ≠ a by omega]
      · rfl
  | lo, (b, w) :: rest, hm => by
    simp only [Memory.wfFrom, Bool.and_eq_true, decide_eq_true_eq] at hm
    obtain ⟨⟨⟨hb, hs⟩, hw⟩, hr⟩ := hm
    unfold Memory.write
    by_cases hab : a < b
    · rw [if_pos hab]
      by_cases hv : v = Memory.unlisted
      · rw [if_pos hv]
        by_cases hx : x = a
        · simp [hx, Memory.read, hab, hv]
        · simp [hx]
      · rw [if_neg hv]
        by_cases hx : x = a
        · simp [hx, Memory.read]
        · by_cases hlt : x < a
          · simp [hx, Memory.read, hlt, show x < b by omega]
          · rw [Memory.read, if_neg hlt, if_neg hx]
    · rw [if_neg hab]
      by_cases heq : a = b
      · subst heq
        rw [if_pos rfl]
        by_cases hv : v = Memory.unlisted
        · rw [if_pos hv]
          by_cases hx : x = a
          · rw [if_pos hx, hv, hx]; exact Memory.read_below (by omega) hr
          · rw [if_neg hx]
            by_cases hlt : x < a
            · rw [Memory.read_below (by omega) hr]; simp [Memory.read, hlt]
            · simp [Memory.read, hlt, hx]
        · rw [if_neg hv]
          by_cases hx : x = a <;> simp [Memory.read, hx]
      · rw [if_neg heq]
        simp only [Memory.read]
        rw [Memory.read_write_from v x hr]
        by_cases hx : x = a
        · simp [hx, hab, heq]
        · simp [hx]

/-- A read after a write gives the byte written at its address and leaves every other byte alone (R64). -/
theorem Memory.read_write {m : Memory} (h : m.wf = true) (a : Nat) (v : Byte) (x : Nat) :
    (m.write a v).read x = if x = a then v else m.read x := Memory.read_write_from v x h

/-- The canonical form is canonical: memories that read alike are equal. -/
theorem Memory.eq_of_read_from : ∀ {lo : Nat} {m n : Memory}, Memory.wfFrom lo m = true → Memory.wfFrom lo n = true →
    (∀ a, m.read a = n.read a) → m = n
  | _, [], [], _, _, _ => rfl
  | lo, [], (b, v) :: rest, _, hn, h => by
    simp only [Memory.wfFrom, Bool.and_eq_true, decide_eq_true_eq] at hn
    have := h b
    simp only [Memory.read, Nat.lt_irrefl, if_false, if_true] at this
    exact absurd this.symm hn.1.2
  | lo, (b, v) :: rest, [], hm, _, h => by
    simp only [Memory.wfFrom, Bool.and_eq_true, decide_eq_true_eq] at hm
    have := h b
    simp only [Memory.read, Nat.lt_irrefl, if_false, if_true] at this
    exact absurd this hm.1.2
  | lo, (b, v) :: rest, (c, w) :: tail, hm, hn, h => by
    simp only [Memory.wfFrom, Bool.and_eq_true, decide_eq_true_eq] at hm hn
    have hb := h b
    have hc := h c
    simp only [Memory.read, Nat.lt_irrefl, if_false, if_true] at hb hc
    by_cases hlt : b < c
    · rw [if_pos hlt] at hb; exact absurd hb hm.1.2
    by_cases hgt : c < b
    · rw [if_pos hgt] at hc; exact absurd hc.symm hn.1.2
    have e : b = c := by omega
    subst e
    simp only [Nat.lt_irrefl, if_false, if_true] at hb
    subst hb
    congr 1
    refine Memory.eq_of_read_from hm.2 hn.2 fun a => ?_
    by_cases ha : a ≤ b
    · rw [Memory.read_below (by omega) hm.2, Memory.read_below (by omega) hn.2]
    · have := h a
      simpa only [Memory.read, if_neg (show ¬a < b by omega), if_neg (show ¬a = b by omega)] using this

/-- Canonical memories that read alike are equal. -/
theorem Memory.eq_of_read {m n : Memory} (hm : m.wf = true) (hn : n.wf = true) (h : ∀ a, m.read a = n.read a) : m = n :=
  Memory.eq_of_read_from hm hn h

@[simp] theorem Memory.writeBytes_nil (m : Memory) (a : Nat) : m.writeBytes a [] = m := rfl

@[simp] theorem Memory.writeBytes_cons (m : Memory) (a : Nat) (v : Byte) (vs : List Byte) :
    m.writeBytes a (v :: vs) = (m.write a v).writeBytes (a + 1) vs := rfl

/-- Storing a list of bytes inside the address space keeps the canonical form. -/
theorem Memory.wf_writeBytes : ∀ {m : Memory} {a : Nat} {vs : List Byte}, m.wf = true →
    a + vs.length ≤ Config.addressSpace → (m.writeBytes a vs).wf = true
  | _, _, [], h, _ => h
  | m, a, v :: vs, h, ha => by
    simp only [List.length_cons] at ha
    rw [Memory.writeBytes_cons]
    exact Memory.wf_writeBytes (Memory.wf_write h (by omega) v) (by omega)

/-- A read after storing a list of bytes: byte `x - a` of the list inside the stored range, the old byte outside (R64). -/
theorem Memory.read_writeBytes : ∀ {m : Memory} {a : Nat} {vs : List Byte} (x : Nat), m.wf = true →
    a + vs.length ≤ Config.addressSpace →
    (m.writeBytes a vs).read x = if a ≤ x ∧ x < a + vs.length then vs.getD (x - a) 0#8 else m.read x
  | m, a, [], x, _, _ => by simp [show ¬(a ≤ x ∧ x < a) by omega]
  | m, a, v :: vs, x, h, ha => by
    simp only [List.length_cons] at ha ⊢
    rw [Memory.writeBytes_cons, Memory.read_writeBytes x (Memory.wf_write h (by omega) v) (by omega),
      Memory.read_write h]
    by_cases h1 : a + 1 ≤ x ∧ x < a + 1 + vs.length
    · rw [if_pos h1, if_pos (by omega), show x - a = (x - (a + 1)) + 1 by omega, List.getD_cons_succ]
    · rw [if_neg h1]
      by_cases h2 : x = a
      · subst h2; simp
      · rw [if_neg h2, if_neg (by omega)]

@[simp] theorem Memory.length_readBytes (m : Memory) (a n : Nat) : (m.readBytes a n).length = n := by
  simp [Memory.readBytes]

/-- Byte `i` of a read (R63). -/
theorem Memory.getD_readBytes (m : Memory) (a : Nat) {i n : Nat} (h : i < n) (d : Byte) :
    (m.readBytes a n).getD i d = m.read (a + i) := by
  simp [Memory.readBytes, List.getD, h]

/-- Everything a read can do: it answers the bytes in address order, from inside the source region, and changes nothing
(R63). -/
theorem memRead_ok {s : State} {a n : Nat} {bytes : List Byte} (h : memRead s a n = .ok bytes) :
    insideSource s.latch a n = true ∧ readableMem s.memMap a n = true ∧ bytes = s.mem.readBytes a n := by
  unfold memRead at h
  split at h
  · cases h
  · split at h
    · cases h
    · simp_all

/-- A read inside the source region, from memory, completes (R63, R70). -/
theorem memRead_of_inside {s : State} {a n : Nat} (h1 : insideSource s.latch a n = true)
    (h2 : readableMem s.memMap a n = true) : memRead s a n = .ok (s.mem.readBytes a n) := by
  simp [memRead, h1, h2]

/-- Everything a write can do: only the memory changes, by the bytes stored inside the destination region (R64). -/
theorem memWrite_ok {s t : State} {a : Nat} {bytes : List Byte} (h : memWrite s a bytes = .ok t) :
    insideDestination s.latch a bytes.length = true ∧ writableMem s.memMap a bytes.length = true ∧
      t = { s with mem := s.mem.writeBytes a bytes } := by
  unfold memWrite at h
  split at h
  · cases h
  · split at h
    · cases h
    · simp_all

/-- A write inside the destination region, to memory, completes (R64, R70). -/
theorem memWrite_of_inside {s : State} {a : Nat} {bytes : List Byte}
    (h1 : insideDestination s.latch a bytes.length = true) (h2 : writableMem s.memMap a bytes.length = true) :
    memWrite s a bytes = .ok { s with mem := s.mem.writeBytes a bytes } := by
  simp [memWrite, h1, h2]

/-- A read that does not lie in the source region stops (R63). -/
theorem memRead_outside {s : State} {a n : Nat} (h : insideSource s.latch a n = false) :
    memRead s a n = .error .readOutsideSource := by simp [memRead, h]

/-- A write that does not lie in the destination region stops (R64). -/
theorem memWrite_outside {s : State} {a : Nat} {bytes : List Byte} (h : insideDestination s.latch a bytes.length = false) :
    memWrite s a bytes = .error .writeOutsideDestination := by simp [memWrite, h]

/-- Writable memory is inside the address space (R70). -/
theorem le_addressSpace_of_writableMem {map : List MemRegion} {a n : Nat} (h : writableMem map a n = true) :
    a + n ≤ Config.addressSpace := by
  simp only [writableMem, Bool.and_eq_true, decide_eq_true_eq] at h; exact h.1

/-- A write keeps the canonical form of the memory. -/
theorem memWrite_keeps_wf {s t : State} {a : Nat} {bytes : List Byte} (h : memWrite s a bytes = .ok t)
    (hw : s.mem.wf = true) : t.mem.wf = true := by
  obtain ⟨_, h2, rfl⟩ := memWrite_ok h
  exact Memory.wf_writeBytes hw (le_addressSpace_of_writableMem h2)

/-- What every byte of memory reads as after a write (R64). -/
theorem memWrite_read {s t : State} {a : Nat} {bytes : List Byte} (h : memWrite s a bytes = .ok t)
    (hw : s.mem.wf = true) (x : Nat) :
    t.mem.read x = if a ≤ x ∧ x < a + bytes.length then bytes.getD (x - a) 0#8 else s.mem.read x := by
  obtain ⟨_, h2, rfl⟩ := memWrite_ok h
  exact Memory.read_writeBytes x hw (le_addressSpace_of_writableMem h2)

end Sys2Proof.Machine
end

