-- ==== Sys2Proof/Laws/State.lean ====
section
/-! SUPPORT. What every state update of the model leaves in every field: one lemma per field and update, so that no proof
unfolds a record update. -/

namespace Sys2Proof.Machine

/-! ## setEncoder -/

@[simp] theorem setEncoder_config (w : GroupWord) (out : Vector Byte 4) (s : State) : (setEncoder w out s).config = s.config := rfl
@[simp] theorem setEncoder_latch (w : GroupWord) (out : Vector Byte 4) (s : State) : (setEncoder w out s).latch = s.latch := rfl
@[simp] theorem setEncoder_phase (w : GroupWord) (out : Vector Byte 4) (s : State) : (setEncoder w out s).phase = s.phase := rfl
@[simp] theorem setEncoder_consumed (w : GroupWord) (out : Vector Byte 4) (s : State) : (setEncoder w out s).consumed = s.consumed := rfl
@[simp] theorem setEncoder_written (w : GroupWord) (out : Vector Byte 4) (s : State) : (setEncoder w out s).written = s.written := rfl
@[simp] theorem setEncoder_status (w : GroupWord) (out : Vector Byte 4) (s : State) : (setEncoder w out s).status = s.status := rfl
@[simp] theorem setEncoder_fault (w : GroupWord) (out : Vector Byte 4) (s : State) : (setEncoder w out s).fault = s.fault := rfl
@[simp] theorem setEncoder_value (w : GroupWord) (out : Vector Byte 4) (s : State) : (setEncoder w out s).value = s.value := rfl
@[simp] theorem setEncoder_units (w : GroupWord) (out : Vector Byte 4) (s : State) : (setEncoder w out s).units = { s.units with seW := w, seOut := out } := rfl
@[simp] theorem setEncoder_mem (w : GroupWord) (out : Vector Byte 4) (s : State) : (setEncoder w out s).mem = s.mem := rfl
@[simp] theorem setEncoder_memMap (w : GroupWord) (out : Vector Byte 4) (s : State) : (setEncoder w out s).memMap = s.memMap := rfl
@[simp] theorem setEncoder_offers (w : GroupWord) (out : Vector Byte 4) (s : State) : (setEncoder w out s).offers = s.offers := rfl
@[simp] theorem setEncoder_responses (w : GroupWord) (out : Vector Byte 4) (s : State) : (setEncoder w out s).responses = s.responses := rfl
@[simp] theorem setEncoder_hostTakes (w : GroupWord) (out : Vector Byte 4) (s : State) : (setEncoder w out s).hostTakes = s.hostTakes := rfl
@[simp] theorem setEncoder_resetIn (w : GroupWord) (out : Vector Byte 4) (s : State) : (setEncoder w out s).resetIn = s.resetIn := rfl
@[simp] theorem setEncoder_uopSel (w : GroupWord) (out : Vector Byte 4) (s : State) : (setEncoder w out s).uopSel = s.uopSel := rfl
@[simp] theorem setEncoder_tick (w : GroupWord) (out : Vector Byte 4) (s : State) : (setEncoder w out s).tick = s.tick := rfl
@[simp] theorem setEncoder_lanes (w : GroupWord) (out : Vector Byte 4) (s : State) : (setEncoder w out s).lanes = s.lanes := rfl
@[simp] theorem setEncoder_window (w : GroupWord) (out : Vector Byte 4) (s : State) : (setEncoder w out s).window = s.window := rfl
@[simp] theorem setEncoder_srcAddr (w : GroupWord) (out : Vector Byte 4) (s : State) : (setEncoder w out s).srcAddr = s.srcAddr := rfl
@[simp] theorem setEncoder_dstAddr (w : GroupWord) (out : Vector Byte 4) (s : State) : (setEncoder w out s).dstAddr = s.dstAddr := rfl
@[simp] theorem setEncoder_remaining (w : GroupWord) (out : Vector Byte 4) (s : State) : (setEncoder w out s).remaining = s.remaining := rfl
@[simp] theorem setEncoder_room (w : GroupWord) (out : Vector Byte 4) (s : State) : (setEncoder w out s).room = s.room := rfl

/-! ## setDecoder -/

@[simp] theorem setDecoder_config (r : Option (GroupWord × List Byte)) (s : State) : (setDecoder r s).config = s.config := by cases r <;> rfl
@[simp] theorem setDecoder_latch (r : Option (GroupWord × List Byte)) (s : State) : (setDecoder r s).latch = s.latch := by cases r <;> rfl
@[simp] theorem setDecoder_phase (r : Option (GroupWord × List Byte)) (s : State) : (setDecoder r s).phase = s.phase := by cases r <;> rfl
@[simp] theorem setDecoder_consumed (r : Option (GroupWord × List Byte)) (s : State) : (setDecoder r s).consumed = s.consumed := by cases r <;> rfl
@[simp] theorem setDecoder_written (r : Option (GroupWord × List Byte)) (s : State) : (setDecoder r s).written = s.written := by cases r <;> rfl
@[simp] theorem setDecoder_status (r : Option (GroupWord × List Byte)) (s : State) : (setDecoder r s).status = s.status := by cases r <;> rfl
@[simp] theorem setDecoder_fault (r : Option (GroupWord × List Byte)) (s : State) : (setDecoder r s).fault = s.fault := by cases r <;> rfl
@[simp] theorem setDecoder_value (r : Option (GroupWord × List Byte)) (s : State) : (setDecoder r s).value = s.value := by cases r <;> rfl
@[simp] theorem setDecoder_mem (r : Option (GroupWord × List Byte)) (s : State) : (setDecoder r s).mem = s.mem := by cases r <;> rfl
@[simp] theorem setDecoder_memMap (r : Option (GroupWord × List Byte)) (s : State) : (setDecoder r s).memMap = s.memMap := by cases r <;> rfl
@[simp] theorem setDecoder_offers (r : Option (GroupWord × List Byte)) (s : State) : (setDecoder r s).offers = s.offers := by cases r <;> rfl
@[simp] theorem setDecoder_responses (r : Option (GroupWord × List Byte)) (s : State) : (setDecoder r s).responses = s.responses := by cases r <;> rfl
@[simp] theorem setDecoder_hostTakes (r : Option (GroupWord × List Byte)) (s : State) : (setDecoder r s).hostTakes = s.hostTakes := by cases r <;> rfl
@[simp] theorem setDecoder_resetIn (r : Option (GroupWord × List Byte)) (s : State) : (setDecoder r s).resetIn = s.resetIn := by cases r <;> rfl
@[simp] theorem setDecoder_uopSel (r : Option (GroupWord × List Byte)) (s : State) : (setDecoder r s).uopSel = s.uopSel := by cases r <;> rfl
@[simp] theorem setDecoder_lanes (r : Option (GroupWord × List Byte)) (s : State) : (setDecoder r s).lanes = s.lanes := by simp [State.lanes]
@[simp] theorem setDecoder_window (r : Option (GroupWord × List Byte)) (s : State) : (setDecoder r s).window = s.window := by simp [State.window]
@[simp] theorem setDecoder_srcAddr (r : Option (GroupWord × List Byte)) (s : State) : (setDecoder r s).srcAddr = s.srcAddr := by simp [State.srcAddr]
@[simp] theorem setDecoder_dstAddr (r : Option (GroupWord × List Byte)) (s : State) : (setDecoder r s).dstAddr = s.dstAddr := by simp [State.dstAddr]
@[simp] theorem setDecoder_remaining (r : Option (GroupWord × List Byte)) (s : State) : (setDecoder r s).remaining = s.remaining := by simp [State.remaining]
@[simp] theorem setDecoder_room (r : Option (GroupWord × List Byte)) (s : State) : (setDecoder r s).room = s.room := by simp [State.room]

/-! ## seGroup -/

@[simp] theorem seGroup_config (s : State) : (seGroup s).config = s.config := rfl
@[simp] theorem seGroup_latch (s : State) : (seGroup s).latch = s.latch := rfl
@[simp] theorem seGroup_phase (s : State) : (seGroup s).phase = s.phase := rfl
@[simp] theorem seGroup_consumed (s : State) : (seGroup s).consumed = s.consumed := rfl
@[simp] theorem seGroup_written (s : State) : (seGroup s).written = s.written := rfl
@[simp] theorem seGroup_status (s : State) : (seGroup s).status = s.status := rfl
@[simp] theorem seGroup_fault (s : State) : (seGroup s).fault = s.fault := rfl
@[simp] theorem seGroup_value (s : State) : (seGroup s).value = s.value := rfl
@[simp] theorem seGroup_mem (s : State) : (seGroup s).mem = s.mem := rfl
@[simp] theorem seGroup_memMap (s : State) : (seGroup s).memMap = s.memMap := rfl
@[simp] theorem seGroup_offers (s : State) : (seGroup s).offers = s.offers := rfl
@[simp] theorem seGroup_responses (s : State) : (seGroup s).responses = s.responses := rfl
@[simp] theorem seGroup_hostTakes (s : State) : (seGroup s).hostTakes = s.hostTakes := rfl
@[simp] theorem seGroup_resetIn (s : State) : (seGroup s).resetIn = s.resetIn := rfl
@[simp] theorem seGroup_uopSel (s : State) : (seGroup s).uopSel = s.uopSel := rfl
@[simp] theorem seGroup_tick (s : State) : (seGroup s).tick = s.tick := rfl
@[simp] theorem seGroup_lanes (s : State) : (seGroup s).lanes = s.lanes := rfl
@[simp] theorem seGroup_window (s : State) : (seGroup s).window = s.window := rfl
@[simp] theorem seGroup_srcAddr (s : State) : (seGroup s).srcAddr = s.srcAddr := rfl
@[simp] theorem seGroup_dstAddr (s : State) : (seGroup s).dstAddr = s.dstAddr := rfl
@[simp] theorem seGroup_remaining (s : State) : (seGroup s).remaining = s.remaining := rfl
@[simp] theorem seGroup_room (s : State) : (seGroup s).room = s.room := rfl

/-! ## seTail2 -/

@[simp] theorem seTail2_config (s : State) : (seTail2 s).config = s.config := rfl
@[simp] theorem seTail2_latch (s : State) : (seTail2 s).latch = s.latch := rfl
@[simp] theorem seTail2_phase (s : State) : (seTail2 s).phase = s.phase := rfl
@[simp] theorem seTail2_consumed (s : State) : (seTail2 s).consumed = s.consumed := rfl
@[simp] theorem seTail2_written (s : State) : (seTail2 s).written = s.written := rfl
@[simp] theorem seTail2_status (s : State) : (seTail2 s).status = s.status := rfl
@[simp] theorem seTail2_fault (s : State) : (seTail2 s).fault = s.fault := rfl
@[simp] theorem seTail2_value (s : State) : (seTail2 s).value = s.value := rfl
@[simp] theorem seTail2_mem (s : State) : (seTail2 s).mem = s.mem := rfl
@[simp] theorem seTail2_memMap (s : State) : (seTail2 s).memMap = s.memMap := rfl
@[simp] theorem seTail2_offers (s : State) : (seTail2 s).offers = s.offers := rfl
@[simp] theorem seTail2_responses (s : State) : (seTail2 s).responses = s.responses := rfl
@[simp] theorem seTail2_hostTakes (s : State) : (seTail2 s).hostTakes = s.hostTakes := rfl
@[simp] theorem seTail2_resetIn (s : State) : (seTail2 s).resetIn = s.resetIn := rfl
@[simp] theorem seTail2_uopSel (s : State) : (seTail2 s).uopSel = s.uopSel := rfl
@[simp] theorem seTail2_tick (s : State) : (seTail2 s).tick = s.tick := rfl
@[simp] theorem seTail2_lanes (s : State) : (seTail2 s).lanes = s.lanes := rfl
@[simp] theorem seTail2_window (s : State) : (seTail2 s).window = s.window := rfl
@[simp] theorem seTail2_srcAddr (s : State) : (seTail2 s).srcAddr = s.srcAddr := rfl
@[simp] theorem seTail2_dstAddr (s : State) : (seTail2 s).dstAddr = s.dstAddr := rfl
@[simp] theorem seTail2_remaining (s : State) : (seTail2 s).remaining = s.remaining := rfl
@[simp] theorem seTail2_room (s : State) : (seTail2 s).room = s.room := rfl

/-! ## seTail1 -/

@[simp] theorem seTail1_config (s : State) : (seTail1 s).config = s.config := rfl
@[simp] theorem seTail1_latch (s : State) : (seTail1 s).latch = s.latch := rfl
@[simp] theorem seTail1_phase (s : State) : (seTail1 s).phase = s.phase := rfl
@[simp] theorem seTail1_consumed (s : State) : (seTail1 s).consumed = s.consumed := rfl
@[simp] theorem seTail1_written (s : State) : (seTail1 s).written = s.written := rfl
@[simp] theorem seTail1_status (s : State) : (seTail1 s).status = s.status := rfl
@[simp] theorem seTail1_fault (s : State) : (seTail1 s).fault = s.fault := rfl
@[simp] theorem seTail1_value (s : State) : (seTail1 s).value = s.value := rfl
@[simp] theorem seTail1_mem (s : State) : (seTail1 s).mem = s.mem := rfl
@[simp] theorem seTail1_memMap (s : State) : (seTail1 s).memMap = s.memMap := rfl
@[simp] theorem seTail1_offers (s : State) : (seTail1 s).offers = s.offers := rfl
@[simp] theorem seTail1_responses (s : State) : (seTail1 s).responses = s.responses := rfl
@[simp] theorem seTail1_hostTakes (s : State) : (seTail1 s).hostTakes = s.hostTakes := rfl
@[simp] theorem seTail1_resetIn (s : State) : (seTail1 s).resetIn = s.resetIn := rfl
@[simp] theorem seTail1_uopSel (s : State) : (seTail1 s).uopSel = s.uopSel := rfl
@[simp] theorem seTail1_tick (s : State) : (seTail1 s).tick = s.tick := rfl
@[simp] theorem seTail1_lanes (s : State) : (seTail1 s).lanes = s.lanes := rfl
@[simp] theorem seTail1_window (s : State) : (seTail1 s).window = s.window := rfl
@[simp] theorem seTail1_srcAddr (s : State) : (seTail1 s).srcAddr = s.srcAddr := rfl
@[simp] theorem seTail1_dstAddr (s : State) : (seTail1 s).dstAddr = s.dstAddr := rfl
@[simp] theorem seTail1_remaining (s : State) : (seTail1 s).remaining = s.remaining := rfl
@[simp] theorem seTail1_room (s : State) : (seTail1 s).room = s.room := rfl

/-! ## sdGroup -/

@[simp] theorem sdGroup_config (s : State) : (sdGroup s).config = s.config := by simp [sdGroup]
@[simp] theorem sdGroup_latch (s : State) : (sdGroup s).latch = s.latch := by simp [sdGroup]
@[simp] theorem sdGroup_phase (s : State) : (sdGroup s).phase = s.phase := by simp [sdGroup]
@[simp] theorem sdGroup_consumed (s : State) : (sdGroup s).consumed = s.consumed := by simp [sdGroup]
@[simp] theorem sdGroup_written (s : State) : (sdGroup s).written = s.written := by simp [sdGroup]
@[simp] theorem sdGroup_status (s : State) : (sdGroup s).status = s.status := by simp [sdGroup]
@[simp] theorem sdGroup_fault (s : State) : (sdGroup s).fault = s.fault := by simp [sdGroup]
@[simp] theorem sdGroup_value (s : State) : (sdGroup s).value = s.value := by simp [sdGroup]
@[simp] theorem sdGroup_mem (s : State) : (sdGroup s).mem = s.mem := by simp [sdGroup]
@[simp] theorem sdGroup_memMap (s : State) : (sdGroup s).memMap = s.memMap := by simp [sdGroup]
@[simp] theorem sdGroup_offers (s : State) : (sdGroup s).offers = s.offers := by simp [sdGroup]
@[simp] theorem sdGroup_responses (s : State) : (sdGroup s).responses = s.responses := by simp [sdGroup]
@[simp] theorem sdGroup_hostTakes (s : State) : (sdGroup s).hostTakes = s.hostTakes := by simp [sdGroup]
@[simp] theorem sdGroup_resetIn (s : State) : (sdGroup s).resetIn = s.resetIn := by simp [sdGroup]
@[simp] theorem sdGroup_uopSel (s : State) : (sdGroup s).uopSel = s.uopSel := by simp [sdGroup]
@[simp] theorem sdGroup_lanes (s : State) : (sdGroup s).lanes = s.lanes := by simp [State.lanes]
@[simp] theorem sdGroup_window (s : State) : (sdGroup s).window = s.window := by simp [State.window]
@[simp] theorem sdGroup_srcAddr (s : State) : (sdGroup s).srcAddr = s.srcAddr := by simp [State.srcAddr]
@[simp] theorem sdGroup_dstAddr (s : State) : (sdGroup s).dstAddr = s.dstAddr := by simp [State.dstAddr]
@[simp] theorem sdGroup_remaining (s : State) : (sdGroup s).remaining = s.remaining := by simp [State.remaining]
@[simp] theorem sdGroup_room (s : State) : (sdGroup s).room = s.room := by simp [State.room]

/-! ## sdFinal -/

@[simp] theorem sdFinal_config (s : State) : (sdFinal s).config = s.config := by simp [sdFinal]
@[simp] theorem sdFinal_latch (s : State) : (sdFinal s).latch = s.latch := by simp [sdFinal]
@[simp] theorem sdFinal_phase (s : State) : (sdFinal s).phase = s.phase := by simp [sdFinal]
@[simp] theorem sdFinal_consumed (s : State) : (sdFinal s).consumed = s.consumed := by simp [sdFinal]
@[simp] theorem sdFinal_written (s : State) : (sdFinal s).written = s.written := by simp [sdFinal]
@[simp] theorem sdFinal_status (s : State) : (sdFinal s).status = s.status := by simp [sdFinal]
@[simp] theorem sdFinal_fault (s : State) : (sdFinal s).fault = s.fault := by simp [sdFinal]
@[simp] theorem sdFinal_value (s : State) : (sdFinal s).value = s.value := by simp [sdFinal]
@[simp] theorem sdFinal_mem (s : State) : (sdFinal s).mem = s.mem := by simp [sdFinal]
@[simp] theorem sdFinal_memMap (s : State) : (sdFinal s).memMap = s.memMap := by simp [sdFinal]
@[simp] theorem sdFinal_offers (s : State) : (sdFinal s).offers = s.offers := by simp [sdFinal]
@[simp] theorem sdFinal_responses (s : State) : (sdFinal s).responses = s.responses := by simp [sdFinal]
@[simp] theorem sdFinal_hostTakes (s : State) : (sdFinal s).hostTakes = s.hostTakes := by simp [sdFinal]
@[simp] theorem sdFinal_resetIn (s : State) : (sdFinal s).resetIn = s.resetIn := by simp [sdFinal]
@[simp] theorem sdFinal_uopSel (s : State) : (sdFinal s).uopSel = s.uopSel := by simp [sdFinal]
@[simp] theorem sdFinal_lanes (s : State) : (sdFinal s).lanes = s.lanes := by simp [State.lanes]
@[simp] theorem sdFinal_window (s : State) : (sdFinal s).window = s.window := by simp [State.window]
@[simp] theorem sdFinal_srcAddr (s : State) : (sdFinal s).srcAddr = s.srcAddr := by simp [State.srcAddr]
@[simp] theorem sdFinal_dstAddr (s : State) : (sdFinal s).dstAddr = s.dstAddr := by simp [State.dstAddr]
@[simp] theorem sdFinal_remaining (s : State) : (sdFinal s).remaining = s.remaining := by simp [State.remaining]
@[simp] theorem sdFinal_room (s : State) : (sdFinal s).room = s.room := by simp [State.room]

/-! ## feedEncoder -/

@[simp] theorem feedEncoder_config (bytes : List Byte) (s : State) : (feedEncoder bytes s).config = s.config := rfl
@[simp] theorem feedEncoder_latch (bytes : List Byte) (s : State) : (feedEncoder bytes s).latch = s.latch := rfl
@[simp] theorem feedEncoder_phase (bytes : List Byte) (s : State) : (feedEncoder bytes s).phase = s.phase := rfl
@[simp] theorem feedEncoder_consumed (bytes : List Byte) (s : State) : (feedEncoder bytes s).consumed = s.consumed := rfl
@[simp] theorem feedEncoder_written (bytes : List Byte) (s : State) : (feedEncoder bytes s).written = s.written := rfl
@[simp] theorem feedEncoder_status (bytes : List Byte) (s : State) : (feedEncoder bytes s).status = s.status := rfl
@[simp] theorem feedEncoder_fault (bytes : List Byte) (s : State) : (feedEncoder bytes s).fault = s.fault := rfl
@[simp] theorem feedEncoder_value (bytes : List Byte) (s : State) : (feedEncoder bytes s).value = s.value := rfl
@[simp] theorem feedEncoder_mem (bytes : List Byte) (s : State) : (feedEncoder bytes s).mem = s.mem := rfl
@[simp] theorem feedEncoder_memMap (bytes : List Byte) (s : State) : (feedEncoder bytes s).memMap = s.memMap := rfl
@[simp] theorem feedEncoder_offers (bytes : List Byte) (s : State) : (feedEncoder bytes s).offers = s.offers := rfl
@[simp] theorem feedEncoder_responses (bytes : List Byte) (s : State) : (feedEncoder bytes s).responses = s.responses := rfl
@[simp] theorem feedEncoder_hostTakes (bytes : List Byte) (s : State) : (feedEncoder bytes s).hostTakes = s.hostTakes := rfl
@[simp] theorem feedEncoder_resetIn (bytes : List Byte) (s : State) : (feedEncoder bytes s).resetIn = s.resetIn := rfl
@[simp] theorem feedEncoder_uopSel (bytes : List Byte) (s : State) : (feedEncoder bytes s).uopSel = s.uopSel := rfl
@[simp] theorem feedEncoder_tick (bytes : List Byte) (s : State) : (feedEncoder bytes s).tick = s.tick := rfl
@[simp] theorem feedEncoder_lanes (bytes : List Byte) (s : State) : (feedEncoder bytes s).lanes = s.lanes := rfl
@[simp] theorem feedEncoder_window (bytes : List Byte) (s : State) : (feedEncoder bytes s).window = s.window := rfl
@[simp] theorem feedEncoder_srcAddr (bytes : List Byte) (s : State) : (feedEncoder bytes s).srcAddr = s.srcAddr := rfl
@[simp] theorem feedEncoder_dstAddr (bytes : List Byte) (s : State) : (feedEncoder bytes s).dstAddr = s.dstAddr := rfl
@[simp] theorem feedEncoder_remaining (bytes : List Byte) (s : State) : (feedEncoder bytes s).remaining = s.remaining := rfl
@[simp] theorem feedEncoder_room (bytes : List Byte) (s : State) : (feedEncoder bytes s).room = s.room := rfl

/-! ## feedDecoder -/

@[simp] theorem feedDecoder_config (bytes : List Byte) (s : State) : (feedDecoder bytes s).config = s.config := rfl
@[simp] theorem feedDecoder_latch (bytes : List Byte) (s : State) : (feedDecoder bytes s).latch = s.latch := rfl
@[simp] theorem feedDecoder_phase (bytes : List Byte) (s : State) : (feedDecoder bytes s).phase = s.phase := rfl
@[simp] theorem feedDecoder_consumed (bytes : List Byte) (s : State) : (feedDecoder bytes s).consumed = s.consumed := rfl
@[simp] theorem feedDecoder_written (bytes : List Byte) (s : State) : (feedDecoder bytes s).written = s.written := rfl
@[simp] theorem feedDecoder_status (bytes : List Byte) (s : State) : (feedDecoder bytes s).status = s.status := rfl
@[simp] theorem feedDecoder_fault (bytes : List Byte) (s : State) : (feedDecoder bytes s).fault = s.fault := rfl
@[simp] theorem feedDecoder_value (bytes : List Byte) (s : State) : (feedDecoder bytes s).value = s.value := rfl
@[simp] theorem feedDecoder_mem (bytes : List Byte) (s : State) : (feedDecoder bytes s).mem = s.mem := rfl
@[simp] theorem feedDecoder_memMap (bytes : List Byte) (s : State) : (feedDecoder bytes s).memMap = s.memMap := rfl
@[simp] theorem feedDecoder_offers (bytes : List Byte) (s : State) : (feedDecoder bytes s).offers = s.offers := rfl
@[simp] theorem feedDecoder_responses (bytes : List Byte) (s : State) : (feedDecoder bytes s).responses = s.responses := rfl
@[simp] theorem feedDecoder_hostTakes (bytes : List Byte) (s : State) : (feedDecoder bytes s).hostTakes = s.hostTakes := rfl
@[simp] theorem feedDecoder_resetIn (bytes : List Byte) (s : State) : (feedDecoder bytes s).resetIn = s.resetIn := rfl
@[simp] theorem feedDecoder_uopSel (bytes : List Byte) (s : State) : (feedDecoder bytes s).uopSel = s.uopSel := rfl
@[simp] theorem feedDecoder_tick (bytes : List Byte) (s : State) : (feedDecoder bytes s).tick = s.tick := rfl
@[simp] theorem feedDecoder_lanes (bytes : List Byte) (s : State) : (feedDecoder bytes s).lanes = s.lanes := rfl
@[simp] theorem feedDecoder_window (bytes : List Byte) (s : State) : (feedDecoder bytes s).window = s.window := rfl
@[simp] theorem feedDecoder_srcAddr (bytes : List Byte) (s : State) : (feedDecoder bytes s).srcAddr = s.srcAddr := rfl
@[simp] theorem feedDecoder_dstAddr (bytes : List Byte) (s : State) : (feedDecoder bytes s).dstAddr = s.dstAddr := rfl
@[simp] theorem feedDecoder_remaining (bytes : List Byte) (s : State) : (feedDecoder bytes s).remaining = s.remaining := rfl
@[simp] theorem feedDecoder_room (bytes : List Byte) (s : State) : (feedDecoder bytes s).room = s.room := rfl

/-! ## spuShuf -/

@[simp] theorem spuShuf_config (s : State) : (spuShuf s).config = s.config := rfl
@[simp] theorem spuShuf_latch (s : State) : (spuShuf s).latch = s.latch := rfl
@[simp] theorem spuShuf_phase (s : State) : (spuShuf s).phase = s.phase := rfl
@[simp] theorem spuShuf_consumed (s : State) : (spuShuf s).consumed = s.consumed := rfl
@[simp] theorem spuShuf_written (s : State) : (spuShuf s).written = s.written := rfl
@[simp] theorem spuShuf_status (s : State) : (spuShuf s).status = s.status := rfl
@[simp] theorem spuShuf_fault (s : State) : (spuShuf s).fault = s.fault := rfl
@[simp] theorem spuShuf_value (s : State) : (spuShuf s).value = s.value := rfl
@[simp] theorem spuShuf_mem (s : State) : (spuShuf s).mem = s.mem := rfl
@[simp] theorem spuShuf_memMap (s : State) : (spuShuf s).memMap = s.memMap := rfl
@[simp] theorem spuShuf_offers (s : State) : (spuShuf s).offers = s.offers := rfl
@[simp] theorem spuShuf_responses (s : State) : (spuShuf s).responses = s.responses := rfl
@[simp] theorem spuShuf_hostTakes (s : State) : (spuShuf s).hostTakes = s.hostTakes := rfl
@[simp] theorem spuShuf_resetIn (s : State) : (spuShuf s).resetIn = s.resetIn := rfl
@[simp] theorem spuShuf_uopSel (s : State) : (spuShuf s).uopSel = s.uopSel := rfl
@[simp] theorem spuShuf_tick (s : State) : (spuShuf s).tick = s.tick := rfl
@[simp] theorem spuShuf_lanes (s : State) : (spuShuf s).lanes = s.lanes := rfl
@[simp] theorem spuShuf_window (s : State) : (spuShuf s).window = s.window := rfl
@[simp] theorem spuShuf_srcAddr (s : State) : (spuShuf s).srcAddr = s.srcAddr := rfl
@[simp] theorem spuShuf_dstAddr (s : State) : (spuShuf s).dstAddr = s.dstAddr := rfl
@[simp] theorem spuShuf_remaining (s : State) : (spuShuf s).remaining = s.remaining := rfl
@[simp] theorem spuShuf_room (s : State) : (spuShuf s).room = s.room := rfl

/-! ## rcuEnc -/

@[simp] theorem rcuEnc_config (s : State) : (rcuEnc s).config = s.config := rfl
@[simp] theorem rcuEnc_latch (s : State) : (rcuEnc s).latch = s.latch := rfl
@[simp] theorem rcuEnc_phase (s : State) : (rcuEnc s).phase = s.phase := rfl
@[simp] theorem rcuEnc_consumed (s : State) : (rcuEnc s).consumed = s.consumed := rfl
@[simp] theorem rcuEnc_written (s : State) : (rcuEnc s).written = s.written := rfl
@[simp] theorem rcuEnc_status (s : State) : (rcuEnc s).status = s.status := rfl
@[simp] theorem rcuEnc_fault (s : State) : (rcuEnc s).fault = s.fault := rfl
@[simp] theorem rcuEnc_value (s : State) : (rcuEnc s).value = s.value := rfl
@[simp] theorem rcuEnc_mem (s : State) : (rcuEnc s).mem = s.mem := rfl
@[simp] theorem rcuEnc_memMap (s : State) : (rcuEnc s).memMap = s.memMap := rfl
@[simp] theorem rcuEnc_offers (s : State) : (rcuEnc s).offers = s.offers := rfl
@[simp] theorem rcuEnc_responses (s : State) : (rcuEnc s).responses = s.responses := rfl
@[simp] theorem rcuEnc_hostTakes (s : State) : (rcuEnc s).hostTakes = s.hostTakes := rfl
@[simp] theorem rcuEnc_resetIn (s : State) : (rcuEnc s).resetIn = s.resetIn := rfl
@[simp] theorem rcuEnc_uopSel (s : State) : (rcuEnc s).uopSel = s.uopSel := rfl
@[simp] theorem rcuEnc_tick (s : State) : (rcuEnc s).tick = s.tick := rfl
@[simp] theorem rcuEnc_lanes (s : State) : (rcuEnc s).lanes = s.lanes := rfl
@[simp] theorem rcuEnc_window (s : State) : (rcuEnc s).window = s.window := rfl
@[simp] theorem rcuEnc_srcAddr (s : State) : (rcuEnc s).srcAddr = s.srcAddr := rfl
@[simp] theorem rcuEnc_dstAddr (s : State) : (rcuEnc s).dstAddr = s.dstAddr := rfl
@[simp] theorem rcuEnc_remaining (s : State) : (rcuEnc s).remaining = s.remaining := rfl
@[simp] theorem rcuEnc_room (s : State) : (rcuEnc s).room = s.room := rfl

/-! ## rcuDec -/

@[simp] theorem rcuDec_config (s : State) : (rcuDec s).config = s.config := rfl
@[simp] theorem rcuDec_latch (s : State) : (rcuDec s).latch = s.latch := rfl
@[simp] theorem rcuDec_phase (s : State) : (rcuDec s).phase = s.phase := rfl
@[simp] theorem rcuDec_consumed (s : State) : (rcuDec s).consumed = s.consumed := rfl
@[simp] theorem rcuDec_written (s : State) : (rcuDec s).written = s.written := rfl
@[simp] theorem rcuDec_status (s : State) : (rcuDec s).status = s.status := rfl
@[simp] theorem rcuDec_fault (s : State) : (rcuDec s).fault = s.fault := rfl
@[simp] theorem rcuDec_value (s : State) : (rcuDec s).value = s.value := rfl
@[simp] theorem rcuDec_mem (s : State) : (rcuDec s).mem = s.mem := rfl
@[simp] theorem rcuDec_memMap (s : State) : (rcuDec s).memMap = s.memMap := rfl
@[simp] theorem rcuDec_offers (s : State) : (rcuDec s).offers = s.offers := rfl
@[simp] theorem rcuDec_responses (s : State) : (rcuDec s).responses = s.responses := rfl
@[simp] theorem rcuDec_hostTakes (s : State) : (rcuDec s).hostTakes = s.hostTakes := rfl
@[simp] theorem rcuDec_resetIn (s : State) : (rcuDec s).resetIn = s.resetIn := rfl
@[simp] theorem rcuDec_uopSel (s : State) : (rcuDec s).uopSel = s.uopSel := rfl
@[simp] theorem rcuDec_tick (s : State) : (rcuDec s).tick = s.tick := rfl
@[simp] theorem rcuDec_lanes (s : State) : (rcuDec s).lanes = s.lanes := rfl
@[simp] theorem rcuDec_window (s : State) : (rcuDec s).window = s.window := rfl
@[simp] theorem rcuDec_srcAddr (s : State) : (rcuDec s).srcAddr = s.srcAddr := rfl
@[simp] theorem rcuDec_dstAddr (s : State) : (rcuDec s).dstAddr = s.dstAddr := rfl
@[simp] theorem rcuDec_remaining (s : State) : (rcuDec s).remaining = s.remaining := rfl
@[simp] theorem rcuDec_room (s : State) : (rcuDec s).room = s.room := rfl

/-! ## setVe -/

@[simp] theorem setVe_config (v : List Byte) (s : State) : (setVe v s).config = s.config := rfl
@[simp] theorem setVe_latch (v : List Byte) (s : State) : (setVe v s).latch = s.latch := rfl
@[simp] theorem setVe_phase (v : List Byte) (s : State) : (setVe v s).phase = s.phase := rfl
@[simp] theorem setVe_consumed (v : List Byte) (s : State) : (setVe v s).consumed = s.consumed := rfl
@[simp] theorem setVe_written (v : List Byte) (s : State) : (setVe v s).written = s.written := rfl
@[simp] theorem setVe_status (v : List Byte) (s : State) : (setVe v s).status = s.status := rfl
@[simp] theorem setVe_fault (v : List Byte) (s : State) : (setVe v s).fault = s.fault := rfl
@[simp] theorem setVe_value (v : List Byte) (s : State) : (setVe v s).value = s.value := rfl
@[simp] theorem setVe_units (v : List Byte) (s : State) : (setVe v s).units = { s.units with veV := v } := rfl
@[simp] theorem setVe_mem (v : List Byte) (s : State) : (setVe v s).mem = s.mem := rfl
@[simp] theorem setVe_memMap (v : List Byte) (s : State) : (setVe v s).memMap = s.memMap := rfl
@[simp] theorem setVe_offers (v : List Byte) (s : State) : (setVe v s).offers = s.offers := rfl
@[simp] theorem setVe_responses (v : List Byte) (s : State) : (setVe v s).responses = s.responses := rfl
@[simp] theorem setVe_hostTakes (v : List Byte) (s : State) : (setVe v s).hostTakes = s.hostTakes := rfl
@[simp] theorem setVe_resetIn (v : List Byte) (s : State) : (setVe v s).resetIn = s.resetIn := rfl
@[simp] theorem setVe_uopSel (v : List Byte) (s : State) : (setVe v s).uopSel = s.uopSel := rfl
@[simp] theorem setVe_tick (v : List Byte) (s : State) : (setVe v s).tick = s.tick := rfl
@[simp] theorem setVe_lanes (v : List Byte) (s : State) : (setVe v s).lanes = s.lanes := rfl
@[simp] theorem setVe_window (v : List Byte) (s : State) : (setVe v s).window = s.window := rfl
@[simp] theorem setVe_srcAddr (v : List Byte) (s : State) : (setVe v s).srcAddr = s.srcAddr := rfl
@[simp] theorem setVe_dstAddr (v : List Byte) (s : State) : (setVe v s).dstAddr = s.dstAddr := rfl
@[simp] theorem setVe_remaining (v : List Byte) (s : State) : (setVe v s).remaining = s.remaining := rfl
@[simp] theorem setVe_room (v : List Byte) (s : State) : (setVe v s).room = s.room := rfl

/-! ## setVd -/

@[simp] theorem setVd_config (v : List Byte) (s : State) : (setVd v s).config = s.config := rfl
@[simp] theorem setVd_latch (v : List Byte) (s : State) : (setVd v s).latch = s.latch := rfl
@[simp] theorem setVd_phase (v : List Byte) (s : State) : (setVd v s).phase = s.phase := rfl
@[simp] theorem setVd_consumed (v : List Byte) (s : State) : (setVd v s).consumed = s.consumed := rfl
@[simp] theorem setVd_written (v : List Byte) (s : State) : (setVd v s).written = s.written := rfl
@[simp] theorem setVd_status (v : List Byte) (s : State) : (setVd v s).status = s.status := rfl
@[simp] theorem setVd_fault (v : List Byte) (s : State) : (setVd v s).fault = s.fault := rfl
@[simp] theorem setVd_value (v : List Byte) (s : State) : (setVd v s).value = s.value := rfl
@[simp] theorem setVd_units (v : List Byte) (s : State) : (setVd v s).units = { s.units with vdV := v } := rfl
@[simp] theorem setVd_mem (v : List Byte) (s : State) : (setVd v s).mem = s.mem := rfl
@[simp] theorem setVd_memMap (v : List Byte) (s : State) : (setVd v s).memMap = s.memMap := rfl
@[simp] theorem setVd_offers (v : List Byte) (s : State) : (setVd v s).offers = s.offers := rfl
@[simp] theorem setVd_responses (v : List Byte) (s : State) : (setVd v s).responses = s.responses := rfl
@[simp] theorem setVd_hostTakes (v : List Byte) (s : State) : (setVd v s).hostTakes = s.hostTakes := rfl
@[simp] theorem setVd_resetIn (v : List Byte) (s : State) : (setVd v s).resetIn = s.resetIn := rfl
@[simp] theorem setVd_uopSel (v : List Byte) (s : State) : (setVd v s).uopSel = s.uopSel := rfl
@[simp] theorem setVd_tick (v : List Byte) (s : State) : (setVd v s).tick = s.tick := rfl
@[simp] theorem setVd_lanes (v : List Byte) (s : State) : (setVd v s).lanes = s.lanes := rfl
@[simp] theorem setVd_window (v : List Byte) (s : State) : (setVd v s).window = s.window := rfl
@[simp] theorem setVd_srcAddr (v : List Byte) (s : State) : (setVd v s).srcAddr = s.srcAddr := rfl
@[simp] theorem setVd_dstAddr (v : List Byte) (s : State) : (setVd v s).dstAddr = s.dstAddr := rfl
@[simp] theorem setVd_remaining (v : List Byte) (s : State) : (setVd v s).remaining = s.remaining := rfl
@[simp] theorem setVd_room (v : List Byte) (s : State) : (setVd v s).room = s.room := rfl

/-! ## veShuffle -/

@[simp] theorem veShuffle_config (s : State) : (veShuffle s).config = s.config := rfl
@[simp] theorem veShuffle_latch (s : State) : (veShuffle s).latch = s.latch := rfl
@[simp] theorem veShuffle_phase (s : State) : (veShuffle s).phase = s.phase := rfl
@[simp] theorem veShuffle_consumed (s : State) : (veShuffle s).consumed = s.consumed := rfl
@[simp] theorem veShuffle_written (s : State) : (veShuffle s).written = s.written := rfl
@[simp] theorem veShuffle_status (s : State) : (veShuffle s).status = s.status := rfl
@[simp] theorem veShuffle_fault (s : State) : (veShuffle s).fault = s.fault := rfl
@[simp] theorem veShuffle_value (s : State) : (veShuffle s).value = s.value := rfl
@[simp] theorem veShuffle_mem (s : State) : (veShuffle s).mem = s.mem := rfl
@[simp] theorem veShuffle_memMap (s : State) : (veShuffle s).memMap = s.memMap := rfl
@[simp] theorem veShuffle_offers (s : State) : (veShuffle s).offers = s.offers := rfl
@[simp] theorem veShuffle_responses (s : State) : (veShuffle s).responses = s.responses := rfl
@[simp] theorem veShuffle_hostTakes (s : State) : (veShuffle s).hostTakes = s.hostTakes := rfl
@[simp] theorem veShuffle_resetIn (s : State) : (veShuffle s).resetIn = s.resetIn := rfl
@[simp] theorem veShuffle_uopSel (s : State) : (veShuffle s).uopSel = s.uopSel := rfl
@[simp] theorem veShuffle_tick (s : State) : (veShuffle s).tick = s.tick := rfl
@[simp] theorem veShuffle_lanes (s : State) : (veShuffle s).lanes = s.lanes := rfl
@[simp] theorem veShuffle_window (s : State) : (veShuffle s).window = s.window := rfl
@[simp] theorem veShuffle_srcAddr (s : State) : (veShuffle s).srcAddr = s.srcAddr := rfl
@[simp] theorem veShuffle_dstAddr (s : State) : (veShuffle s).dstAddr = s.dstAddr := rfl
@[simp] theorem veShuffle_remaining (s : State) : (veShuffle s).remaining = s.remaining := rfl
@[simp] theorem veShuffle_room (s : State) : (veShuffle s).room = s.room := rfl

/-! ## veSplit6 -/

@[simp] theorem veSplit6_config (s : State) : (veSplit6 s).config = s.config := rfl
@[simp] theorem veSplit6_latch (s : State) : (veSplit6 s).latch = s.latch := rfl
@[simp] theorem veSplit6_phase (s : State) : (veSplit6 s).phase = s.phase := rfl
@[simp] theorem veSplit6_consumed (s : State) : (veSplit6 s).consumed = s.consumed := rfl
@[simp] theorem veSplit6_written (s : State) : (veSplit6 s).written = s.written := rfl
@[simp] theorem veSplit6_status (s : State) : (veSplit6 s).status = s.status := rfl
@[simp] theorem veSplit6_fault (s : State) : (veSplit6 s).fault = s.fault := rfl
@[simp] theorem veSplit6_value (s : State) : (veSplit6 s).value = s.value := rfl
@[simp] theorem veSplit6_mem (s : State) : (veSplit6 s).mem = s.mem := rfl
@[simp] theorem veSplit6_memMap (s : State) : (veSplit6 s).memMap = s.memMap := rfl
@[simp] theorem veSplit6_offers (s : State) : (veSplit6 s).offers = s.offers := rfl
@[simp] theorem veSplit6_responses (s : State) : (veSplit6 s).responses = s.responses := rfl
@[simp] theorem veSplit6_hostTakes (s : State) : (veSplit6 s).hostTakes = s.hostTakes := rfl
@[simp] theorem veSplit6_resetIn (s : State) : (veSplit6 s).resetIn = s.resetIn := rfl
@[simp] theorem veSplit6_uopSel (s : State) : (veSplit6 s).uopSel = s.uopSel := rfl
@[simp] theorem veSplit6_tick (s : State) : (veSplit6 s).tick = s.tick := rfl
@[simp] theorem veSplit6_lanes (s : State) : (veSplit6 s).lanes = s.lanes := rfl
@[simp] theorem veSplit6_window (s : State) : (veSplit6 s).window = s.window := rfl
@[simp] theorem veSplit6_srcAddr (s : State) : (veSplit6 s).srcAddr = s.srcAddr := rfl
@[simp] theorem veSplit6_dstAddr (s : State) : (veSplit6 s).dstAddr = s.dstAddr := rfl
@[simp] theorem veSplit6_remaining (s : State) : (veSplit6 s).remaining = s.remaining := rfl
@[simp] theorem veSplit6_room (s : State) : (veSplit6 s).room = s.room := rfl

/-! ## veTranslate -/

@[simp] theorem veTranslate_config (s : State) : (veTranslate s).config = s.config := rfl
@[simp] theorem veTranslate_latch (s : State) : (veTranslate s).latch = s.latch := rfl
@[simp] theorem veTranslate_phase (s : State) : (veTranslate s).phase = s.phase := rfl
@[simp] theorem veTranslate_consumed (s : State) : (veTranslate s).consumed = s.consumed := rfl
@[simp] theorem veTranslate_written (s : State) : (veTranslate s).written = s.written := rfl
@[simp] theorem veTranslate_status (s : State) : (veTranslate s).status = s.status := rfl
@[simp] theorem veTranslate_fault (s : State) : (veTranslate s).fault = s.fault := rfl
@[simp] theorem veTranslate_value (s : State) : (veTranslate s).value = s.value := rfl
@[simp] theorem veTranslate_mem (s : State) : (veTranslate s).mem = s.mem := rfl
@[simp] theorem veTranslate_memMap (s : State) : (veTranslate s).memMap = s.memMap := rfl
@[simp] theorem veTranslate_offers (s : State) : (veTranslate s).offers = s.offers := rfl
@[simp] theorem veTranslate_responses (s : State) : (veTranslate s).responses = s.responses := rfl
@[simp] theorem veTranslate_hostTakes (s : State) : (veTranslate s).hostTakes = s.hostTakes := rfl
@[simp] theorem veTranslate_resetIn (s : State) : (veTranslate s).resetIn = s.resetIn := rfl
@[simp] theorem veTranslate_uopSel (s : State) : (veTranslate s).uopSel = s.uopSel := rfl
@[simp] theorem veTranslate_tick (s : State) : (veTranslate s).tick = s.tick := rfl
@[simp] theorem veTranslate_lanes (s : State) : (veTranslate s).lanes = s.lanes := rfl
@[simp] theorem veTranslate_window (s : State) : (veTranslate s).window = s.window := rfl
@[simp] theorem veTranslate_srcAddr (s : State) : (veTranslate s).srcAddr = s.srcAddr := rfl
@[simp] theorem veTranslate_dstAddr (s : State) : (veTranslate s).dstAddr = s.dstAddr := rfl
@[simp] theorem veTranslate_remaining (s : State) : (veTranslate s).remaining = s.remaining := rfl
@[simp] theorem veTranslate_room (s : State) : (veTranslate s).room = s.room := rfl

/-! ## vdTranslate -/

@[simp] theorem vdTranslate_config (s : State) : (vdTranslate s).config = s.config := rfl
@[simp] theorem vdTranslate_latch (s : State) : (vdTranslate s).latch = s.latch := rfl
@[simp] theorem vdTranslate_phase (s : State) : (vdTranslate s).phase = s.phase := rfl
@[simp] theorem vdTranslate_consumed (s : State) : (vdTranslate s).consumed = s.consumed := rfl
@[simp] theorem vdTranslate_written (s : State) : (vdTranslate s).written = s.written := rfl
@[simp] theorem vdTranslate_status (s : State) : (vdTranslate s).status = s.status := rfl
@[simp] theorem vdTranslate_fault (s : State) : (vdTranslate s).fault = s.fault := rfl
@[simp] theorem vdTranslate_value (s : State) : (vdTranslate s).value = s.value := rfl
@[simp] theorem vdTranslate_mem (s : State) : (vdTranslate s).mem = s.mem := rfl
@[simp] theorem vdTranslate_memMap (s : State) : (vdTranslate s).memMap = s.memMap := rfl
@[simp] theorem vdTranslate_offers (s : State) : (vdTranslate s).offers = s.offers := rfl
@[simp] theorem vdTranslate_responses (s : State) : (vdTranslate s).responses = s.responses := rfl
@[simp] theorem vdTranslate_hostTakes (s : State) : (vdTranslate s).hostTakes = s.hostTakes := rfl
@[simp] theorem vdTranslate_resetIn (s : State) : (vdTranslate s).resetIn = s.resetIn := rfl
@[simp] theorem vdTranslate_uopSel (s : State) : (vdTranslate s).uopSel = s.uopSel := rfl
@[simp] theorem vdTranslate_tick (s : State) : (vdTranslate s).tick = s.tick := rfl
@[simp] theorem vdTranslate_lanes (s : State) : (vdTranslate s).lanes = s.lanes := rfl
@[simp] theorem vdTranslate_window (s : State) : (vdTranslate s).window = s.window := rfl
@[simp] theorem vdTranslate_srcAddr (s : State) : (vdTranslate s).srcAddr = s.srcAddr := rfl
@[simp] theorem vdTranslate_dstAddr (s : State) : (vdTranslate s).dstAddr = s.dstAddr := rfl
@[simp] theorem vdTranslate_remaining (s : State) : (vdTranslate s).remaining = s.remaining := rfl
@[simp] theorem vdTranslate_room (s : State) : (vdTranslate s).room = s.room := rfl

/-! ## vdMerge6 -/

@[simp] theorem vdMerge6_config (s : State) : (vdMerge6 s).config = s.config := rfl
@[simp] theorem vdMerge6_latch (s : State) : (vdMerge6 s).latch = s.latch := rfl
@[simp] theorem vdMerge6_phase (s : State) : (vdMerge6 s).phase = s.phase := rfl
@[simp] theorem vdMerge6_consumed (s : State) : (vdMerge6 s).consumed = s.consumed := rfl
@[simp] theorem vdMerge6_written (s : State) : (vdMerge6 s).written = s.written := rfl
@[simp] theorem vdMerge6_status (s : State) : (vdMerge6 s).status = s.status := rfl
@[simp] theorem vdMerge6_fault (s : State) : (vdMerge6 s).fault = s.fault := rfl
@[simp] theorem vdMerge6_value (s : State) : (vdMerge6 s).value = s.value := rfl
@[simp] theorem vdMerge6_mem (s : State) : (vdMerge6 s).mem = s.mem := rfl
@[simp] theorem vdMerge6_memMap (s : State) : (vdMerge6 s).memMap = s.memMap := rfl
@[simp] theorem vdMerge6_offers (s : State) : (vdMerge6 s).offers = s.offers := rfl
@[simp] theorem vdMerge6_responses (s : State) : (vdMerge6 s).responses = s.responses := rfl
@[simp] theorem vdMerge6_hostTakes (s : State) : (vdMerge6 s).hostTakes = s.hostTakes := rfl
@[simp] theorem vdMerge6_resetIn (s : State) : (vdMerge6 s).resetIn = s.resetIn := rfl
@[simp] theorem vdMerge6_uopSel (s : State) : (vdMerge6 s).uopSel = s.uopSel := rfl
@[simp] theorem vdMerge6_tick (s : State) : (vdMerge6 s).tick = s.tick := rfl
@[simp] theorem vdMerge6_lanes (s : State) : (vdMerge6 s).lanes = s.lanes := rfl
@[simp] theorem vdMerge6_window (s : State) : (vdMerge6 s).window = s.window := rfl
@[simp] theorem vdMerge6_srcAddr (s : State) : (vdMerge6 s).srcAddr = s.srcAddr := rfl
@[simp] theorem vdMerge6_dstAddr (s : State) : (vdMerge6 s).dstAddr = s.dstAddr := rfl
@[simp] theorem vdMerge6_remaining (s : State) : (vdMerge6 s).remaining = s.remaining := rfl
@[simp] theorem vdMerge6_room (s : State) : (vdMerge6 s).room = s.room := rfl

/-! ## vdShuffle -/

@[simp] theorem vdShuffle_config (s : State) : (vdShuffle s).config = s.config := rfl
@[simp] theorem vdShuffle_latch (s : State) : (vdShuffle s).latch = s.latch := rfl
@[simp] theorem vdShuffle_phase (s : State) : (vdShuffle s).phase = s.phase := rfl
@[simp] theorem vdShuffle_consumed (s : State) : (vdShuffle s).consumed = s.consumed := rfl
@[simp] theorem vdShuffle_written (s : State) : (vdShuffle s).written = s.written := rfl
@[simp] theorem vdShuffle_status (s : State) : (vdShuffle s).status = s.status := rfl
@[simp] theorem vdShuffle_fault (s : State) : (vdShuffle s).fault = s.fault := rfl
@[simp] theorem vdShuffle_value (s : State) : (vdShuffle s).value = s.value := rfl
@[simp] theorem vdShuffle_mem (s : State) : (vdShuffle s).mem = s.mem := rfl
@[simp] theorem vdShuffle_memMap (s : State) : (vdShuffle s).memMap = s.memMap := rfl
@[simp] theorem vdShuffle_offers (s : State) : (vdShuffle s).offers = s.offers := rfl
@[simp] theorem vdShuffle_responses (s : State) : (vdShuffle s).responses = s.responses := rfl
@[simp] theorem vdShuffle_hostTakes (s : State) : (vdShuffle s).hostTakes = s.hostTakes := rfl
@[simp] theorem vdShuffle_resetIn (s : State) : (vdShuffle s).resetIn = s.resetIn := rfl
@[simp] theorem vdShuffle_uopSel (s : State) : (vdShuffle s).uopSel = s.uopSel := rfl
@[simp] theorem vdShuffle_tick (s : State) : (vdShuffle s).tick = s.tick := rfl
@[simp] theorem vdShuffle_lanes (s : State) : (vdShuffle s).lanes = s.lanes := rfl
@[simp] theorem vdShuffle_window (s : State) : (vdShuffle s).window = s.window := rfl
@[simp] theorem vdShuffle_srcAddr (s : State) : (vdShuffle s).srcAddr = s.srcAddr := rfl
@[simp] theorem vdShuffle_dstAddr (s : State) : (vdShuffle s).dstAddr = s.dstAddr := rfl
@[simp] theorem vdShuffle_remaining (s : State) : (vdShuffle s).remaining = s.remaining := rfl
@[simp] theorem vdShuffle_room (s : State) : (vdShuffle s).room = s.room := rfl

/-! ## release -/

@[simp] theorem release_config (s : State) : (release s).config = s.config := rfl
@[simp] theorem release_latch (s : State) : (release s).latch = s.latch := rfl
@[simp] theorem release_phase (s : State) : (release s).phase = s.phase := rfl
@[simp] theorem release_consumed (s : State) : (release s).consumed = s.consumed := rfl
@[simp] theorem release_written (s : State) : (release s).written = s.written := rfl
@[simp] theorem release_status (s : State) : (release s).status = s.status := rfl
@[simp] theorem release_fault (s : State) : (release s).fault = s.fault := rfl
@[simp] theorem release_value (s : State) : (release s).value = s.value := rfl
@[simp] theorem release_units (s : State) : (release s).units = freeUnits s.lanes s.tick := rfl
@[simp] theorem release_mem (s : State) : (release s).mem = s.mem := rfl
@[simp] theorem release_memMap (s : State) : (release s).memMap = s.memMap := rfl
@[simp] theorem release_offers (s : State) : (release s).offers = s.offers := rfl
@[simp] theorem release_responses (s : State) : (release s).responses = s.responses := rfl
@[simp] theorem release_hostTakes (s : State) : (release s).hostTakes = s.hostTakes := rfl
@[simp] theorem release_resetIn (s : State) : (release s).resetIn = s.resetIn := rfl
@[simp] theorem release_uopSel (s : State) : (release s).uopSel = s.uopSel := rfl
@[simp] theorem release_tick (s : State) : (release s).tick = s.tick + 1 := rfl
@[simp] theorem release_lanes (s : State) : (release s).lanes = s.lanes := rfl
@[simp] theorem release_window (s : State) : (release s).window = s.window := rfl
@[simp] theorem release_srcAddr (s : State) : (release s).srcAddr = s.srcAddr := rfl
@[simp] theorem release_dstAddr (s : State) : (release s).dstAddr = s.dstAddr := rfl
@[simp] theorem release_remaining (s : State) : (release s).remaining = s.remaining := rfl
@[simp] theorem release_room (s : State) : (release s).room = s.room := rfl

/-! ## latchCommand -/

@[simp] theorem latchCommand_config (l : Latch) (s : State) : (latchCommand l s).config = s.config := rfl
@[simp] theorem latchCommand_latch (l : Latch) (s : State) : (latchCommand l s).latch = l := rfl
@[simp] theorem latchCommand_phase (l : Latch) (s : State) : (latchCommand l s).phase = s.phase := rfl
@[simp] theorem latchCommand_consumed (l : Latch) (s : State) : (latchCommand l s).consumed = 0 := rfl
@[simp] theorem latchCommand_written (l : Latch) (s : State) : (latchCommand l s).written = 0 := rfl
@[simp] theorem latchCommand_status (l : Latch) (s : State) : (latchCommand l s).status = .done := rfl
@[simp] theorem latchCommand_fault (l : Latch) (s : State) : (latchCommand l s).fault = 0 := rfl
@[simp] theorem latchCommand_value (l : Latch) (s : State) : (latchCommand l s).value = 0 := rfl
@[simp] theorem latchCommand_units (l : Latch) (s : State) : (latchCommand l s).units = s.units := rfl
@[simp] theorem latchCommand_mem (l : Latch) (s : State) : (latchCommand l s).mem = s.mem := rfl
@[simp] theorem latchCommand_memMap (l : Latch) (s : State) : (latchCommand l s).memMap = s.memMap := rfl
@[simp] theorem latchCommand_offers (l : Latch) (s : State) : (latchCommand l s).offers = s.offers := rfl
@[simp] theorem latchCommand_responses (l : Latch) (s : State) : (latchCommand l s).responses = s.responses := rfl
@[simp] theorem latchCommand_hostTakes (l : Latch) (s : State) : (latchCommand l s).hostTakes = s.hostTakes := rfl
@[simp] theorem latchCommand_resetIn (l : Latch) (s : State) : (latchCommand l s).resetIn = s.resetIn := rfl
@[simp] theorem latchCommand_uopSel (l : Latch) (s : State) : (latchCommand l s).uopSel = s.uopSel := rfl
@[simp] theorem latchCommand_tick (l : Latch) (s : State) : (latchCommand l s).tick = s.tick := rfl
@[simp] theorem latchCommand_lanes (l : Latch) (s : State) : (latchCommand l s).lanes = s.lanes := rfl
@[simp] theorem latchCommand_window (l : Latch) (s : State) : (latchCommand l s).window = s.window := rfl

/-! ## raise -/

@[simp] theorem raise_config (f : CommandFault) (s : State) : (raise f s).config = s.config := rfl
@[simp] theorem raise_latch (f : CommandFault) (s : State) : (raise f s).latch = s.latch := rfl
@[simp] theorem raise_phase (f : CommandFault) (s : State) : (raise f s).phase = .done := rfl
@[simp] theorem raise_consumed (f : CommandFault) (s : State) : (raise f s).consumed = 0 := rfl
@[simp] theorem raise_written (f : CommandFault) (s : State) : (raise f s).written = 0 := rfl
@[simp] theorem raise_status (f : CommandFault) (s : State) : (raise f s).status = .done := rfl
@[simp] theorem raise_fault (f : CommandFault) (s : State) : (raise f s).fault = faultCode f := rfl
@[simp] theorem raise_value (f : CommandFault) (s : State) : (raise f s).value = 0 := rfl
@[simp] theorem raise_units (f : CommandFault) (s : State) : (raise f s).units = s.units := rfl
@[simp] theorem raise_mem (f : CommandFault) (s : State) : (raise f s).mem = s.mem := rfl
@[simp] theorem raise_memMap (f : CommandFault) (s : State) : (raise f s).memMap = s.memMap := rfl
@[simp] theorem raise_offers (f : CommandFault) (s : State) : (raise f s).offers = s.offers := rfl
@[simp] theorem raise_responses (f : CommandFault) (s : State) : (raise f s).responses = s.responses := rfl
@[simp] theorem raise_hostTakes (f : CommandFault) (s : State) : (raise f s).hostTakes = s.hostTakes := rfl
@[simp] theorem raise_resetIn (f : CommandFault) (s : State) : (raise f s).resetIn = s.resetIn := rfl
@[simp] theorem raise_uopSel (f : CommandFault) (s : State) : (raise f s).uopSel = s.uopSel := rfl
@[simp] theorem raise_tick (f : CommandFault) (s : State) : (raise f s).tick = s.tick := rfl
@[simp] theorem raise_lanes (f : CommandFault) (s : State) : (raise f s).lanes = s.lanes := rfl
@[simp] theorem raise_window (f : CommandFault) (s : State) : (raise f s).window = s.window := rfl

/-! ## finish -/

@[simp] theorem finish_config (st : Status) (s : State) : (finish st s).config = s.config := rfl
@[simp] theorem finish_latch (st : Status) (s : State) : (finish st s).latch = s.latch := rfl
@[simp] theorem finish_phase (st : Status) (s : State) : (finish st s).phase = .done := rfl
@[simp] theorem finish_consumed (st : Status) (s : State) : (finish st s).consumed = s.consumed := rfl
@[simp] theorem finish_written (st : Status) (s : State) : (finish st s).written = s.written := rfl
@[simp] theorem finish_status (st : Status) (s : State) : (finish st s).status = st := rfl
@[simp] theorem finish_fault (st : Status) (s : State) : (finish st s).fault = 0 := rfl
@[simp] theorem finish_value (st : Status) (s : State) : (finish st s).value = 0 := rfl
@[simp] theorem finish_units (st : Status) (s : State) : (finish st s).units = s.units := rfl
@[simp] theorem finish_mem (st : Status) (s : State) : (finish st s).mem = s.mem := rfl
@[simp] theorem finish_memMap (st : Status) (s : State) : (finish st s).memMap = s.memMap := rfl
@[simp] theorem finish_offers (st : Status) (s : State) : (finish st s).offers = s.offers := rfl
@[simp] theorem finish_responses (st : Status) (s : State) : (finish st s).responses = s.responses := rfl
@[simp] theorem finish_hostTakes (st : Status) (s : State) : (finish st s).hostTakes = s.hostTakes := rfl
@[simp] theorem finish_resetIn (st : Status) (s : State) : (finish st s).resetIn = s.resetIn := rfl
@[simp] theorem finish_uopSel (st : Status) (s : State) : (finish st s).uopSel = s.uopSel := rfl
@[simp] theorem finish_tick (st : Status) (s : State) : (finish st s).tick = s.tick := rfl
@[simp] theorem finish_lanes (st : Status) (s : State) : (finish st s).lanes = s.lanes := rfl
@[simp] theorem finish_window (st : Status) (s : State) : (finish st s).window = s.window := rfl
@[simp] theorem finish_srcAddr (st : Status) (s : State) : (finish st s).srcAddr = s.srcAddr := rfl
@[simp] theorem finish_dstAddr (st : Status) (s : State) : (finish st s).dstAddr = s.dstAddr := rfl
@[simp] theorem finish_remaining (st : Status) (s : State) : (finish st s).remaining = s.remaining := rfl
@[simp] theorem finish_room (st : Status) (s : State) : (finish st s).room = s.room := rfl

/-! ## forget -/

@[simp] theorem forget_config (s : State) : (forget s).config = s.config := rfl
@[simp] theorem forget_phase (s : State) : (forget s).phase = s.phase := rfl
@[simp] theorem forget_mem (s : State) : (forget s).mem = s.mem := rfl
@[simp] theorem forget_memMap (s : State) : (forget s).memMap = s.memMap := rfl
@[simp] theorem forget_offers (s : State) : (forget s).offers = s.offers := rfl
@[simp] theorem forget_responses (s : State) : (forget s).responses = s.responses := rfl
@[simp] theorem forget_hostTakes (s : State) : (forget s).hostTakes = s.hostTakes := rfl
@[simp] theorem forget_resetIn (s : State) : (forget s).resetIn = s.resetIn := rfl
@[simp] theorem forget_uopSel (s : State) : (forget s).uopSel = s.uopSel := rfl
@[simp] theorem forget_lanes (s : State) : (forget s).lanes = s.lanes := rfl
@[simp] theorem forget_window (s : State) : (forget s).window = s.window := rfl

/-! ## deliver -/

@[simp] theorem deliver_config (s : State) : (deliver s).config = s.config := rfl
@[simp] theorem deliver_phase (s : State) : (deliver s).phase = .idle := rfl
@[simp] theorem deliver_mem (s : State) : (deliver s).mem = s.mem := rfl
@[simp] theorem deliver_memMap (s : State) : (deliver s).memMap = s.memMap := rfl
@[simp] theorem deliver_offers (s : State) : (deliver s).offers = s.offers := rfl
@[simp] theorem deliver_responses (s : State) : (deliver s).responses = s.responses ++ [responseOf s] := rfl
@[simp] theorem deliver_hostTakes (s : State) : (deliver s).hostTakes = s.hostTakes := rfl
@[simp] theorem deliver_resetIn (s : State) : (deliver s).resetIn = s.resetIn := rfl
@[simp] theorem deliver_uopSel (s : State) : (deliver s).uopSel = s.uopSel := rfl
@[simp] theorem deliver_lanes (s : State) : (deliver s).lanes = s.lanes := rfl
@[simp] theorem deliver_window (s : State) : (deliver s).window = s.window := rfl

/-! ## resetBlock -/

@[simp] theorem resetBlock_config (c : WfConfiguration) (s : State) : (resetBlock c s).config = c := rfl
@[simp] theorem resetBlock_phase (c : WfConfiguration) (s : State) : (resetBlock c s).phase = .idle := rfl
@[simp] theorem resetBlock_mem (c : WfConfiguration) (s : State) : (resetBlock c s).mem = s.mem := rfl
@[simp] theorem resetBlock_memMap (c : WfConfiguration) (s : State) : (resetBlock c s).memMap = s.memMap := rfl
@[simp] theorem resetBlock_offers (c : WfConfiguration) (s : State) : (resetBlock c s).offers = s.offers := rfl
@[simp] theorem resetBlock_responses (c : WfConfiguration) (s : State) : (resetBlock c s).responses = s.responses := rfl
@[simp] theorem resetBlock_hostTakes (c : WfConfiguration) (s : State) : (resetBlock c s).hostTakes = s.hostTakes := rfl
@[simp] theorem resetBlock_resetIn (c : WfConfiguration) (s : State) : (resetBlock c s).resetIn = none := rfl
@[simp] theorem resetBlock_uopSel (c : WfConfiguration) (s : State) : (resetBlock c s).uopSel = none := rfl

/-! ## advance -/

@[simp] theorem advance_config (read wrote : Nat) (s : State) : (advance read wrote s).config = s.config := rfl
@[simp] theorem advance_latch (read wrote : Nat) (s : State) : (advance read wrote s).latch = s.latch := rfl
@[simp] theorem advance_phase (read wrote : Nat) (s : State) : (advance read wrote s).phase = s.phase := rfl
@[simp] theorem advance_consumed (read wrote : Nat) (s : State) : (advance read wrote s).consumed = s.consumed + BitVec.ofNat 32 read := rfl
@[simp] theorem advance_written (read wrote : Nat) (s : State) : (advance read wrote s).written = s.written + BitVec.ofNat 32 wrote := rfl
@[simp] theorem advance_status (read wrote : Nat) (s : State) : (advance read wrote s).status = s.status := rfl
@[simp] theorem advance_fault (read wrote : Nat) (s : State) : (advance read wrote s).fault = s.fault := rfl
@[simp] theorem advance_value (read wrote : Nat) (s : State) : (advance read wrote s).value = s.value := rfl
@[simp] theorem advance_units (read wrote : Nat) (s : State) : (advance read wrote s).units = s.units := rfl
@[simp] theorem advance_mem (read wrote : Nat) (s : State) : (advance read wrote s).mem = s.mem := rfl
@[simp] theorem advance_memMap (read wrote : Nat) (s : State) : (advance read wrote s).memMap = s.memMap := rfl
@[simp] theorem advance_offers (read wrote : Nat) (s : State) : (advance read wrote s).offers = s.offers := rfl
@[simp] theorem advance_responses (read wrote : Nat) (s : State) : (advance read wrote s).responses = s.responses := rfl
@[simp] theorem advance_hostTakes (read wrote : Nat) (s : State) : (advance read wrote s).hostTakes = s.hostTakes := rfl
@[simp] theorem advance_resetIn (read wrote : Nat) (s : State) : (advance read wrote s).resetIn = s.resetIn := rfl
@[simp] theorem advance_uopSel (read wrote : Nat) (s : State) : (advance read wrote s).uopSel = s.uopSel := rfl
@[simp] theorem advance_tick (read wrote : Nat) (s : State) : (advance read wrote s).tick = s.tick := rfl
@[simp] theorem advance_lanes (read wrote : Nat) (s : State) : (advance read wrote s).lanes = s.lanes := rfl
@[simp] theorem advance_window (read wrote : Nat) (s : State) : (advance read wrote s).window = s.window := rfl

/-! ## leaveBulkUnlessOk -/

@[simp] theorem leaveBulkUnlessOk_config (s : State) : (leaveBulkUnlessOk s).config = s.config := by unfold leaveBulkUnlessOk; split <;> rfl
@[simp] theorem leaveBulkUnlessOk_latch (s : State) : (leaveBulkUnlessOk s).latch = s.latch := by unfold leaveBulkUnlessOk; split <;> rfl
@[simp] theorem leaveBulkUnlessOk_phase (s : State) : (leaveBulkUnlessOk s).phase = if bulkOk s then s.phase else .tailTransform := by unfold leaveBulkUnlessOk; split <;> rfl
@[simp] theorem leaveBulkUnlessOk_consumed (s : State) : (leaveBulkUnlessOk s).consumed = s.consumed := by unfold leaveBulkUnlessOk; split <;> rfl
@[simp] theorem leaveBulkUnlessOk_written (s : State) : (leaveBulkUnlessOk s).written = s.written := by unfold leaveBulkUnlessOk; split <;> rfl
@[simp] theorem leaveBulkUnlessOk_status (s : State) : (leaveBulkUnlessOk s).status = s.status := by unfold leaveBulkUnlessOk; split <;> rfl
@[simp] theorem leaveBulkUnlessOk_fault (s : State) : (leaveBulkUnlessOk s).fault = s.fault := by unfold leaveBulkUnlessOk; split <;> rfl
@[simp] theorem leaveBulkUnlessOk_value (s : State) : (leaveBulkUnlessOk s).value = s.value := by unfold leaveBulkUnlessOk; split <;> rfl
@[simp] theorem leaveBulkUnlessOk_units (s : State) : (leaveBulkUnlessOk s).units = s.units := by unfold leaveBulkUnlessOk; split <;> rfl
@[simp] theorem leaveBulkUnlessOk_mem (s : State) : (leaveBulkUnlessOk s).mem = s.mem := by unfold leaveBulkUnlessOk; split <;> rfl
@[simp] theorem leaveBulkUnlessOk_memMap (s : State) : (leaveBulkUnlessOk s).memMap = s.memMap := by unfold leaveBulkUnlessOk; split <;> rfl
@[simp] theorem leaveBulkUnlessOk_offers (s : State) : (leaveBulkUnlessOk s).offers = s.offers := by unfold leaveBulkUnlessOk; split <;> rfl
@[simp] theorem leaveBulkUnlessOk_responses (s : State) : (leaveBulkUnlessOk s).responses = s.responses := by unfold leaveBulkUnlessOk; split <;> rfl
@[simp] theorem leaveBulkUnlessOk_hostTakes (s : State) : (leaveBulkUnlessOk s).hostTakes = s.hostTakes := by unfold leaveBulkUnlessOk; split <;> rfl
@[simp] theorem leaveBulkUnlessOk_resetIn (s : State) : (leaveBulkUnlessOk s).resetIn = s.resetIn := by unfold leaveBulkUnlessOk; split <;> rfl
@[simp] theorem leaveBulkUnlessOk_uopSel (s : State) : (leaveBulkUnlessOk s).uopSel = s.uopSel := by unfold leaveBulkUnlessOk; split <;> rfl
@[simp] theorem leaveBulkUnlessOk_tick (s : State) : (leaveBulkUnlessOk s).tick = s.tick := by unfold leaveBulkUnlessOk; split <;> rfl
@[simp] theorem leaveBulkUnlessOk_lanes (s : State) : (leaveBulkUnlessOk s).lanes = s.lanes := by simp [State.lanes]
@[simp] theorem leaveBulkUnlessOk_window (s : State) : (leaveBulkUnlessOk s).window = s.window := by simp [State.window]
@[simp] theorem leaveBulkUnlessOk_srcAddr (s : State) : (leaveBulkUnlessOk s).srcAddr = s.srcAddr := by simp [State.srcAddr]
@[simp] theorem leaveBulkUnlessOk_dstAddr (s : State) : (leaveBulkUnlessOk s).dstAddr = s.dstAddr := by simp [State.dstAddr]
@[simp] theorem leaveBulkUnlessOk_remaining (s : State) : (leaveBulkUnlessOk s).remaining = s.remaining := by simp [State.remaining]
@[simp] theorem leaveBulkUnlessOk_room (s : State) : (leaveBulkUnlessOk s).room = s.room := by simp [State.room]

/-! ## scan -/

@[simp] theorem scan_config (s : State) : (scan s).config = s.config := by unfold scan; split <;> rfl
@[simp] theorem scan_latch (s : State) : (scan s).latch = s.latch := by unfold scan; split <;> rfl
@[simp] theorem scan_consumed (s : State) : (scan s).consumed = s.consumed := by unfold scan; split <;> rfl
@[simp] theorem scan_written (s : State) : (scan s).written = s.written := by unfold scan; split <;> rfl
@[simp] theorem scan_status (s : State) : (scan s).status = s.status := by unfold scan; split <;> rfl
@[simp] theorem scan_fault (s : State) : (scan s).fault = s.fault := by unfold scan; split <;> rfl
@[simp] theorem scan_value (s : State) : (scan s).value = s.value := by unfold scan; split <;> rfl
@[simp] theorem scan_units (s : State) : (scan s).units = s.units := by unfold scan; split <;> rfl
@[simp] theorem scan_mem (s : State) : (scan s).mem = s.mem := by unfold scan; split <;> rfl
@[simp] theorem scan_memMap (s : State) : (scan s).memMap = s.memMap := by unfold scan; split <;> rfl
@[simp] theorem scan_offers (s : State) : (scan s).offers = s.offers := by unfold scan; split <;> rfl
@[simp] theorem scan_responses (s : State) : (scan s).responses = s.responses := by unfold scan; split <;> rfl
@[simp] theorem scan_hostTakes (s : State) : (scan s).hostTakes = s.hostTakes := by unfold scan; split <;> rfl
@[simp] theorem scan_resetIn (s : State) : (scan s).resetIn = s.resetIn := by unfold scan; split <;> rfl
@[simp] theorem scan_uopSel (s : State) : (scan s).uopSel = s.uopSel := by unfold scan; split <;> rfl
@[simp] theorem scan_tick (s : State) : (scan s).tick = s.tick := by unfold scan; split <;> rfl
@[simp] theorem scan_lanes (s : State) : (scan s).lanes = s.lanes := by simp [State.lanes]
@[simp] theorem scan_window (s : State) : (scan s).window = s.window := by simp [State.window]
@[simp] theorem scan_srcAddr (s : State) : (scan s).srcAddr = s.srcAddr := by simp [State.srcAddr]
@[simp] theorem scan_dstAddr (s : State) : (scan s).dstAddr = s.dstAddr := by simp [State.dstAddr]
@[simp] theorem scan_remaining (s : State) : (scan s).remaining = s.remaining := by simp [State.remaining]
@[simp] theorem scan_room (s : State) : (scan s).room = s.room := by simp [State.room]

/-! ## setValue -/

@[simp] theorem setValue_config (v : Int) (s : State) : (setValue v s).config = s.config := rfl
@[simp] theorem setValue_latch (v : Int) (s : State) : (setValue v s).latch = s.latch := rfl
@[simp] theorem setValue_phase (v : Int) (s : State) : (setValue v s).phase = s.phase := rfl
@[simp] theorem setValue_consumed (v : Int) (s : State) : (setValue v s).consumed = s.consumed := rfl
@[simp] theorem setValue_written (v : Int) (s : State) : (setValue v s).written = s.written := rfl
@[simp] theorem setValue_status (v : Int) (s : State) : (setValue v s).status = s.status := rfl
@[simp] theorem setValue_fault (v : Int) (s : State) : (setValue v s).fault = s.fault := rfl
@[simp] theorem setValue_value (v : Int) (s : State) : (setValue v s).value = BitVec.ofInt 32 v := rfl
@[simp] theorem setValue_units (v : Int) (s : State) : (setValue v s).units = s.units := rfl
@[simp] theorem setValue_mem (v : Int) (s : State) : (setValue v s).mem = s.mem := rfl
@[simp] theorem setValue_memMap (v : Int) (s : State) : (setValue v s).memMap = s.memMap := rfl
@[simp] theorem setValue_offers (v : Int) (s : State) : (setValue v s).offers = s.offers := rfl
@[simp] theorem setValue_responses (v : Int) (s : State) : (setValue v s).responses = s.responses := rfl
@[simp] theorem setValue_hostTakes (v : Int) (s : State) : (setValue v s).hostTakes = s.hostTakes := rfl
@[simp] theorem setValue_resetIn (v : Int) (s : State) : (setValue v s).resetIn = s.resetIn := rfl
@[simp] theorem setValue_uopSel (v : Int) (s : State) : (setValue v s).uopSel = s.uopSel := rfl
@[simp] theorem setValue_tick (v : Int) (s : State) : (setValue v s).tick = s.tick := rfl
@[simp] theorem setValue_lanes (v : Int) (s : State) : (setValue v s).lanes = s.lanes := rfl
@[simp] theorem setValue_window (v : Int) (s : State) : (setValue v s).window = s.window := rfl
@[simp] theorem setValue_srcAddr (v : Int) (s : State) : (setValue v s).srcAddr = s.srcAddr := rfl
@[simp] theorem setValue_dstAddr (v : Int) (s : State) : (setValue v s).dstAddr = s.dstAddr := rfl
@[simp] theorem setValue_remaining (v : Int) (s : State) : (setValue v s).remaining = s.remaining := rfl
@[simp] theorem setValue_room (v : Int) (s : State) : (setValue v s).room = s.room := rfl

/-! ## openValue -/

@[simp] theorem openValue_config (s : State) : (openValue s).config = s.config := rfl
@[simp] theorem openValue_latch (s : State) : (openValue s).latch = s.latch := rfl
@[simp] theorem openValue_phase (s : State) : (openValue s).phase = s.phase := rfl
@[simp] theorem openValue_consumed (s : State) : (openValue s).consumed = s.consumed := rfl
@[simp] theorem openValue_written (s : State) : (openValue s).written = s.written := rfl
@[simp] theorem openValue_status (s : State) : (openValue s).status = s.status := rfl
@[simp] theorem openValue_fault (s : State) : (openValue s).fault = s.fault := rfl
@[simp] theorem openValue_value (s : State) : (openValue s).value = Config.unspecified 32 s.tick 280 := rfl
@[simp] theorem openValue_units (s : State) : (openValue s).units = s.units := rfl
@[simp] theorem openValue_mem (s : State) : (openValue s).mem = s.mem := rfl
@[simp] theorem openValue_memMap (s : State) : (openValue s).memMap = s.memMap := rfl
@[simp] theorem openValue_offers (s : State) : (openValue s).offers = s.offers := rfl
@[simp] theorem openValue_responses (s : State) : (openValue s).responses = s.responses := rfl
@[simp] theorem openValue_hostTakes (s : State) : (openValue s).hostTakes = s.hostTakes := rfl
@[simp] theorem openValue_resetIn (s : State) : (openValue s).resetIn = s.resetIn := rfl
@[simp] theorem openValue_uopSel (s : State) : (openValue s).uopSel = s.uopSel := rfl
@[simp] theorem openValue_tick (s : State) : (openValue s).tick = s.tick + 1 := rfl
@[simp] theorem openValue_lanes (s : State) : (openValue s).lanes = s.lanes := rfl
@[simp] theorem openValue_window (s : State) : (openValue s).window = s.window := rfl
@[simp] theorem openValue_srcAddr (s : State) : (openValue s).srcAddr = s.srcAddr := rfl
@[simp] theorem openValue_dstAddr (s : State) : (openValue s).dstAddr = s.dstAddr := rfl
@[simp] theorem openValue_remaining (s : State) : (openValue s).remaining = s.remaining := rfl
@[simp] theorem openValue_room (s : State) : (openValue s).room = s.room := rfl

/-! ## lcEnclen -/

@[simp] theorem lcEnclen_config (s : State) : (lcEnclen s).config = s.config := by unfold lcEnclen; split <;> rfl
@[simp] theorem lcEnclen_latch (s : State) : (lcEnclen s).latch = s.latch := by unfold lcEnclen; split <;> rfl
@[simp] theorem lcEnclen_phase (s : State) : (lcEnclen s).phase = s.phase := by unfold lcEnclen; split <;> rfl
@[simp] theorem lcEnclen_consumed (s : State) : (lcEnclen s).consumed = s.consumed := by unfold lcEnclen; split <;> rfl
@[simp] theorem lcEnclen_written (s : State) : (lcEnclen s).written = s.written := by unfold lcEnclen; split <;> rfl
@[simp] theorem lcEnclen_status (s : State) : (lcEnclen s).status = s.status := by unfold lcEnclen; split <;> rfl
@[simp] theorem lcEnclen_fault (s : State) : (lcEnclen s).fault = s.fault := by unfold lcEnclen; split <;> rfl
@[simp] theorem lcEnclen_units (s : State) : (lcEnclen s).units = s.units := by unfold lcEnclen; split <;> rfl
@[simp] theorem lcEnclen_mem (s : State) : (lcEnclen s).mem = s.mem := by unfold lcEnclen; split <;> rfl
@[simp] theorem lcEnclen_memMap (s : State) : (lcEnclen s).memMap = s.memMap := by unfold lcEnclen; split <;> rfl
@[simp] theorem lcEnclen_offers (s : State) : (lcEnclen s).offers = s.offers := by unfold lcEnclen; split <;> rfl
@[simp] theorem lcEnclen_responses (s : State) : (lcEnclen s).responses = s.responses := by unfold lcEnclen; split <;> rfl
@[simp] theorem lcEnclen_hostTakes (s : State) : (lcEnclen s).hostTakes = s.hostTakes := by unfold lcEnclen; split <;> rfl
@[simp] theorem lcEnclen_resetIn (s : State) : (lcEnclen s).resetIn = s.resetIn := by unfold lcEnclen; split <;> rfl
@[simp] theorem lcEnclen_uopSel (s : State) : (lcEnclen s).uopSel = s.uopSel := by unfold lcEnclen; split <;> rfl
@[simp] theorem lcEnclen_lanes (s : State) : (lcEnclen s).lanes = s.lanes := by simp [State.lanes]
@[simp] theorem lcEnclen_window (s : State) : (lcEnclen s).window = s.window := by simp [State.window]
@[simp] theorem lcEnclen_srcAddr (s : State) : (lcEnclen s).srcAddr = s.srcAddr := by simp [State.srcAddr]
@[simp] theorem lcEnclen_dstAddr (s : State) : (lcEnclen s).dstAddr = s.dstAddr := by simp [State.dstAddr]
@[simp] theorem lcEnclen_remaining (s : State) : (lcEnclen s).remaining = s.remaining := by simp [State.remaining]
@[simp] theorem lcEnclen_room (s : State) : (lcEnclen s).room = s.room := by simp [State.room]

/-! ## acceptIllegal -/

@[simp] theorem acceptIllegal_config (d : Descriptor) (s : State) : (acceptIllegal d s).config = s.config := rfl
@[simp] theorem acceptIllegal_latch (d : Descriptor) (s : State) : (acceptIllegal d s).latch = latchOfDescriptor d := rfl
@[simp] theorem acceptIllegal_phase (d : Descriptor) (s : State) : (acceptIllegal d s).phase = .done := rfl
@[simp] theorem acceptIllegal_consumed (d : Descriptor) (s : State) : (acceptIllegal d s).consumed = 0 := rfl
@[simp] theorem acceptIllegal_written (d : Descriptor) (s : State) : (acceptIllegal d s).written = 0 := rfl
@[simp] theorem acceptIllegal_status (d : Descriptor) (s : State) : (acceptIllegal d s).status = .done := rfl
@[simp] theorem acceptIllegal_fault (d : Descriptor) (s : State) : (acceptIllegal d s).fault = 1#4 := rfl
@[simp] theorem acceptIllegal_value (d : Descriptor) (s : State) : (acceptIllegal d s).value = 0 := rfl
@[simp] theorem acceptIllegal_units (d : Descriptor) (s : State) : (acceptIllegal d s).units = s.units := rfl
@[simp] theorem acceptIllegal_mem (d : Descriptor) (s : State) : (acceptIllegal d s).mem = s.mem := rfl
@[simp] theorem acceptIllegal_memMap (d : Descriptor) (s : State) : (acceptIllegal d s).memMap = s.memMap := rfl
@[simp] theorem acceptIllegal_offers (d : Descriptor) (s : State) : (acceptIllegal d s).offers = s.offers := rfl
@[simp] theorem acceptIllegal_responses (d : Descriptor) (s : State) : (acceptIllegal d s).responses = s.responses := rfl
@[simp] theorem acceptIllegal_hostTakes (d : Descriptor) (s : State) : (acceptIllegal d s).hostTakes = s.hostTakes := rfl
@[simp] theorem acceptIllegal_resetIn (d : Descriptor) (s : State) : (acceptIllegal d s).resetIn = s.resetIn := rfl
@[simp] theorem acceptIllegal_uopSel (d : Descriptor) (s : State) : (acceptIllegal d s).uopSel = s.uopSel := rfl
@[simp] theorem acceptIllegal_tick (d : Descriptor) (s : State) : (acceptIllegal d s).tick = s.tick := rfl
@[simp] theorem acceptIllegal_lanes (d : Descriptor) (s : State) : (acceptIllegal d s).lanes = s.lanes := rfl
@[simp] theorem acceptIllegal_window (d : Descriptor) (s : State) : (acceptIllegal d s).window = s.window := rfl

/-! ## A state with another memory, list of offers or phase -/

@[simp] theorem with_mem_lanes (s : State) (m : Memory) : State.lanes { s with mem := m } = s.lanes := rfl
@[simp] theorem with_mem_window (s : State) (m : Memory) : State.window { s with mem := m } = s.window := rfl
@[simp] theorem with_mem_srcAddr (s : State) (m : Memory) : State.srcAddr { s with mem := m } = s.srcAddr := rfl
@[simp] theorem with_mem_dstAddr (s : State) (m : Memory) : State.dstAddr { s with mem := m } = s.dstAddr := rfl
@[simp] theorem with_mem_remaining (s : State) (m : Memory) : State.remaining { s with mem := m } = s.remaining := rfl
@[simp] theorem with_mem_room (s : State) (m : Memory) : State.room { s with mem := m } = s.room := rfl
@[simp] theorem with_phase_lanes (s : State) (p : Phase) : State.lanes { s with phase := p } = s.lanes := rfl
@[simp] theorem with_phase_window (s : State) (p : Phase) : State.window { s with phase := p } = s.window := rfl
@[simp] theorem with_phase_srcAddr (s : State) (p : Phase) : State.srcAddr { s with phase := p } = s.srcAddr := rfl
@[simp] theorem with_phase_dstAddr (s : State) (p : Phase) : State.dstAddr { s with phase := p } = s.dstAddr := rfl
@[simp] theorem with_phase_remaining (s : State) (p : Phase) : State.remaining { s with phase := p } = s.remaining := rfl
@[simp] theorem with_phase_room (s : State) (p : Phase) : State.room { s with phase := p } = s.room := rfl
@[simp] theorem with_offers_lanes (s : State) (o : List Descriptor) : State.lanes { s with offers := o } = s.lanes := rfl
@[simp] theorem with_offers_window (s : State) (o : List Descriptor) : State.window { s with offers := o } = s.window := rfl
@[simp] theorem with_offers_srcAddr (s : State) (o : List Descriptor) : State.srcAddr { s with offers := o } = s.srcAddr := rfl
@[simp] theorem with_offers_dstAddr (s : State) (o : List Descriptor) : State.dstAddr { s with offers := o } = s.dstAddr := rfl
@[simp] theorem with_offers_remaining (s : State) (o : List Descriptor) : State.remaining { s with offers := o } = s.remaining := rfl
@[simp] theorem with_offers_room (s : State) (o : List Descriptor) : State.room { s with offers := o } = s.room := rfl
@[simp] theorem with_uopSel_lanes (s : State) (u : Option UopCode) : State.lanes { s with uopSel := u } = s.lanes := rfl
@[simp] theorem with_uopSel_window (s : State) (u : Option UopCode) : State.window { s with uopSel := u } = s.window := rfl
@[simp] theorem with_uopSel_srcAddr (s : State) (u : Option UopCode) : State.srcAddr { s with uopSel := u } = s.srcAddr := rfl
@[simp] theorem with_uopSel_dstAddr (s : State) (u : Option UopCode) : State.dstAddr { s with uopSel := u } = s.dstAddr := rfl
@[simp] theorem with_uopSel_remaining (s : State) (u : Option UopCode) : State.remaining { s with uopSel := u } = s.remaining := rfl
@[simp] theorem with_uopSel_room (s : State) (u : Option UopCode) : State.room { s with uopSel := u } = s.room := rfl
@[simp] theorem with_units_lanes (s : State) (u : Units) : State.lanes { s with units := u } = s.lanes := rfl
@[simp] theorem with_units_window (s : State) (u : Units) : State.window { s with units := u } = s.window := rfl
@[simp] theorem with_units_srcAddr (s : State) (u : Units) : State.srcAddr { s with units := u } = s.srcAddr := rfl
@[simp] theorem with_units_dstAddr (s : State) (u : Units) : State.dstAddr { s with units := u } = s.dstAddr := rfl
@[simp] theorem with_units_remaining (s : State) (u : Units) : State.remaining { s with units := u } = s.remaining := rfl
@[simp] theorem with_units_room (s : State) (u : Units) : State.room { s with units := u } = s.room := rfl
@[simp] theorem with_units_mem_lanes (s : State) (u : Units) (m : Memory) :
    State.lanes { s with units := u, mem := m } = s.lanes := rfl
@[simp] theorem with_units_mem_window (s : State) (u : Units) (m : Memory) :
    State.window { s with units := u, mem := m } = s.window := rfl
@[simp] theorem with_units_mem_srcAddr (s : State) (u : Units) (m : Memory) :
    State.srcAddr { s with units := u, mem := m } = s.srcAddr := rfl
@[simp] theorem with_units_mem_dstAddr (s : State) (u : Units) (m : Memory) :
    State.dstAddr { s with units := u, mem := m } = s.dstAddr := rfl
@[simp] theorem with_units_mem_remaining (s : State) (u : Units) (m : Memory) :
    State.remaining { s with units := u, mem := m } = s.remaining := rfl
@[simp] theorem with_units_mem_room (s : State) (u : Units) (m : Memory) :
    State.room { s with units := u, mem := m } = s.room := rfl

end Sys2Proof.Machine
end

