-- ==== Sys2Proof/Laws/Ops.lean ====
section
/-! SUPPORT. One lemma per shared operation that says once what it can do, and the equations of `step` by phase: what
proofs cite instead of unfolding. -/

namespace Sys2Proof.Machine

/-! ## Chaining -/

@[simp] theorem andThen_ok_iff {α β : Type} {r : Except Fault α} {f : α → Except Fault β} {b : β} :
    andThen r f = .ok b ↔ ∃ a, r = .ok a ∧ f a = .ok b := by
  cases r <;> simp [andThen]

@[simp] theorem andThen_ok {α β : Type} (a : α) (f : α → Except Fault β) : andThen (.ok a) f = f a := rfl

@[simp] theorem andThen_error {α β : Type} (e : Fault) (f : α → Except Fault β) : andThen (.error e) f = .error e := rfl

@[simp] theorem outcome_next_iff {r : Except Fault State} {t : State} : outcome r = .next t ↔ r = .ok t := by
  cases r <;> simp [outcome]

@[simp] theorem outcome_fault_iff {r : Except Fault State} {f : Fault} : outcome r = .fault f ↔ r = .error f := by
  cases r <;> simp [outcome]

@[simp] theorem outcome_refused_iff {r : Except Fault State} {f : Refusal} : outcome r = .refused f ↔ False := by
  cases r <;> simp [outcome]

/-! ## Lanes -/

@[simp] theorem length_lanesFrom (n : Nat) (f : Nat → Byte) : (lanesFrom n f).length = n := by simp [lanesFrom]

@[simp] theorem lane_lanesFrom {n i : Nat} (f : Nat → Byte) (h : i < n) : lane (lanesFrom n f) i = f i := by
  simp [lane, lanesFrom, List.getD, h]

/-- `L` is 0, 16 or 32 (R6). -/
theorem lanesOf_cases (cap : BitVec 2) : lanesOf cap = 0 ∨ lanesOf cap = 16 ∨ lanesOf cap = 32 := by
  unfold lanesOf; split <;> simp

theorem lanes_cases (s : State) : s.lanes = 0 ∨ s.lanes = 16 ∨ s.lanes = 32 := lanesOf_cases _

theorem window_eq (s : State) : s.window = 3 * s.lanes / 4 := rfl

/-! ## The address map -/

/-- The ranges of the map that end above `a`: what `coveredFrom` may still pass through. -/
theorem coveredFrom_sound {ok : MemRegion → Bool} {map : List MemRegion} :
    ∀ {fuel a e : Nat}, coveredFrom ok map fuel a e = true →
      ∀ x, a ≤ x → x < e → ∃ r ∈ map, ok r = true ∧ r.base ≤ x ∧ x < r.base + r.len
  | 0, a, e, h, x, h1, h2 => by
    simp only [coveredFrom, decide_eq_true_eq] at h; omega
  | fuel + 1, a, e, h, x, h1, h2 => by
    unfold coveredFrom at h
    split at h
    · omega
    · split at h
      · cases h
      · rename_i r hr
        have hp := List.find?_some hr
        simp only [Bool.and_eq_true, decide_eq_true_eq] at hp
        by_cases hx : x < r.base + r.len
        · exact ⟨r, List.mem_of_find?_eq_some hr, hp.1.1, by omega, hx⟩
        · exact coveredFrom_sound h x (by omega) h2

/-- Enough fuel, for ranges that end above `a`, finds a covering whenever there is one. -/
theorem coveredFrom_complete {ok : MemRegion → Bool} {map : List MemRegion} :
    ∀ {fuel a e : Nat}, (map.filter fun r => decide (a < r.base + r.len)).length ≤ fuel →
      (∀ x, a ≤ x → x < e → ∃ r ∈ map, ok r = true ∧ r.base ≤ x ∧ x < r.base + r.len) →
      coveredFrom ok map fuel a e = true
  | 0, a, e, hf, h => by
    simp only [coveredFrom, decide_eq_true_eq]
    by_contra hlt
    obtain ⟨r, hr, _, _, h3⟩ := h a (Nat.le_refl a) (by omega)
    have : r ∈ map.filter fun r => decide (a < r.base + r.len) := List.mem_filter.2 ⟨hr, by simpa using h3⟩
    have := List.length_pos_of_mem this
    omega
  | fuel + 1, a, e, hf, h => by
    unfold coveredFrom
    split
    · rfl
    · rename_i hlt
      obtain ⟨r, hr, h1, h2, h3⟩ := h a (Nat.le_refl a) (by omega)
      split
      · rename_i hn
        have := List.find?_eq_none.1 hn r hr
        simp [h1, h2, h3] at this
      · rename_i q hq
        have hp := List.find?_some hq
        simp only [Bool.and_eq_true, decide_eq_true_eq] at hp
        refine coveredFrom_complete ?_ (fun x hx1 hx2 => h x (by omega) hx2)
        have hmem := List.mem_of_find?_eq_some hq
        have hsub : (map.filter fun r => decide (q.base + q.len < r.base + r.len)).length <
            (map.filter fun r => decide (a < r.base + r.len)).length := by
          have : (map.filter fun r => decide (q.base + q.len < r.base + r.len)) =
              ((map.filter fun r => decide (a < r.base + r.len)).filter
                fun r => decide (q.base + q.len < r.base + r.len)) := by
            rw [List.filter_filter]
            apply List.filter_congr
            intro r _
            by_cases hr2 : q.base + q.len < r.base + r.len
            · simp [hr2, show a < r.base + r.len by omega]
            · simp [hr2]
          rw [this]
          apply List.length_filter_lt_length_iff_exists.2
          exact ⟨q, List.mem_filter.2 ⟨hmem, by simpa using hp.2⟩, by simp⟩
        omega

/-- Readable memory, byte by byte (R70). -/
theorem readableMem_iff {map : List MemRegion} {a n : Nat} :
    readableMem map a n = true ↔ a + n ≤ Config.addressSpace ∧
      ∀ x, a ≤ x → x < a + n → ∃ r ∈ map, r.readable = true ∧ r.base ≤ x ∧ x < r.base + r.len := by
  simp only [readableMem, Bool.and_eq_true, decide_eq_true_eq]
  exact ⟨fun h => ⟨h.1, coveredFrom_sound h.2⟩,
    fun h => ⟨h.1, coveredFrom_complete (List.length_filter_le _ _) h.2⟩⟩

/-- Writable memory, byte by byte (R70). -/
theorem writableMem_iff {map : List MemRegion} {a n : Nat} :
    writableMem map a n = true ↔ a + n ≤ Config.addressSpace ∧
      ∀ x, a ≤ x → x < a + n → ∃ r ∈ map, r.writable = true ∧ r.base ≤ x ∧ x < r.base + r.len := by
  simp only [writableMem, Bool.and_eq_true, decide_eq_true_eq]
  exact ⟨fun h => ⟨h.1, coveredFrom_sound h.2⟩,
    fun h => ⟨h.1, coveredFrom_complete (List.length_filter_le _ _) h.2⟩⟩

/-- A part of readable memory is readable. -/
theorem readableMem_mono {map : List MemRegion} {a n b k : Nat} (h : readableMem map a n = true) (h1 : a ≤ b)
    (h2 : b + k ≤ a + n) : readableMem map b k = true := by
  rw [readableMem_iff] at h ⊢
  exact ⟨by omega, fun x hx1 hx2 => h.2 x (by omega) (by omega)⟩

/-- A part of writable memory is writable. -/
theorem writableMem_mono {map : List MemRegion} {a n b k : Nat} (h : writableMem map a n = true) (h1 : a ≤ b)
    (h2 : b + k ≤ a + n) : writableMem map b k = true := by
  rw [writableMem_iff] at h ⊢
  exact ⟨by omega, fun x hx1 hx2 => h.2 x (by omega) (by omega)⟩

@[simp] theorem insideSource_iff {l : Latch} {a n : Nat} : insideSource l a n = true ↔
    l.srcBase.toNat ≤ a ∧ a + n ≤ l.srcBase.toNat + l.srcLen.toNat := by simp [insideSource]

@[simp] theorem insideDestination_iff {l : Latch} {a n : Nat} : insideDestination l a n = true ↔
    l.dstBase.toNat ≤ a ∧ a + n ≤ l.dstBase.toNat + l.dstCap.toNat := by simp [insideDestination]

/-- The overlap test is about bytes: none is in both regions (R71). -/
theorem regionsOverlap_false_iff {l : Latch} : regionsOverlap l = false ↔
    ∀ a, ¬((l.srcBase.toNat ≤ a ∧ a < l.srcBase.toNat + l.srcLen.toNat) ∧
      (l.dstBase.toNat ≤ a ∧ a < l.dstBase.toNat + l.dstCap.toNat)) := by
  simp only [regionsOverlap, rangesMeet, decide_eq_false_iff_not]
  constructor
  · intro h a ha; omega
  · intro h hlt; exact h (max l.srcBase.toNat l.dstBase.toNat) (by omega)

/-! ## The engines' loads and stores -/

/-- The halves of an encode load: lane `16h + i` is the byte at `p + 12h + i` (R191). -/
theorem loadHalves_ok {s : State} {p : Nat} : ∀ {k : Nat} {v : List Byte}, loadHalves s p k = .ok v →
    v.length = 16 * k ∧ ∀ h < k, ∀ i < 16, lane v (16 * h + i) = s.mem.read (p + 12 * h + i)
  | 0, v, h => by cases h; exact ⟨rfl, fun h hh => by omega⟩
  | k + 1, v, hv => by
    simp only [loadHalves, andThen_ok_iff] at hv
    obtain ⟨front, hf, half, hr, hv⟩ := hv
    obtain ⟨hlen, hl⟩ := loadHalves_ok hf
    obtain ⟨_, _, rfl⟩ := memRead_ok hr
    injection hv with hv; subst hv
    refine ⟨by simp [hlen]; omega, fun h hh i hi => ?_⟩
    unfold lane
    by_cases hk : h = k
    · subst hk
      rw [List.getD_append_right _ _ _ _ (by omega), hlen,
        show 16 * h + i - 16 * h = i by omega, Memory.getD_readBytes _ _ hi]
    · rw [List.getD_append _ _ _ _ (by omega)]
      exact hl h (by omega) i hi

/-- Everything `VE.LOAD` can do (R191). -/
theorem veLoad_ok {s t : State} (h : veLoad s = .ok t) : ∃ v : List Byte, t = setVe v s ∧
    v.length = 16 * (s.lanes / 16) ∧
    ∀ h < s.lanes / 16, ∀ i < 16, lane v (16 * h + i) = s.mem.read (s.srcAddr + 12 * h + i) := by
  simp only [veLoad, andThen_ok_iff] at h
  obtain ⟨v, hv, ht⟩ := h
  injection ht with ht
  exact ⟨v, ht.symm, loadHalves_ok hv⟩

/-- Everything `VE.STORE` can do (R194). -/
theorem veStore_ok {s t : State} (h : veStore s = .ok t) :
    insideDestination s.latch s.dstAddr s.lanes = true ∧ writableMem s.memMap s.dstAddr s.lanes = true ∧
    t = { s with mem := s.mem.writeBytes s.dstAddr (lanesFrom s.lanes (lane s.units.veV)) } := by
  have := memWrite_ok h
  simpa using this

/-- A state that differs from `s` in the working registers only. -/
def OnlyUnits (s t : State) : Prop := t = { s with units := t.units }

theorem OnlyUnits.mk' (s : State) (u : Units) : OnlyUnits s { s with units := u } := rfl

theorem OnlyUnits.trans {s t v : State} (h1 : OnlyUnits s t) (h2 : OnlyUnits t v) : OnlyUnits s v := by
  unfold OnlyUnits at *; rw [h2, h1]

theorem setVe_onlyUnits (v : List Byte) (s : State) : OnlyUnits s (setVe v s) := rfl

theorem setVd_onlyUnits (v : List Byte) (s : State) : OnlyUnits s (setVd v s) := rfl

theorem spuShuf_onlyUnits (s : State) : OnlyUnits s (spuShuf s) := rfl

theorem rcuEnc_onlyUnits (s : State) : OnlyUnits s (rcuEnc s) := rfl

theorem rcuDec_onlyUnits (s : State) : OnlyUnits s (rcuDec s) := rfl

theorem veShuffle_onlyUnits (s : State) : OnlyUnits s (veShuffle s) :=
  ((OnlyUnits.mk' s _).trans (spuShuf_onlyUnits _)).trans (setVe_onlyUnits _ _)

theorem veSplit6_onlyUnits (s : State) : OnlyUnits s (veSplit6 s) := setVe_onlyUnits _ _

theorem veTranslate_onlyUnits (s : State) : OnlyUnits s (veTranslate s) :=
  ((OnlyUnits.mk' s _).trans (rcuEnc_onlyUnits _)).trans (setVe_onlyUnits _ _)

theorem vdTranslate_onlyUnits (s : State) : OnlyUnits s (vdTranslate s) :=
  ((OnlyUnits.mk' s _).trans (rcuDec_onlyUnits _)).trans (setVd_onlyUnits _ _)

theorem vdMerge6_onlyUnits (s : State) : OnlyUnits s (vdMerge6 s) := setVd_onlyUnits _ _

theorem vdShuffle_onlyUnits (s : State) : OnlyUnits s (vdShuffle s) :=
  ((OnlyUnits.mk' s _).trans (spuShuf_onlyUnits _)).trans (setVd_onlyUnits _ _)

/-- The three steps of an encode iteration between its load and its store: only working registers change. -/
theorem veChain_onlyUnits (s : State) : OnlyUnits s (veTranslate (veSplit6 (veShuffle s))) :=
  ((veShuffle_onlyUnits s).trans (veSplit6_onlyUnits _)).trans (veTranslate_onlyUnits _)

/-- Everything an encode iteration can change: the working registers, and the `L` bytes at `q` (R195). -/
theorem veIter_ok {s t : State} (h : veIter s = .ok t) : ∃ (u : Units) (bytes : List Byte), bytes.length = s.lanes ∧
    writableMem s.memMap s.dstAddr s.lanes = true ∧ insideDestination s.latch s.dstAddr s.lanes = true ∧
    t = { s with units := u, mem := s.mem.writeBytes s.dstAddr bytes } := by
  simp only [veIter, andThen_ok_iff] at h
  obtain ⟨a, ha, hs⟩ := h
  obtain ⟨v, rfl, -⟩ := veLoad_ok ha
  have hu := (setVe_onlyUnits v s).trans (veChain_onlyUnits (setVe v s))
  generalize veTranslate (veSplit6 (veShuffle (setVe v s))) = x at hu hs
  unfold OnlyUnits at hu
  generalize x.units = u at hu
  subst hu
  obtain ⟨hd, hw, rfl⟩ := veStore_ok hs
  exact ⟨u, lanesFrom s.lanes (lane u.veV), length_lanesFrom _ _, hw, hd, rfl⟩

/-- Everything a decode load can do (R197). -/
theorem vdLoad_ok {s t : State} (h : vdLoad s = .ok t) : t = setVd (s.mem.readBytes s.srcAddr s.lanes) s := by
  simp only [vdLoad, andThen_ok_iff] at h
  obtain ⟨v, hv, ht⟩ := h
  obtain ⟨-, -, rfl⟩ := memRead_ok hv
  injection ht with ht; exact ht.symm

/-- Everything the halves of a decode store can do: bytes `[q, q + 12k)` hold lanes `16h + i`, all others what they held
(R201). -/
theorem storeHalves_ok {q : Nat} : ∀ {k : Nat} {s t : State}, storeHalves q k s = .ok t →
    ∃ m : Memory, t = { s with mem := m } ∧ (k ≠ 0 → s.latch.dstBase.toNat ≤ q ∧
      q + 12 * k ≤ s.latch.dstBase.toNat + s.latch.dstCap.toNat) ∧ (s.mem.wf = true → m.wf = true ∧ ∀ x, m.read x =
      if q ≤ x ∧ x < q + 12 * k then lane s.units.vdV (16 * ((x - q) / 12) + (x - q) % 12) else s.mem.read x)
  | 0, s, t, h => by
    injection h with h; subst h
    exact ⟨s.mem, rfl, fun h => absurd rfl h, fun hw => ⟨hw, fun x => by rw [if_neg (by omega)]⟩⟩
  | k + 1, s, t, h => by
    simp only [storeHalves, andThen_ok_iff] at h
    obtain ⟨a, ha, hs⟩ := h
    obtain ⟨m, rfl, hin, hm⟩ := storeHalves_ok ha
    refine ⟨t.mem, ?_, fun _ => ?_, fun hw => ?_⟩
    · obtain ⟨-, -, rfl⟩ := memWrite_ok hs; rfl
    · obtain ⟨hi, -, -⟩ := memWrite_ok hs
      simp only [length_lanesFrom, insideDestination_iff] at hi
      by_cases hk : k = 0
      · subst hk; omega
      · have := hin hk; omega
    · obtain ⟨hmw, hread⟩ := hm hw
      refine ⟨memWrite_keeps_wf hs hmw, fun x => ?_⟩
      rw [memWrite_read hs hmw x]
      simp only [length_lanesFrom]
      by_cases h1 : q + 12 * k ≤ x ∧ x < q + 12 * k + 12
      · rw [if_pos h1, if_pos (by omega)]
        have : x - (q + 12 * k) < 12 := by omega
        have hl := lane_lanesFrom (fun i => lane s.units.vdV (16 * k + i)) this
        rw [lane] at hl
        rw [hl, show (x - q) / 12 = k by omega, show (x - q) % 12 = x - (q + 12 * k) by omega]
      · rw [if_neg h1, hread x]
        by_cases h2 : q ≤ x ∧ x < q + 12 * k
        · rw [if_pos h2, if_pos (by omega)]
        · rw [if_neg h2, if_neg (by omega)]

/-- Everything a decode iteration can change: the working registers; and, when no lane is bad, the `N` bytes at `q`
(R202, R203). -/
theorem vdIter_ok {s t : State} (h : vdIter s = .ok t) : ∃ (u : Units) (m : Memory),
    t = { s with units := u, mem := m } ∧ (u.vdAnybad = true → m = s.mem) ∧
    (u.vdAnybad = false → s.lanes ≠ 0 → insideDestination s.latch s.dstAddr (12 * (s.lanes / 16)) = true) ∧
    (s.mem.wf = true → m.wf = true ∧
      ∀ x, ¬(s.dstAddr ≤ x ∧ x < s.dstAddr + 12 * (s.lanes / 16)) → m.read x = s.mem.read x) := by
  simp only [vdIter, andThen_ok_iff] at h
  obtain ⟨a, ha, hs⟩ := h
  obtain rfl := vdLoad_ok ha
  generalize hy : vdTranslate (setVd (s.mem.readBytes s.srcAddr s.lanes) s) = y at hs
  have hy' : y = { s with units := y.units } := by rw [← hy]; rfl
  split at hs
  · injection hs with hs; subst hs
    rename_i hbad
    exact ⟨y.units, s.mem, hy', fun _ => rfl, fun h => by simp [hbad] at h, fun hw => ⟨hw, fun _ _ => rfl⟩⟩
  · rename_i hbad
    have hz : vdShuffle (vdMerge6 y) = { s with units := (vdShuffle (vdMerge6 y)).units } := by rw [hy']; rfl
    have hb : (vdShuffle (vdMerge6 y)).units.vdAnybad = y.units.vdAnybad := rfl
    generalize vdShuffle (vdMerge6 y) = z at hs hz hb
    obtain ⟨m, rfl, hin, hm⟩ := storeHalves_ok hs
    have e4 : z.latch = s.latch := by rw [hz]
    have e1 : z.mem = s.mem := by rw [hz]
    have e2 : z.dstAddr = s.dstAddr := by rw [hz]; rfl
    have e3 : z.lanes = s.lanes := by rw [hz]; rfl
    rw [e1, e2, e3] at hm
    rw [e2, e3, e4] at hin
    refine ⟨z.units, m, by rw [hz], fun hu => absurd (hb ▸ hu) hbad, fun _ h0 => ?_, fun hw => ⟨(hm hw).1, fun x hx => ?_⟩⟩
    · rw [insideDestination_iff]
      exact hin (by rcases lanes_cases s with h | h | h <;> omega)
    · rw [(hm hw).2 x, if_neg hx]

/-! ## The scalar groups -/

/-- The decoder's outputs with `ok = 1`, or none of them used (R144). -/
theorem setDecoder_some (w : GroupWord) (bytes : List Byte) (s : State) : setDecoder (some (w, bytes)) s =
    { s with units := { s.units with sdW := w, sdOk := true, sdK := BitVec.ofNat 2 bytes.length, sdOut := bytes } } := rfl

theorem setDecoder_none (s : State) : (setDecoder none s).units.sdOk = false := rfl

/-- A decoded group has three bytes (R145). -/
theorem decodeGroup_length {c : Configuration} {c0 c1 c2 c3 : Byte} {w : GroupWord} {bytes : List Byte}
    (h : decodeGroup c c0 c1 c2 c3 = some (w, bytes)) : bytes.length = 3 := by
  unfold decodeGroup at h
  split at h
  · cases h
  · injection h with h; injection h with _ h; subst h; rfl

/-- A decoded last group has three, two or one byte (R146). -/
theorem decodeFinal_length {c : Configuration} {c0 c1 c2 c3 : Byte} {w : GroupWord} {bytes : List Byte}
    (h : decodeFinal c c0 c1 c2 c3 = some (w, bytes)) : 1 ≤ bytes.length ∧ bytes.length ≤ 3 := by
  unfold decodeFinal at h
  split at h
  · have := decodeGroup_length h; omega
  · split at h <;> split at h
    · cases h
    · injection h with h; injection h with _ h; subst h; simp
    · cases h
    · injection h with h; injection h with _ h; subst h; simp

/-- Everything a scalar encode step can do: `n` bytes read, four symbols written at `q`, the cursors moved (R216, R217). -/
theorem encodeStep_ok {n : Nat} {unit : State → State} {s t : State} (hunit : ∀ x : State, ∃ u, unit x = { x with units := u })
    (h : encodeStep n unit s = .ok t) : ∃ (u : Units) (out : Vector Byte 4),
      out = (unit (feedEncoder (s.mem.readBytes s.srcAddr n) s)).units.seOut ∧
      writableMem s.memMap s.dstAddr 4 = true ∧ insideDestination s.latch s.dstAddr 4 = true ∧
      insideSource s.latch s.srcAddr n = true ∧
      t = advance n 4 { s with units := u, mem := s.mem.writeBytes s.dstAddr out.toList } := by
  simp only [encodeStep, andThen_ok_iff] at h
  obtain ⟨bytes, hr, v, hw, ht⟩ := h
  obtain ⟨hi, -, rfl⟩ := memRead_ok hr
  obtain ⟨u, hu⟩ := hunit (feedEncoder (s.mem.readBytes s.srcAddr n) s)
  rw [hu] at hw
  obtain ⟨hd, hm, rfl⟩ := memWrite_ok hw
  injection ht with ht; subst ht
  exact ⟨u, u.seOut, by rw [hu], by simpa using hm, by simpa using hd, hi, rfl⟩

/-! ## The step by what drives it -/

theorem step_of_reset {s : State} {c : WfConfiguration} (h : s.resetIn = some c) : step s = .next (resetEvent c s) := by
  simp [step, h]

theorem resetEvent_idle {s : State} (c : WfConfiguration) (h : s.phase = .idle) : resetEvent c s = resetBlock c s := by
  simp [resetEvent, h]

theorem resetEvent_inCommand {s : State} (c : WfConfiguration) (h : s.phase ≠ .idle) :
    resetEvent c s = resetBlock c (abandon { s with resetIn := none }) := by simp [resetEvent, h]

/-- Everything an abandoned command can leave: nothing but memory changes, by an access to the destination region. -/
theorem abandon_cases (s : State) : abandon s = s ∨ ∃ bytes, bytes <+: restOfOutput s ∧
    insideDestination s.latch s.dstAddr bytes.length = true ∧ writableMem s.memMap s.dstAddr bytes.length = true ∧
    abandon s = { s with mem := s.mem.writeBytes s.dstAddr bytes } := by
  unfold abandon
  cases h : memWrite s s.dstAddr ((restOfOutput s).take (Config.unspecified 32 s.tick 268).toNat) with
  | error f => exact .inl rfl
  | ok t =>
    obtain ⟨h1, h2, h3⟩ := memWrite_ok h
    exact .inr ⟨_, List.take_prefix _ _, h1, h2, h3⟩

theorem step_of_select {s : State} {c : UopCode} (h1 : s.resetIn = none) (h2 : s.uopSel = some c) :
    step s = uopStep c s := by simp [step, h1, h2]

theorem step_of_quiet {s : State} (h1 : s.resetIn = none) (h2 : s.uopSel = none) : step s = sequencerStep s := by
  simp [step, h1, h2]

theorem sequencerStep_idle {s : State} (h : s.phase = .idle) : sequencerStep s = idleStep s := by simp [sequencerStep, h]

theorem sequencerStep_scanning {s : State} (h : s.phase = .scanning) : sequencerStep s = .next (scan s) := by
  simp [sequencerStep, h]

theorem sequencerStep_bulk {s : State} (h : s.phase = .bulkTransform) : sequencerStep s = outcome (bulkStep s) := by
  simp [sequencerStep, h]

theorem sequencerStep_tail {s : State} (h : s.phase = .tailTransform) : sequencerStep s = outcome (tailStep s) := by
  simp [sequencerStep, h]

theorem sequencerStep_done {s : State} (h : s.phase = .done) : sequencerStep s = .next (doneStep s) := by
  simp [sequencerStep, h]

end Sys2Proof.Machine
end

