-- ==== Sys2Proof/Laws/PerInstr.lean ====
section
/-! SUPPORT. Statements made per instruction: `Format`, that an instruction's word has the format of its kind (R90,
R101) — a descriptor for the host's commands, a select code for the micro-operations. -/

namespace Sys2Proof.Laws.Format

/-- The word is a select code exactly for a micro-operation. -/
def Statement (i : Instr) : Prop :=
  match encode i with
  | .cmd _ => i.isMicroOp = false
  | .uop _ => i.isMicroOp = true

theorem enc (final elem : Bool) (srcLen : Len) (srcBase : Addr) (dstCap : Len) (dstBase : Addr) :
    Statement (.enc final elem srcLen srcBase dstCap dstBase) := rfl
theorem dec (final elem : Bool) (srcLen : Len) (srcBase : Addr) (dstCap : Len) (dstBase : Addr) :
    Statement (.dec final elem srcLen srcBase dstCap dstBase) := rfl
theorem enclen (n : Len) : Statement (.enclen n) := rfl
theorem declen (elem : Bool) (srcLen : Len) (srcBase : Addr) : Statement (.declen elem srcLen srcBase) := rfl
theorem seGroup : Statement .seGroup := rfl
theorem seTail2 : Statement .seTail2 := rfl
theorem seTail1 : Statement .seTail1 := rfl
theorem sdGroup : Statement .sdGroup := rfl
theorem sdFinal : Statement .sdFinal := rfl
theorem spuShuf : Statement .spuShuf := rfl
theorem rcuEnc : Statement .rcuEnc := rfl
theorem rcuDec : Statement .rcuDec := rfl
theorem veLoad : Statement .veLoad := rfl
theorem veSplit6 : Statement .veSplit6 := rfl
theorem veStore : Statement .veStore := rfl
theorem veIter : Statement .veIter := rfl
theorem vdLoad : Statement .vdLoad := rfl
theorem vdMerge6 : Statement .vdMerge6 := rfl
theorem vdStore : Statement .vdStore := rfl
theorem vdIter : Statement .vdIter := rfl
theorem lcEnclen : Statement .lcEnclen := rfl
theorem lcDeclen : Statement .lcDeclen := rfl

end Sys2Proof.Laws.Format
end

