-- ==== Sys2Proof/Laws/Steps.lean ====
section
/-! SUPPORT. One lemma per step of the sequencer that says everything the step can do when it answers a next state, and the
same for Accept: what proofs about runs cite instead of unfolding a step. -/

namespace Sys2Proof.Machine

/-- Memory `m` keeps the form of `s.mem` and differs from it in the `n` bytes at `q` only. -/
def Footprint (s : State) (m : Memory) (n : Nat) : Prop :=
  s.mem.wf = true → m.wf = true ∧ ∀ x, ¬(s.dstAddr ≤ x ∧ x < s.dstAddr + n) → m.read x = s.mem.read x

theorem Footprint.refl (s : State) (n : Nat) : Footprint s s.mem n := fun h => ⟨h, fun _ _ => rfl⟩

theorem footprint_writeBytes {s : State} {bytes : List Byte} (h : writableMem s.memMap s.dstAddr bytes.length = true) :
    Footprint s (s.mem.writeBytes s.dstAddr bytes) bytes.length := fun hw =>
  ⟨Memory.wf_writeBytes hw (le_addressSpace_of_writableMem h), fun x hx => by
    rw [Memory.read_writeBytes x hw (le_addressSpace_of_writableMem h), if_neg hx]⟩

/-- A state that has ended with a status, its working registers free (R214, R36). -/
theorem release_finish (st : Status) (s : State) : release (finish st s) = ended st (freeUnits s.lanes s.tick) (s.tick + 1) s :=
  rfl

/-! ## The accesses of an engine that do or do not lie in their region -/

/-- The bytes an encode load needs are there, so it completes (R191). -/
theorem loadHalves_of_sourceHolds {s : State} (h : s.lanes ≠ 0 → s.SourceHolds (s.window + 4)) :
    ∃ v, loadHalves s s.srcAddr (s.lanes / 16) = .ok v := by
  have hw := window_eq s
  rcases lanes_cases s with hl | hl | hl
  · rw [hl]; exact ⟨_, rfl⟩
  all_goals
    obtain ⟨h1, h2⟩ := h (by omega)
    rw [hl] at hw ⊢
    rw [insideSource_iff] at h1
    have half : ∀ k, 12 * k + 16 ≤ s.window + 4 →
        memRead s (s.srcAddr + 12 * k) 16 = .ok (s.mem.readBytes (s.srcAddr + 12 * k) 16) := fun k hk =>
      memRead_of_inside (by rw [insideSource_iff]; omega) (readableMem_mono h2 (by omega) (by omega))
    simp only [loadHalves, Nat.reduceDiv, half 0 (by omega), andThen_ok]
  · exact ⟨_, rfl⟩
  · rw [half 1 (by omega)]; exact ⟨_, rfl⟩

/-- Whether the halves of a decode store stop, and how, is a matter of the regions alone (R201). -/
theorem storeHalves_same (q : Nat) {s t : State} (h1 : s.latch = t.latch) (h2 : s.memMap = t.memMap) : ∀ k : Nat,
    (∃ f, storeHalves q k s = .error f ∧ storeHalves q k t = .error f) ∨
    ∃ m n, storeHalves q k s = .ok { s with mem := m } ∧ storeHalves q k t = .ok { t with mem := n }
  | 0 => .inr ⟨_, _, rfl, rfl⟩
  | k + 1 => by
    rcases storeHalves_same q h1 h2 k with ⟨f, hs, ht⟩ | ⟨m, n, hs, ht⟩
    · exact .inl ⟨f, by simp [storeHalves, hs], by simp [storeHalves, ht]⟩
    · simp only [storeHalves, hs, ht, andThen_ok, memWrite, length_lanesFrom, h1, h2]
      split
      · exact .inl ⟨_, rfl, rfl⟩
      · split
        · exact .inl ⟨_, rfl, rfl⟩
        · exact .inr ⟨_, _, rfl, rfl⟩

/-! ## The length calculator -/

/-- Everything `LC.DECLEN` can do: the value of the formula, or a value of which nothing is known beyond `LEN_MAX` (R124,
R125; log 17). -/
theorem lcDeclen_ok {s t : State} (h : lcDeclen s = .ok t) : ∃ p, paddingRun s = .ok p ∧
    t = if s.latch.srcLen.toNat ≤ Config.lenMax then setValue (decodedLength s.latch.srcLen.toNat p) s
      else openValue s := by
  simp only [lcDeclen, decodedLengthOf, andThen_ok_iff] at h
  obtain ⟨v, ⟨p, hp, hv⟩, ht⟩ := h
  injection hv with hv; injection ht with ht; subst hv
  exact ⟨p, hp, ht.symm⟩

/-! ## The trace -/

/-- Only micro-operations are issued to the units (R101). -/
theorem nextMicroOp_isMicroOp {s : State} {i : Instr} (h : nextMicroOp s = some i) : i.isMicroOp = true := by
  have accepted : ∀ j, acceptMicroOp s j = some i → i.isMicroOp = true := by
    intro j hj
    cases j <;> simp only [acceptMicroOp, reduceCtorEq, Option.ite_none_right_eq_some, Option.some.injEq] at hj <;>
      obtain ⟨-, rfl⟩ := hj <;> rfl
  unfold nextMicroOp at h
  split at h
  · split at h
    · cases h
    · split at h
      · exact accepted _ h
      · cases h
  · split at h
    · injection h with h; subst h; rfl
    · split at h
      · injection h with h; subst h; rfl
      · cases h
  · repeat' split at h
    all_goals cases h <;> rfl
  · cases h
  · cases h

/-! ## Accept -/

/-- What Accept can leave: a fault, a finished length command, or a started transfer with its preconditions (R211). -/
def Accepted (s t : State) : Prop :=
  (∃ l f, t = afterAccept l (faultCode f) 0#32 .done s) ∨
  (∃ l v n, (l.op = opEnclen ∨ l.op = opDeclen) ∧ t = { afterAccept l 0#4 v .done s with tick := n }) ∨
  (∃ l, (l.op = opEnc ∨ l.op = opDec) ∧ Admitted s l.srcLen l.srcBase l.dstCap l.dstBase ∧
    t = afterAccept l 0#4 0#32 .scanning s)

theorem regionInRange_iff {base : Addr} {len : Len} : regionInRange base len = true ↔ RegionInRange base len := by
  simp [regionInRange]

theorem accept_fault {l : Latch} {start : State → Host.Outcome State Fault Refusal} {s : State} {f : CommandFault}
    (hp : s.phase = .idle) (hf : firstFailingCheck l = some f) :
    accept l start s = .next (afterAccept l (faultCode f) 0#32 .done s) := by
  simp [accept, hp, hf, raise, latchCommand, afterAccept]

theorem accept_start {l : Latch} {start : State → Host.Outcome State Fault Refusal} {s : State}
    (hp : s.phase = .idle) (hf : firstFailingCheck l = none) : accept l start s = start (latchCommand l s) := by
  simp [accept, hp, hf]

/-- The checks of R97 that an `ENC` or `DEC` passes. -/
theorem firstFailingCheck_transfer {l : Latch} (hop : l.op = opEnc ∨ l.op = opDec) (h : firstFailingCheck l = none) :
    l.elem = false ∧ RegionInRange l.srcBase l.srcLen ∧ RegionInRange l.dstBase l.dstCap := by
  have hne : l.op ≠ opEnclen := by rcases hop with h | h <;> rw [h] <;> decide
  unfold firstFailingCheck at h
  split at h
  · cases h
  · rename_i he
    split at h
    · rename_i hr
      simp only [Bool.and_eq_true, regionInRange_iff] at hr
      exact ⟨by simpa using he, hr⟩
    · cases h

/-- Everything Accept can do for a decoded command that is taken. -/
theorem execCommand_ok {i : Instr} {s t : State} (hi : i.isMicroOp = false) (hp : s.phase = .idle)
    (h : exec i s = .next t) : Accepted s t := by
  have transfer : ∀ (op : BitVec 4) (final elem : Bool) (srcLen : Len) (srcBase : Addr) (dstCap : Len) (dstBase : Addr),
      op = opEnc ∨ op = opDec →
      accept ⟨op, final, elem, srcBase, srcLen, dstBase, dstCap⟩ startTransfer s = .next t → Accepted s t := by
    intro op final elem srcLen srcBase dstCap dstBase hop h
    cases hf : firstFailingCheck ⟨op, final, elem, srcBase, srcLen, dstBase, dstCap⟩ with
    | some f => rw [accept_fault hp hf] at h; injection h with h; exact .inl ⟨_, f, h.symm⟩
    | none =>
      obtain ⟨-, h1, h2⟩ := firstFailingCheck_transfer hop hf
      rw [accept_start hp hf, startTransfer] at h
      split at h
      · cases h
      · rename_i ho
        split at h
        · rename_i hm
          injection h with h
          simp only [regionsAreMemory, Bool.and_eq_true] at hm
          simp only [Bool.not_eq_true] at ho
          exact .inr (.inr ⟨_, hop, ⟨h1, h2, regionsOverlap_false_iff.1 ho, hm.1, hm.2⟩, h.symm⟩)
        · cases h
  cases i with
  | enc final elem srcLen srcBase dstCap dstBase => exact transfer _ _ _ _ _ _ _ (.inl rfl) h
  | dec final elem srcLen srcBase dstCap dstBase => exact transfer _ _ _ _ _ _ _ (.inr rfl) h
  | enclen n =>
    change accept ⟨opEnclen, false, false, 0, n, 0, 0⟩ startEnclen s = .next t at h
    cases hf : firstFailingCheck ⟨opEnclen, false, false, 0, n, 0, 0⟩ with
    | some f => rw [accept_fault hp hf] at h; injection h with h; exact .inl ⟨_, f, h.symm⟩
    | none =>
      rw [accept_start hp hf, startEnclen, lcEnclen] at h
      split at h <;> injection h with h <;> exact .inr (.inl ⟨_, _, _, .inl rfl, h.symm⟩)
  | declen elem srcLen srcBase =>
    change accept ⟨opDeclen, false, elem, srcBase, srcLen, 0, 0⟩ startDeclen s = .next t at h
    cases hf : firstFailingCheck ⟨opDeclen, false, elem, srcBase, srcLen, 0, 0⟩ with
    | some f => rw [accept_fault hp hf] at h; injection h with h; exact .inl ⟨_, f, h.symm⟩
    | none =>
      rw [accept_start hp hf, startDeclen] at h
      split at h
      · simp only [outcome_next_iff, andThen_ok_iff] at h
        obtain ⟨a, ha, h⟩ := h
        obtain ⟨p, -, rfl⟩ := lcDeclen_ok ha
        injection h with h; subst h
        split <;> exact .inr (.inl ⟨_, _, _, .inr rfl, rfl⟩)
      · cases h
  | _ => simp [Instr.isMicroOp] at hi

/-- A descriptor never decodes to a micro-operation. -/
theorem decode_cmd_isMicroOp {d : Descriptor} {i : Instr} (h : decode (.cmd d) = .ok i) : i.isMicroOp = false := by
  simp only [decode, decodeCmd] at h
  split at h
  · cases h
  · split at h
    · injection h with h; subst h; rfl
    · injection h with h; subst h; rfl
    · split at h
      · cases h
      · injection h with h; subst h; rfl
    · split at h
      · cases h
      · injection h with h; subst h; rfl
    · cases h

/-- Everything a step in `Idle` can do (R211, R297). -/
theorem idleStep_ok {s t : State} (hp : s.phase = .idle) (h : idleStep s = .next t) :
    (s.offers = [] ∧ t = s) ∨ ∃ d rest, s.offers = d :: rest ∧ Accepted { s with offers := rest } t := by
  unfold idleStep at h
  split at h
  · rename_i ho; injection h with h; exact .inl ⟨ho, h.symm⟩
  · rename_i d rest ho
    refine .inr ⟨d, rest, ho, ?_⟩
    split at h
    · rename_i i hd; exact execCommand_ok (decode_cmd_isMicroOp hd) hp h
    · injection h with h
      exact .inl ⟨latchOfDescriptor d, .illegalCommand, by rw [← h]; rfl⟩

/-! ## The steps of ENC -/

theorem seGroup_onlyUnits (s : State) : ∃ u, seGroup s = { s with units := u } := ⟨_, rfl⟩

theorem seTail2_onlyUnits (s : State) : ∃ u, seTail2 s = { s with units := u } := ⟨_, rfl⟩

theorem seTail1_onlyUnits (s : State) : ∃ u, seTail1 s = { s with units := u } := ⟨_, rfl⟩

/-- Step EncGroup (R216). -/
theorem encGroup_ok {s t : State} (h : encGroup s = .ok t) : ∃ (u : Units) (n : Nat),
    (s.room < 4 ∧ t = ended .destinationTooSmall u n s) ∨
    ∃ m, 4 ≤ s.room ∧ Footprint s m 4 ∧ insideDestination s.latch s.dstAddr 4 = true ∧
      t = advance 3 4 { s with units := u, tick := n, mem := m } := by
  unfold encGroup at h
  split at h
  · rename_i hr
    injection h with h
    exact ⟨_, _, .inl ⟨hr, h.symm⟩⟩
  · rename_i hr
    simp only [andThen_ok_iff] at h
    obtain ⟨v, hv, ht⟩ := h
    injection ht with ht
    obtain ⟨u, out, -, hw, hd, -, rfl⟩ := encodeStep_ok seGroup_onlyUnits hv
    subst ht
    have hw' : writableMem s.memMap s.dstAddr out.toList.length = true := by simpa using hw
    exact ⟨freeUnits s.lanes s.tick, s.tick + 1, .inr ⟨s.mem.writeBytes s.dstAddr out.toList, by omega,
      by simpa using footprint_writeBytes hw', hd, rfl⟩⟩

/-- Step EncTrail (R217). -/
theorem encTrail_ok {s t : State} (h : encTrail s = .ok t) : ∃ (u : Units) (n : Nat),
    (s.remaining = 0 ∧ t = ended .done u n s) ∨
    (s.remaining ≠ 0 ∧ s.latch.final = false ∧ t = ended .needMoreData u n s) ∨
    (s.remaining ≠ 0 ∧ s.latch.final = true ∧ s.room < 4 ∧ t = ended .destinationTooSmall u n s) ∨
    ∃ r m, (r = 2 ∧ s.remaining = 2 ∨ r = 1 ∧ s.remaining ≠ 2 ∧ s.remaining ≠ 0) ∧ s.latch.final = true ∧ 4 ≤ s.room ∧
      Footprint s m 4 ∧ insideDestination s.latch s.dstAddr 4 = true ∧ insideSource s.latch s.srcAddr r = true ∧
      t = ended .done u n (advance r 4 { s with mem := m }) := by
  unfold encTrail at h
  split at h
  · rename_i h0; injection h with h; exact ⟨_, _, .inl ⟨h0, h.symm⟩⟩
  rename_i h0
  split at h
  · rename_i h1; injection h with h; exact ⟨_, _, .inr (.inl ⟨h0, h1, h.symm⟩)⟩
  rename_i h1
  simp only [Bool.not_eq_false] at h1
  split at h
  · rename_i h2; injection h with h; exact ⟨_, _, .inr (.inr (.inl ⟨h0, h1, h2, h.symm⟩))⟩
  rename_i h2
  split at h
  · rename_i h3
    simp only [andThen_ok_iff] at h
    obtain ⟨v, hv, ht⟩ := h
    injection ht with ht
    obtain ⟨u, out, -, hw, hd, hi, rfl⟩ := encodeStep_ok seTail2_onlyUnits hv
    have hw' : writableMem s.memMap s.dstAddr out.toList.length = true := by simpa using hw
    exact ⟨freeUnits s.lanes s.tick, s.tick + 1, .inr (.inr (.inr ⟨2, s.mem.writeBytes s.dstAddr out.toList, .inl ⟨rfl, h3⟩, h1,
      by omega, by simpa using footprint_writeBytes hw', hd, hi, ht.symm⟩))⟩
  · rename_i h3
    simp only [andThen_ok_iff] at h
    obtain ⟨v, hv, ht⟩ := h
    injection ht with ht
    obtain ⟨u, out, -, hw, hd, hi, rfl⟩ := encodeStep_ok seTail1_onlyUnits hv
    have hw' : writableMem s.memMap s.dstAddr out.toList.length = true := by simpa using hw
    exact ⟨freeUnits s.lanes s.tick, s.tick + 1, .inr (.inr (.inr ⟨1, s.mem.writeBytes s.dstAddr out.toList, .inr ⟨rfl, h3, h0⟩, h1,
      by omega, by simpa using footprint_writeBytes hw', hd, hi, ht.symm⟩))⟩

/-- Step EncBulk (R215). -/
theorem encBulk_ok {s t : State} (h : encBulk s = .ok t) : ∃ (u : Units) (n : Nat) (m : Memory),
    Footprint s m s.lanes ∧ insideDestination s.latch s.dstAddr s.lanes = true ∧
      t = leaveBulkUnlessOk (advance s.window s.lanes { s with units := u, tick := n, mem := m }) := by
  simp only [encBulk, andThen_ok_iff] at h
  obtain ⟨v, hv, ht⟩ := h
  injection ht with ht
  obtain ⟨u, bytes, hl, hw, hd, rfl⟩ := veIter_ok hv
  refine ⟨freeUnits s.lanes s.tick, s.tick + 1, s.mem.writeBytes s.dstAddr bytes, ?_, hd, ?_⟩
  · rw [← hl] at hw ⊢; exact footprint_writeBytes hw
  · rw [← ht]; unfold leaveBulkUnlessOk
    have e : bulkOk (advance s.window s.lanes { s with units := u, mem := s.mem.writeBytes s.dstAddr bytes }) =
      bulkOk (advance s.window s.lanes { s with units := freeUnits s.lanes s.tick, tick := s.tick + 1, mem := s.mem.writeBytes s.dstAddr bytes }) := rfl
    rw [e]; split <;> rfl

/-! ## The steps of DEC -/

/-- Step DecBulk (R219). -/
theorem decBulk_ok {s t : State} (h : decBulk s = .ok t) : ∃ (u : Units) (n : Nat),
    t = { s with units := u, tick := n, phase := .tailTransform } ∨
    ∃ m, Footprint s m s.window ∧ (s.lanes ≠ 0 → insideDestination s.latch s.dstAddr s.window = true) ∧
      t = leaveBulkUnlessOk (advance s.lanes s.window { s with units := u, tick := n, mem := m }) := by
  simp only [decBulk, andThen_ok_iff] at h
  obtain ⟨v, hv, ht⟩ := h
  injection ht with ht
  obtain ⟨u, m, rfl, hb, hd, hm⟩ := vdIter_ok hv
  have hwin : 12 * (s.lanes / 16) = s.window := by rw [window_eq]; rcases lanes_cases s with h | h | h <;> omega
  rw [hwin] at hd hm
  refine ⟨freeUnits s.lanes s.tick, s.tick + 1, ?_⟩
  by_cases hu : u.vdAnybad = true
  · left; rw [if_pos hu, hb hu] at ht; exact ht.symm
  · right
    refine ⟨m, hm, hd (by simpa using hu), ?_⟩
    rw [if_neg hu] at ht
    rw [← ht]; unfold leaveBulkUnlessOk
    have e : bulkOk (advance s.lanes s.window { s with units := u, mem := m }) =
      bulkOk (advance s.lanes s.window { s with units := freeUnits s.lanes s.tick, tick := s.tick + 1, mem := m }) := rfl
    rw [e]; split <;> rfl

/-- The decoder's answer: either nothing, or the bytes of the group and their number (R144). -/
theorem setDecoder_cases (r : Option (GroupWord × List Byte)) (s : State)
    (hr : ∀ w bytes, r = some (w, bytes) → bytes.length ≤ 3) :
    ∃ u n, setDecoder r s = { s with units := u, tick := n } ∧
      (u.sdOk = false ∨ u.sdOk = true ∧ u.sdK.toNat = u.sdOut.length ∧ ∃ w, r = some (w, u.sdOut)) := by
  cases r with
  | none => exact ⟨_, _, rfl, .inl rfl⟩
  | some p =>
    obtain ⟨w, bytes⟩ := p
    have := hr w bytes rfl
    refine ⟨_, s.tick, rfl, .inr ⟨rfl, ?_, w, rfl⟩⟩
    simp only [BitVec.toNat_ofNat]; omega

/-- The unit of step DecGroup on the symbols fed to it (R220): what it changes, and how many bytes it answers. -/
theorem decodeUnit_cases (last : Bool) (s : State) :
    ∃ u n, (if last then sdFinal s else sdGroup s) = { s with units := u, tick := n } ∧
      (u.sdOk = false ∨ u.sdOk = true ∧ u.sdK.toNat = u.sdOut.length ∧ 1 ≤ u.sdOut.length ∧ u.sdOut.length ≤ 3 ∧
        (last = false → u.sdOut.length = 3)) := by
  cases last with
  | true =>
    have hl : ∀ (w : GroupWord) (bytes : List Byte), decodeFinal s.config.regs s.units.sdIn[0] s.units.sdIn[1]
        s.units.sdIn[2] s.units.sdIn[3] = some (w, bytes) → 1 ≤ bytes.length ∧ bytes.length ≤ 3 := fun _ _ hb => decodeFinal_length hb
    obtain ⟨u, n, h, hu⟩ := setDecoder_cases _ s fun w bytes h => (hl w bytes h).2
    refine ⟨u, n, h, hu.imp_right fun ⟨h1, h2, w, hw⟩ => ⟨h1, h2, (hl _ _ hw).1, (hl _ _ hw).2, by simp⟩⟩
  | false =>
    have hl : ∀ (w : GroupWord) (bytes : List Byte), decodeGroup s.config.regs s.units.sdIn[0] s.units.sdIn[1]
        s.units.sdIn[2] s.units.sdIn[3] = some (w, bytes) → bytes.length = 3 := fun _ _ hb => decodeGroup_length hb
    obtain ⟨u, n, h, hu⟩ := setDecoder_cases _ s fun w bytes h => (hl w bytes h).le
    exact ⟨u, n, h, hu.imp_right fun ⟨h1, h2, w, hw⟩ =>
      ⟨h1, h2, by rw [hl _ _ hw]; omega, by rw [hl _ _ hw], fun _ => hl _ _ hw⟩⟩

/-- Step DecGroup (R220). -/
theorem decGroup_ok {s t : State} (h : decGroup s = .ok t) : insideSource s.latch s.srcAddr 4 = true ∧
    ∃ (u : Units) (n : Nat), t = ended .invalidData u n s ∨ t = ended .destinationTooSmall u n s ∨
      ∃ k m, 1 ≤ k ∧ k ≤ 3 ∧ k ≤ s.room ∧ (k = 3 ∨ isLastGroup s = true) ∧ Footprint s m k ∧
        insideDestination s.latch s.dstAddr k = true ∧
        t = advance 4 k { s with units := u, tick := n, mem := m } := by
  simp only [decGroup, andThen_ok_iff] at h
  obtain ⟨symbols, hr, h⟩ := h
  obtain ⟨hi, -, -⟩ := memRead_ok hr
  refine ⟨hi, ?_⟩
  obtain ⟨u, n, hx, hu⟩ := decodeUnit_cases (isLastGroup s) (feedDecoder symbols s)
  rw [hx] at h
  rcases hu with hu | ⟨hok, hk, h1, h3, hlast⟩
  · rw [if_pos hu] at h
    injection h with h
    exact ⟨freeUnits s.lanes n, n + 1, .inl h.symm⟩
  · rw [if_neg (by simp [hok])] at h
    split at h
    · injection h with h
      exact ⟨freeUnits s.lanes n, n + 1, .inr (.inl h.symm)⟩
    · rename_i hroom
      simp only [andThen_ok_iff] at h
      obtain ⟨v, hw, ht⟩ := h
      injection ht with ht
      obtain ⟨hd, hm, rfl⟩ := memWrite_ok hw
      rw [← ht]
      refine ⟨freeUnits s.lanes n, n + 1, .inr (.inr ⟨u.sdOut.length, s.mem.writeBytes s.dstAddr u.sdOut, h1, h3, ?_, ?_,
        footprint_writeBytes hm, hd, ?_⟩)⟩
      · rw [← hk]; exact Nat.le_of_not_lt hroom
      · cases hl : isLastGroup s with
        | true => exact .inr rfl
        | false => exact .inl (hlast hl)
      · rw [← hk]; rfl

/-- Step DecTrail (R221). -/
theorem decTrail_ok {s t : State} (h : decTrail s = .ok t) : ∃ (u : Units) (n : Nat),
    (s.remaining = 0 ∧ t = ended .done u n s) ∨
    (s.remaining ≠ 0 ∧ s.latch.final = false ∧ t = ended .needMoreData u n s) ∨
    (s.remaining ≠ 0 ∧ s.latch.final = true ∧ t = ended .invalidData u n s) := by
  unfold decTrail at h
  split at h
  · rename_i h0; injection h with h; exact ⟨_, _, .inl ⟨h0, h.symm⟩⟩
  rename_i h0
  split at h
  · rename_i h1; injection h with h; exact ⟨_, _, .inr (.inl ⟨h0, h1, h.symm⟩)⟩
  · rename_i h1; injection h with h; exact ⟨_, _, .inr (.inr ⟨h0, by simpa using h1, h.symm⟩)⟩

end Sys2Proof.Machine
end

