-- ==== Sys2Proof/Laws/Units.lean ====
section
/-! SUPPORT. The units' functions in the terms of the spec: group words as numbers (R148), lanes of the shared vector units
(R161, R164, R167), and the padding count (R124). -/

namespace Sys2Proof.Machine

/-! ## Group words -/

/-- `SE.W` as a number (R141, R148). -/
theorem rawWord_toNat (b0 b1 b2 : Byte) :
    (rawWord b0 b1 b2).toNat = b0.toNat * 65536 + b1.toNat * 256 + b2.toNat := by
  have : (rawWord b0 b1 b2).toNat = (b0 ++ b1 ++ b2).toNat := rfl
  rw [this, toNat_append_add, toNat_append_add]
  omega

/-- A 6-bit field of a group word as a number (R141). -/
theorem sixBits_toNat (w : GroupWord) (lo : Nat) : (sixBits w lo).toNat = w.toNat / 2 ^ lo % 64 := by
  simp [sixBits, BitVec.extractLsb'_toNat, Nat.shiftRight_eq_div_pow]

/-- A decode-map entry is the sentinel or below 64 (R23). -/
theorem valueOf_cases (c : WfConfiguration) (x : Byte) : valueOf c.regs x = 0xFF#8 ∨ (valueOf c.regs x).toNat < 64 := by
  by_cases hx : ∀ i : BitVec 6, symbolOf c.regs i ≠ x
  · exact Or.inl (c.ok.decmapSentinel x hx)
  · push Not at hx
    obtain ⟨i, rfl⟩ := hx
    right
    rw [c.ok.decmapInverts i, BitVec.toNat_setWidth]
    have := i.isLt
    omega

/-- `SD.W` as a number, from values below 64 (R145, R148). -/
theorem valueWord_toNat {v0 v1 v2 v3 : Byte} (h0 : v0.toNat < 64) (h1 : v1.toNat < 64) (h2 : v2.toNat < 64)
    (h3 : v3.toNat < 64) :
    (valueWord v0 v1 v2 v3).toNat = v0.toNat * 262144 + v1.toNat * 4096 + v2.toNat * 64 + v3.toNat := by
  have a : ∀ v : Byte, (v.setWidth 24).toNat = v.toNat := fun v => by
    rw [BitVec.toNat_setWidth]; have := v.isLt; omega
  have e : ∀ {x y : Nat} {k : Nat}, y < 2 ^ k → x * 2 ^ k ||| y = x * 2 ^ k + y := fun {x y k} hy => by
    rw [← Nat.shiftLeft_eq, Nat.shiftLeft_add_eq_or_of_lt hy]
  simp only [valueWord, BitVec.toNat_or, BitVec.toNat_shiftLeft, a, Nat.shiftLeft_eq]
  rw [Nat.mod_eq_of_lt (show v0.toNat * 2 ^ 18 < 2 ^ 24 by omega),
    Nat.mod_eq_of_lt (show v1.toNat * 2 ^ 12 < 2 ^ 24 by omega),
    Nat.mod_eq_of_lt (show v2.toNat * 2 ^ 6 < 2 ^ 24 by omega),
    e (show v1.toNat * 2 ^ 12 < 2 ^ 18 by omega),
    show v0.toNat * 2 ^ 18 + v1.toNat * 2 ^ 12 = (v0.toNat * 64 + v1.toNat) * 2 ^ 12 by omega,
    e (show v2.toNat * 2 ^ 6 < 2 ^ 12 by omega),
    show (v0.toNat * 64 + v1.toNat) * 2 ^ 12 + v2.toNat * 2 ^ 6 =
      ((v0.toNat * 64 + v1.toNat) * 64 + v2.toNat) * 2 ^ 6 by omega,
    e (show v3.toNat < 2 ^ 6 by omega)]
  omega

/-! ## The shared vector units -/

/-- Byte comparison as a comparison of numbers (R16). -/
theorem inrange8_iff {x lo hi : Byte} : inrange8 x lo hi = true ↔ lo.toNat ≤ x.toNat ∧ x.toNat ≤ hi.toNat := by
  have h1 := x.isLt
  have h2 := lo.isLt
  have h3 := hi.isLt
  have e : ∀ a b : Byte, subs8 a b = 0#8 ↔ a.toNat ≤ b.toNat := fun a b => by
    have := a.isLt
    constructor
    · intro h
      have h := congrArg BitVec.toNat h
      simp only [subs8, BitVec.toNat_ofNat] at h
      omega
    · intro h
      simp only [subs8, show a.toNat - b.toNat = 0 by omega]
  simp [inrange8, ge8, le8, e]

/-- A lane of the shuffle unit (R161). -/
theorem lane_shuffle {n j : Nat} (v : List Byte) (ctls : Vector Byte 16) (h : j < n) : lane (shuffle n v ctls) j =
    (if (ctls[j % 16]'(Nat.mod_lt j (by decide))).getLsbD 7 then 0x00#8
      else lane v (16 * (j / 16) + ((ctls[j % 16]'(Nat.mod_lt j (by decide))).extractLsb' 0 4).toNat)) :=
  lane_lanesFrom _ h

/-- The first hit of a list of entries, when exactly the entries that hit agree on the answer (R164). -/
theorem firstHit_eq {x y : Byte} : ∀ {t : List RangeEntry}, (∃ e ∈ t, entryHits e x = true) →
    (∀ e ∈ t, entryHits e x = true → add8 x e.off = y) → firstHit x t = some y
  | [], h, _ => by obtain ⟨_, h, _⟩ := h; cases h
  | e :: rest, h, hy => by
    unfold firstHit
    split
    · rename_i he; rw [hy e (List.mem_cons_self ..) he]
    · rename_i he
      refine firstHit_eq ?_ fun e' h' => hy e' (List.mem_cons_of_mem _ h')
      obtain ⟨e', hm, h'⟩ := h
      rcases List.mem_cons.1 hm with rfl | hm
      · exact absurd h' he
      · exact ⟨e', hm, h'⟩

/-- No entry hits: no hit (R164). -/
theorem firstHit_none {x : Byte} : ∀ {t : List RangeEntry}, (∀ e ∈ t, entryHits e x = false) → firstHit x t = none
  | [], _ => rfl
  | e :: rest, h => by
    unfold firstHit
    rw [if_neg (by simp [h e (List.mem_cons_self ..)])]
    exact firstHit_none fun e' h' => h e' (List.mem_cons_of_mem _ h')

/-- An entry of a table is one of its eight. -/
theorem mem_toList_iff {t : Vector RangeEntry 8} {e : RangeEntry} : e ∈ t.toList ↔ ∃ j : Fin 8, t[j] = e := by
  rw [Vector.mem_toList_iff, Vector.mem_iff_getElem]
  exact ⟨fun ⟨i, h, he⟩ => ⟨⟨i, h⟩, he⟩, fun ⟨j, he⟩ => ⟨j.1, j.2, he⟩⟩

/-! ## The padding count -/

theorem readBytes_succ (m : Memory) (a n : Nat) : m.readBytes a (n + 1) = m.readBytes a n ++ [m.read (a + n)] := by
  simp [Memory.readBytes, List.range_succ]

/-- One byte read back from the end of a readable source region. -/
theorem readBack_ok {s : State} {k : Nat} (hk : 1 ≤ k) (hl : k ≤ s.latch.srcLen.toNat)
    (hm : readableMem s.memMap s.latch.srcBase.toNat s.latch.srcLen.toNat = true) :
    readBack s k = .ok (s.mem.read (s.latch.srcBase.toNat + s.latch.srcLen.toNat - k)) := by
  unfold readBack
  rw [memRead_of_inside (by simp; omega) (readableMem_mono hm (by omega) (by omega))]
  simp [Memory.readBytes]

/-- The run of `PAD` the length calculator finds is the padding count of the source's bytes (R124). -/
theorem paddingRun_eq {s : State} (hm : readableMem s.memMap s.latch.srcBase.toNat s.latch.srcLen.toNat = true) :
    paddingRun s = .ok (paddingCount s.config.regs.pad
      (s.mem.readBytes s.latch.srcBase.toNat s.latch.srcLen.toNat)) := by
  unfold paddingRun
  split
  · rename_i h; rw [h]; rfl
  · rename_i h
    obtain ⟨n, hn⟩ : ∃ n, s.latch.srcLen.toNat = n + 1 := ⟨_, (Nat.succ_pred_eq_of_ne_zero h).symm⟩
    rw [readBack_ok (by omega) (by omega) hm]
    simp only [andThen_ok]
    rw [hn, readBytes_succ, show s.latch.srcBase.toNat + (n + 1) - 1 = s.latch.srcBase.toNat + n by omega]
    unfold paddingCount
    rw [List.reverse_append]
    simp only [List.reverse_singleton, List.singleton_append, List.takeWhile_cons]
    split
    · rename_i h1; simp [h1]
    · rename_i h1
      simp only [Decidable.not_not] at h1
      simp only [h1, beq_self_eq_true, if_true]
      split
      · rename_i h2
        have : n = 0 := by omega
        subst this
        simp [Memory.readBytes]
      · rename_i h2
        obtain ⟨m, rfl⟩ : ∃ m, n = m + 1 := ⟨n - 1, by omega⟩
        rw [readBack_ok (by omega) (by omega) hm]
        simp only [andThen_ok]
        rw [readBytes_succ, hn, show s.latch.srcBase.toNat + (m + 1 + 1) - 2 = s.latch.srcBase.toNat + m by omega,
          List.reverse_append]
        simp only [List.reverse_singleton, List.singleton_append, List.takeWhile_cons]
        split
        · rename_i h3; simp [h3]
        · rename_i h3; simp [h3]

theorem paddingCount_le (pad : Byte) (symbols : List Byte) : paddingCount pad symbols ≤ 2 := by
  unfold paddingCount
  omega

end Sys2Proof.Machine
end

