-- ==== Sys2Proof/Tests/Slice0.lean ====
section
/-! SUPPORT. The author's tests. Expected results are the spec's: the tables and vectors of 95_test_vectors.md (T-…) and the
examples of the rules. Then one witness for the hypotheses of each statement, clause by clause, at boundary values. -/

set_option Elab.async false

namespace Sys2Proof.Tests
open Sys2Proof Sys2Proof.Machine

/-! ## Helpers -/

/-- A field of the next state, if there is one. -/
def after {α : Type} (o : Host.Outcome State Fault Refusal) (f : State → α) : Option α :=
  match o with
  | .next s => some (f s)
  | .fault _ => none
  | .refused _ => none

/-- Whether the outcome is a next state. -/
def isNext (o : Host.Outcome State Fault Refusal) : Bool := (after o fun _ => ()).isSome

theorem next_of_isNext {o : Host.Outcome State Fault Refusal} (h : isNext o = true) : ∃ t, o = .next t := by
  cases o with
  | next s => exact ⟨s, rfl⟩
  | fault r => cases h
  | refused r => cases h

/-- A small state: source bytes at 0x100, destination at 0x200, a command in flight. -/
def work (cap : BitVec 2) (hc : cap ≠ 3#2) (op : BitVec 4) (final : Bool) (src : List Byte) (dstCap consumed written : Nat)
    (phase : Phase) : State :=
  { State.reset with
    config := standardConfiguration cap hc
    latch := ⟨op, final, false, 0x100#64, BitVec.ofNat 32 src.length, 0x200#64, BitVec.ofNat 32 dstCap⟩
    phase := phase
    consumed := BitVec.ofNat 32 consumed
    written := BitVec.ofNat 32 written
    units := Units.zero (lanesOf cap)
    mem := Memory.writeBytes [] 0x100 src }

/-- The same with 16 lanes, about to run a bulk iteration at the start of the source. -/
def bulk (op : BitVec 4) (src : List Byte) (dstCap : Nat) : State :=
  work 1#2 (by decide) op true src dstCap 0 0 .bulkTransform

/-- The same without lanes, in the tail. -/
def tail (op : BitVec 4) (final : Bool) (src : List Byte) (dstCap consumed written : Nat) : State :=
  work 0#2 (by decide) op final src dstCap consumed written .tailTransform

/-- An idle state with `L` lanes' units set. -/
def units (cap : BitVec 2) (hc : cap ≠ 3#2) (f : Units → Units) : State :=
  { State.reset with config := standardConfiguration cap hc, units := f (Units.zero (lanesOf cap)) }

/-- `"TWFu"`. -/
def twfu : List Byte := [0x54, 0x57, 0x46, 0x75]

/-- The bytes `first, first + 1, …`. -/
def count (first n : Nat) : List Byte := (List.range n).map fun i => BitVec.ofNat 8 (first + i)

/-- The bytes memory holds from an address on. -/
def stored (a n : Nat) (s : State) : List Byte := s.mem.readBytes a n

/-! ## Decoding: a word of every constructor, and rejected words -/

/-- T-CMD-01 to T-CMD-04, the descriptors' fields as the spec prints them. -/
theorem test_decode_commands :
    decodeTableWord 256 0x0000000000002000_00000004_00000000_0000000000001000_00000003_00000011 =
      some (.enc true false 3#32 0x1000#64 4#32 0x2000#64) ∧
    decodeTableWord 256 0x0000000000002000_00000003_00000000_0000000000001000_00000004_00000002 =
      some (.dec false false 4#32 0x1000#64 3#32 0x2000#64) ∧
    decodeTableWord 256 0x0000000000000000_00000000_00000000_0000000000000000_00000005_00000003 = some (.enclen 5#32) ∧
    decodeTableWord 256 0x0000000000000000_00000000_00000000_0000000000001000_00000004_00000004 =
      some (.declen false 4#32 0x1000#64) := by decide +kernel

/-- The table of R101, scalar core. -/
theorem test_decode_scalar : [0b00001, 0b00010, 0b00011, 0b00100, 0b00101].map (decodeTableWord 5) =
    [some .seGroup, some .seTail2, some .seTail1, some .sdGroup, some .sdFinal] := by decide

/-- The table of R101, shared vector units. -/
theorem test_decode_vector_units : [0b01000, 0b01001, 0b01010].map (decodeTableWord 5) =
    [some .spuShuf, some .rcuEnc, some .rcuDec] := by decide

/-- The table of R101, vector engines. -/
theorem test_decode_engines :
    [0b10000, 0b10001, 0b10010, 0b10011, 0b11000, 0b11001, 0b11010, 0b11011].map (decodeTableWord 5) =
    [some .veLoad, some .veSplit6, some .veStore, some .veIter, some .vdLoad, some .vdMerge6, some .vdStore,
      some .vdIter] := by decide

/-- The table of R101, length calculator. -/
theorem test_decode_length : [0b11100, 0b11101].map (decodeTableWord 5) = [some .lcEnclen, some .lcDeclen] := by decide

/-- "all other codes": none (R101). -/
theorem test_decode_unassigned_codes :
    [0, 6, 7, 11, 12, 13, 14, 15, 20, 21, 22, 23, 30, 31, 32].map (decodeTableWord 5) = List.replicate 15 none := by
  decide

/-- T-CMD-05 to T-CMD-14 decode as nothing. -/
theorem test_decode_illegal_descriptors :
    [0x0, 0x5, 0xF, 0x0000000000002000_00000004_00000000_0000000000001000_00000003_00000041, 0x80000001,
      0x00000001_0000000000000000_00000000_00000001, 0x00000005_00000013, 0x00000005_00000023,
      0x0000000000001000_00000005_00000003, 0x0000000000001000_00000004_00000014,
      0x00000001_00000000_0000000000001000_00000004_00000004].map (decodeTableWord 256) = List.replicate 11 none := by
  decide +kernel

/-- T-CMD-24: the first check decides. -/
theorem test_decode_first_check : decode (.cmd 0x80000000_00000060) = .error .reservedBit := by decide +kernel

/-! ## Well-formedness: an ill-formed term for each check -/

/-- R97 check 2. -/
theorem test_wf_elem : ¬(Instr.enc true true 3#32 0x1000#64 4#32 0x2000#64).WellFormed := fun h => by cases h.1
/-- R97 check 3, source length (T-CMD-18). -/
theorem test_wf_length : ¬(Instr.enc true false 0x80000000#32 0x1000#64 4#32 0x2000#64).WellFormed :=
  fun h => absurd h.2.1.1 (by decide)
/-- R97 check 3, wrapping source (T-CMD-20). -/
theorem test_wf_wrap : ¬(Instr.dec true false 16#32 0xFFFFFFFFFFFFFFF8#64 4#32 0x2000#64).WellFormed :=
  fun h => absurd h.2.1.2 (by decide)
/-- R97 check 3, capacity (T-CMD-19). -/
theorem test_wf_capacity : ¬(Instr.enc true false 3#32 0x1000#64 0xFFFFFFFF#32 0x2000#64).WellFormed :=
  fun h => absurd h.2.2.1 (by decide)
/-- R97 check 3, ENC_MAX (T-CMD-22). -/
theorem test_wf_encMax : ¬(Instr.enclen 0x5FFFFFFE#32).WellFormed := fun h => absurd h (by decide)
/-- R97 checks 2 and 3 of DECLEN (T-CMD-17). -/
theorem test_wf_declen : ¬(Instr.declen true 4#32 0x1000#64).WellFormed := fun h => by cases h.1
/-- T-CMD-21: a region that ends exactly at 2^64 is legal. -/
theorem test_wf_edge : (Instr.enc true false 8#32 0xFFFFFFFFFFFFFFF8#64 4#32 0x2000#64).WellFormed := by decide

/-- R21. -/
theorem test_config_alphabet_distinct : ¬({ standardRegs 1#2 with alphabet := standardAlphabet.set 1 0x41#8 } :
    Configuration).AlphabetDistinct := fun h => absurd (h 0#6 1#6 (by decide +kernel)) (by decide)
/-- R24. -/
theorem test_config_pad : ¬({ standardRegs 1#2 with pad := 0x41#8 } : Configuration).PadOutside :=
  fun h => h 0#6 (by decide +kernel)
/-- R23, first half. -/
theorem test_config_decmap_inverts : ¬({ standardRegs 1#2 with decmap := standardDecmap.set 0x41 1#8 } :
    Configuration).DecmapInverts := fun h => absurd (h 0#6) (by decide +kernel)
/-- R23, second half. -/
theorem test_config_decmap_sentinel : ¬({ standardRegs 1#2 with decmap := standardDecmap.set 0x3D 5#8 } :
    Configuration).DecmapSentinel := fun h => absurd (h 0x3D#8 fun i => standard_pad_outside i.toFin) (by decide +kernel)
/-- R25. -/
theorem test_config_encShuf : ¬({ standardRegs 1#2 with encShuf := standardDecShuf } : Configuration).EncShufFixed :=
  fun h => absurd h (by decide)
/-- R25. -/
theorem test_config_decShuf : ¬({ standardRegs 1#2 with decShuf := standardEncShuf } : Configuration).DecShufFixed :=
  fun h => absurd h (by decide)
/-- R26. -/
theorem test_config_cap : ¬(standardRegs 3#2).CapLegal := fun h => h rfl
/-- R27 (a), bounds. -/
theorem test_config_rcEnc_bounds : ¬({ standardRegs 1#2 with rcEnc := standardRcEnc.set 4 ⟨true, 63, 64, 0xF0⟩ } :
    Configuration).RcEncBounds := fun h => absurd (h 4) (by decide +kernel)
/-- R27, disjointness. -/
theorem test_config_disjoint : ¬RangesDisjoint (standardRcEnc.set 5 ⟨true, 25, 25, 0x41⟩) :=
  fun h => absurd (h 1 5) (by decide +kernel)
/-- R27 (a), cover. -/
theorem test_config_rcEnc_covers : ¬({ standardRegs 1#2 with rcEnc := standardRcEnc.set 4 unusedEntry } :
    Configuration).RcEncCovers := fun h => absurd (h 63#6) (by decide +kernel)
/-- R27 (a), offsets. -/
theorem test_config_rcEnc_agrees : ¬({ standardRegs 1#2 with rcEnc := standardRcEnc.set 4 ⟨true, 63, 63, 0x20⟩ } :
    Configuration).RcEncAgrees := fun h => absurd (h 63#6 4) (by decide +kernel)
/-- R27 (b), bounds. -/
theorem test_config_rcDec_bounds : ¬({ standardRegs 1#2 with rcDec := standardRcDec.set 5 ⟨true, 2, 1, 0⟩ } :
    Configuration).RcDecBounds := fun h => absurd (h 5) (by decide +kernel)
/-- R27 (b), offsets. -/
theorem test_config_rcDec_agrees : ¬({ standardRegs 1#2 with rcDec := standardRcDec.set 3 ⟨true, 0x2D, 0x2D, 0x11⟩ } :
    Configuration).RcDecAgrees := fun h => absurd (h 0x2D#8 3) (by decide +kernel)
/-- R27 (b), the bytes in no entry. -/
theorem test_config_rcDec_outside : ¬({ standardRegs 1#2 with rcDec := standardRcDec.set 3 unusedEntry } :
    Configuration).RcDecOutside := fun h => absurd (h 0x2B#8) (by decide +kernel)

/-! ## The commands -/

/-- R211: `ENC` latches its operands and goes to `Scanning`. -/
theorem test_enc_accept : after (exec (.enc true false 3#32 0x1000#64 4#32 0x2000#64) State.reset)
    (fun t => (t.phase, t.latch)) = some (.scanning, ⟨1, true, false, 0x1000, 3, 0x2000, 4⟩) := by decide +kernel
/-- T-CMD-15: `fault UnsupportedElementType`, code 3. -/
theorem test_enc_elem : after (exec (.enc true true 3#32 0x1000#64 4#32 0x2000#64) State.reset)
    (fun t => (t.phase, responseOf t)) = some (.done, 0x00000030#128) := by decide +kernel
/-- R211: `DEC` likewise. -/
theorem test_dec_accept : after (exec (.dec false false 4#32 0x1000#64 3#32 0x2000#64) State.reset)
    (fun t => (t.phase, t.latch)) = some (.scanning, ⟨2, false, false, 0x1000, 4, 0x2000, 3⟩) := by decide +kernel
/-- T-CMD-20: `fault RangeError`, code 2. -/
theorem test_dec_wrap : after (exec (.dec true false 16#32 0xFFFFFFFFFFFFFFF8#64 4#32 0x2000#64) State.reset)
    (fun t => responseOf t) = some 0x00000020#128 := by decide +kernel
/-- T-EL-12 and T-EL-13. -/
theorem test_enclen : after (exec (.enclen 0x5FFFFFFD#32) State.reset) responseOf = some (0x7FFFFFFC#128 <<< 96) ∧
    after (exec (.enclen 0x5FFFFFFE#32) State.reset) responseOf = some 0x00000020#128 := by decide +kernel
/-- T-DL-07 and T-DL-16. -/
theorem test_declen :
    after (exec (.declen false 1#32 0x100#64) { State.reset with mem := Memory.writeBytes [] 0x100 [0x3D] })
      (fun t => rspValue (responseOf t)) = some (-1) ∧
    after (exec (.declen false 4#32 0x100#64) { State.reset with mem := Memory.writeBytes [] 0x100 [0x54, 0x3D, 0x3D, 0x3D] })
      (fun t => rspValue (responseOf t)) = some 1 := by decide +kernel

/-! ## The scalar core -/

/-- T-SE-05. -/
theorem test_seGroup : after (exec .seGroup (State.reset.withRaw 0x14 0xFB 0x9C)) (fun t => (t.units.seW, t.units.seOut)) =
    some (0x14FB9C, #v[0x46, 0x50, 0x75, 0x63]) := by decide +kernel
/-- T-SE-10. -/
theorem test_seTail2 : after (exec .seTail2 (State.reset.withRaw 0xFF 0xFF 0xAA)) (fun t => (t.units.seW, t.units.seOut)) =
    some (0xFFFF00, #v[0x2F, 0x2F, 0x38, 0x3D]) := by decide +kernel
/-- T-SE-13. -/
theorem test_seTail1 : after (exec .seTail1 (State.reset.withRaw 0xFF 0xAA 0xAA)) (fun t => (t.units.seW, t.units.seOut)) =
    some (0xFF0000, #v[0x2F, 0x77, 0x3D, 0x3D]) := by decide +kernel
/-- T-SD-04 and T-SD-17. -/
theorem test_sdGroup : after (exec .sdGroup (State.reset.withSymbols 0x2B 0x2F 0x2B 0x2F))
      (fun t => (t.units.sdOk, t.units.sdK, t.units.sdOut)) = some (true, 3, [0xFB, 0xFF, 0xBF]) ∧
    after (exec .sdGroup (State.reset.withSymbols 0x54 0x57 0x46 0xF5)) (fun t => t.units.sdOk) = some false := by
  decide +kernel
/-- T-SD-09, T-SD-10 and T-SD-13. -/
theorem test_sdFinal : after (exec .sdFinal (State.reset.withSymbols 0x54 0x57 0x46 0x3D))
      (fun t => (t.units.sdOk, t.units.sdK, t.units.sdOut)) = some (true, 2, [0x4D, 0x61]) ∧
    after (exec .sdFinal (State.reset.withSymbols 0x54 0x52 0x3D 0x3D))
      (fun t => (t.units.sdOk, t.units.sdK, t.units.sdOut)) = some (true, 1, [0x4D]) ∧
    after (exec .sdFinal (State.reset.withSymbols 0x54 0x3D 0x3D 0x3D)) (fun t => t.units.sdOk) = some false := by
  decide +kernel

/-! ## The shared vector units -/

/-- T-SPU-03, its second half. -/
theorem test_spuShuf_enc : after (exec .spuShuf (units 2#2 (by decide) fun u =>
      { u with spuV := count 0xA0 32, spuC := standardEncShuf })) (fun t => t.units.spuOut.drop 16) =
    some [0xB2, 0xB1, 0xB0, 0x00, 0xB5, 0xB4, 0xB3, 0x00, 0xB8, 0xB7, 0xB6, 0x00, 0xBB, 0xBA, 0xB9, 0x00] := by
  decide +kernel
/-- T-SPU-02. -/
theorem test_spuShuf_dec : after (exec .spuShuf (units 1#2 (by decide) fun u =>
      { u with spuV := count 0xA0 16, spuC := standardDecShuf })) (fun t => t.units.spuOut) =
    some [0xA2, 0xA1, 0xA0, 0xA6, 0xA5, 0xA4, 0xAA, 0xA9, 0xA8, 0xAE, 0xAD, 0xAC, 0x00, 0x00, 0x00, 0x00] := by
  decide +kernel
/-- R165: the range boundaries, and a lane above 63. -/
theorem test_rcuEnc : after (exec .rcuEnc (units 1#2 (by decide) fun u =>
      { u with rcuV := [25, 26, 51, 52, 61, 62, 63, 64, 19, 22, 5, 46, 0, 0, 0, 0] })) (fun t => t.units.rcuOut) =
    some [0x5A, 0x61, 0x7A, 0x30, 0x39, 0x2B, 0x2F, 0x00, 0x54, 0x57, 0x46, 0x75, 0x41, 0x41, 0x41, 0x41] := by
  decide +kernel
/-- T-RCU-03. -/
theorem test_rcuDec : after (exec .rcuDec (units 1#2 (by decide) fun u =>
      { u with rcuV := [0x54, 0x3D, 0x46, 0x75] ++ List.replicate 12 0x41 }))
      (fun t => (t.units.rcuOut, t.units.vdAnybad)) =
    some ([0x13, 0xFF, 0x05, 0x2E] ++ List.replicate 12 0x00, true) := by decide +kernel

/-! ## The vector engines -/

/-- T-VE-02, the load of both halves. -/
theorem test_veLoad : after (exec .veLoad (work 2#2 (by decide) 1 true (count 0x10 32) 32 0 0 .bulkTransform))
    (fun t => t.units.veV) = some (count 0x10 16 ++ count 0x1C 16) := by decide +kernel
/-- T-VE-01, the split. -/
theorem test_veSplit6 : after (exec .veSplit6 (units 1#2 (by decide) fun u =>
      { u with veV := [0x12, 0x11, 0x10, 0, 0x15, 0x14, 0x13, 0, 0x18, 0x17, 0x16, 0, 0x1B, 0x1A, 0x19, 0] }))
      (fun t => t.units.veV) =
    some [0x04, 0x01, 0x04, 0x12, 0x04, 0x31, 0x10, 0x15, 0x05, 0x21, 0x1C, 0x18, 0x06, 0x11, 0x28, 0x1B] := by
  decide +kernel
/-- R194: the lanes in order at `q`, nothing past them. -/
theorem test_veStore : after (exec .veStore { bulk 1 (count 0 16) 32 with
      units := { Units.zero 16 with veV := count 0x41 16 }, written := 4 }) (stored 0x203 18) =
    some ([0x00] ++ count 0x41 16 ++ [0x00]) := by decide +kernel
/-- T-VE-01. -/
theorem test_veIter : after (exec .veIter (bulk 1 (count 0x10 16) 16)) (stored 0x200 17) =
    some [0x45, 0x42, 0x45, 0x53, 0x45, 0x78, 0x51, 0x56, 0x46, 0x68, 0x63, 0x59, 0x47, 0x52, 0x6F, 0x62, 0x00] := by
  decide +kernel
/-- T-VD-01, the load. -/
theorem test_vdLoad : after (exec .vdLoad (bulk 2 (count 0x41 16) 12)) (fun t => t.units.vdV) = some (count 0x41 16) := by
  decide +kernel
/-- T-VD-01, the merge. -/
theorem test_vdMerge6 : after (exec .vdMerge6 (units 1#2 (by decide) fun u =>
      { u with vdV := [0x04, 0x01, 0x04, 0x12, 0x04, 0x31, 0x10, 0x15, 0x05, 0x21, 0x1C, 0x18, 0x06, 0x11, 0x28, 0x1B] }))
      (fun t => t.units.vdV) =
    some [0x12, 0x11, 0x10, 0, 0x15, 0x14, 0x13, 0, 0x18, 0x17, 0x16, 0, 0x1B, 0x1A, 0x19, 0] := by decide +kernel
/-- R201: lanes 0 to 11 of each half, the halves one after the other. -/
theorem test_vdStore : after (exec .vdStore { work 2#2 (by decide) 2 true (count 0 32) 24 0 0 .bulkTransform with
      units := { Units.zero 32 with vdV := count 0x41 32 } }) (stored 0x200 25) =
    some (count 0x41 12 ++ count 0x51 12 ++ [0x00]) := by decide +kernel
/-- The example of R202, completed, and T-VD-02, abandoned. -/
theorem test_vdIter : after (exec .vdIter (bulk 2 (twfu ++ twfu ++ twfu ++ twfu) 12)) (stored 0x200 13) =
      some [0x4D, 0x61, 0x6E, 0x4D, 0x61, 0x6E, 0x4D, 0x61, 0x6E, 0x4D, 0x61, 0x6E, 0x00] ∧
    after (exec .vdIter (bulk 2 (twfu ++ twfu ++ [0x54, 0x21, 0x46, 0x75] ++ twfu) 12))
      (fun t => (t.units.vdAnybad, stored 0x200 12 t)) = some (true, List.replicate 12 0) := by decide +kernel

/-! ## The length calculator's micro-operations -/

/-- T-EL-08. -/
theorem test_lcEnclen : after (exec .lcEnclen (work 0#2 (by decide) 3 false (count 0 7) 0 0 0 .idle)) (·.value) =
    some 12#32 := by decide +kernel
/-- T-DL-09. -/
theorem test_lcDeclen : after (exec .lcDeclen (work 0#2 (by decide) 4 false [0x41, 0x3D, 0x3D] 0 0 0 .idle)) (·.value) =
    some 0xFFFFFFFE#32 := by decide +kernel

/-! ## The sequencer -/

/-- The traces of section 4 at `CAP = 1`: what the next step issues, and what a whole iteration is made of. -/
theorem test_nextMicroOp : nextMicroOp (bulk 1 (count 0 27) 36) = some .veIter ∧
    nextMicroOp (tail 1 true (count 0 27) 36 12 16) = some .seGroup ∧
    nextMicroOp (tail 1 true (count 0 27) 36 27 36) = none ∧
    nextMicroOp (tail 2 true (count 0 36) 27 32 24) = some .sdFinal ∧
    (microOpParts (bulk 1 (count 0 27) 36) .veIter).map encode =
      [.uop 0x10, .uop 0x08, .uop 0x11, .uop 0x09, .uop 0x12] := by decide +kernel
/-- Section 4: a completed iteration `1B` is `18 0A 19 08 1A`; that of T-DEC-41, abandoned, `18 0A` only. -/
theorem test_microOpParts_decode :
    (microOpParts (bulk 2 (twfu ++ twfu ++ twfu ++ twfu) 12) .vdIter).map encode =
      [.uop 0x18, .uop 0x0A, .uop 0x19, .uop 0x08, .uop 0x1A] ∧
    microOpTrace 1 (bulk 2 (twfu ++ twfu ++ [0x54, 0x21, 0x46, 0x75] ++ twfu) 12) =
      [(.vdIter, [.vdLoad, .rcuDec])] := by decide +kernel
/-- R120, R123: Accept of `ENCLEN` issues `1C`, of `DECLEN` `1D`; a faulting `ENCLEN` (T-EL-13) and an `ENC` issue none. -/
theorem test_acceptMicroOp :
    nextMicroOp { State.reset with offers := [0x00000005_00000003] } = some .lcEnclen ∧
    nextMicroOp { State.reset with offers := [0x0000000000001000_00000004_00000004] } = some .lcDeclen ∧
    nextMicroOp { State.reset with offers := [0x5FFFFFFE_00000003] } = none ∧
    nextMicroOp { State.reset with offers := [0x0000000000002000_00000004_00000000_0000000000001000_00000003_00000011] } =
      none := by decide +kernel
/-- Section 4, `enc` at `CAP = 1`: `27 - 12 = 15 < 16`, so one iteration leaves the bulk path at (12, 16). -/
theorem test_encBulk : after (step (bulk 1 (count 0 27) 36)) (fun t => (t.phase, t.consumed, t.written)) =
    some (.tailTransform, 12, 16) := by decide +kernel
/-- T-DEC-41 at `CAP = 1`: abandoned, to the tail at (0, 0). -/
theorem test_decBulk : after (step (bulk 2 (twfu ++ twfu ++ [0x54, 0x21, 0x46, 0x75] ++ twfu) 12))
    (fun t => (t.phase, t.consumed, t.written)) = some (.tailTransform, 0, 0) := by decide +kernel
/-- T-ENC-06, its last step. -/
theorem test_encTrail : after (step (tail 1 true [0x4D, 0x61] 4 0 0))
    (fun t => (t.phase, t.status, t.consumed, t.written, stored 0x200 4 t)) =
    some (.done, .done, 2, 4, [0x54, 0x57, 0x45, 0x3D]) := by decide +kernel
/-- T-DEC-33: validity before capacity. -/
theorem test_decGroup : after (step (tail 2 true (twfu ++ [0x54, 0x57, 0x46, 0x21]) 3 4 3))
    (fun t => (t.phase, t.status, t.consumed, t.written)) = some (.done, .invalidData, 4, 3) := by decide +kernel
/-- P1, step 1: the response record of `{NeedMoreData, consumed=15, written=20}`. -/
theorem test_deliver : after (step { tail 1 false (count 0 16) 64 15 20 with phase := .done, status := .needMoreData })
    (fun t => (t.phase, t.responses)) = some (.idle, [0x00000000_00000014_0000000F_00000002#128]) := by decide +kernel

/-- R282, in the middle of T-ENC-06: what the command would have written is `"TWE="`, and no response is delivered. -/
theorem test_resetInCommand : restOfOutput (tail 1 true [0x4D, 0x61] 5 0 0) = [0x54, 0x57, 0x45, 0x3D] ∧
    after (step { tail 1 true [0x4D, 0x61] 5 0 0 with resetIn := some (standardConfiguration 2#2 (by decide)) })
      (fun t => (t.phase, t.responses, t.config.regs.cap)) = some (.idle, [], 2#2) := by
  refine ⟨by decide +kernel, ?_⟩
  rw [step_of_reset rfl, resetEvent_inCommand _ (by decide)]
  simp only [after, resetBlock_phase, resetBlock_responses, resetBlock_config]
  rcases abandon_cases { tail 1 true [0x4D, 0x61] 5 0 0 with resetIn := none } with h | ⟨b, -, -, -, h⟩ <;> rw [h] <;> rfl

/-! ## Witnesses: states and operands that meet the hypotheses of each statement, clause by clause -/

/-- No byte is in both regions, by the overlap test (R71). -/
theorem disjoint_of {srcBase : Addr} {srcLen : Len} {dstBase : Addr} {dstCap : Len}
    (h : regionsOverlap ⟨0, false, false, srcBase, srcLen, dstBase, dstCap⟩ = false) :
    RegionsDisjoint srcBase srcLen dstBase dstCap := regionsOverlap_false_iff.1 h

/-- The descriptor of T-CMD-01. -/
def encDescriptor : Descriptor := 0x0000000000002000_00000004_00000000_0000000000001000_00000003_00000011#256

/-- A reset request in `Idle`. -/
theorem witness_ResetEventInstallsConfiguration :
    let s := { State.reset with resetIn := some (standardConfiguration 2#2 (by decide)) }
    s.resetIn = some (standardConfiguration 2#2 (by decide)) ∧ s.phase = .idle := ⟨rfl, rfl⟩

theorem witness_OnlyResetWritesConfiguration : State.reset.resetIn = none ∧ (∃ t, step State.reset = .next t) ∧
    (bulk 1 (count 0 16) 16).resetIn = none ∧ (∃ t, step (bulk 1 (count 0 16) 16) = .next t) :=
  ⟨rfl, next_of_isNext (by decide +kernel), rfl, next_of_isNext (by decide +kernel)⟩

theorem witness_IllegalDescriptorsFault :
    (let s := { State.reset with offers := [0#256] }; s.Quiet ∧ s.phase = .idle ∧ s.offers = [0#256] ∧
      IllegalDescriptor 0#256) ∧
    (let s := { State.reset with offers := [encDescriptor] }; s.Quiet ∧ s.phase = .idle ∧ s.offers = [encDescriptor] ∧
      ¬IllegalDescriptor encDescriptor) := by
  refine ⟨⟨by decide, rfl, rfl, .inl (.inl (by decide))⟩, by decide, rfl, rfl, ?_⟩
  unfold IllegalDescriptor
  decide +kernel

/-- Each kind of illegal encoding: `OP` 5 and 15, the edges of `RSV0` and `RSV1`, the unused fields. -/
theorem witness_IllegalDescriptor_kinds :
    (IllegalDescriptor 0x5#256 ∧ IllegalDescriptor 0xF#256 ∧ IllegalDescriptor 0x41#256 ∧ IllegalDescriptor 0x80000001#256) ∧
    (IllegalDescriptor (1#256 ||| 1#256 <<< 128) ∧ IllegalDescriptor (1#256 ||| 1#256 <<< 159) ∧
      IllegalDescriptor 0x13#256 ∧ IllegalDescriptor 0x14#256) ∧
    (IllegalDescriptor 0x23#256 ∧ IllegalDescriptor (3#256 ||| 1#256 <<< 64) ∧
      IllegalDescriptor (4#256 ||| 1#256 <<< 160)) ∧
    (IllegalDescriptor (4#256 ||| 1#256 <<< 255) ∧ ¬IllegalDescriptor 0x24#256) := by
  simp only [IllegalDescriptor]
  exact ⟨by decide +kernel, by decide +kernel, by decide +kernel, by decide +kernel⟩

theorem witness_EncodeOfDecode : decode (.cmd encDescriptor) = .ok (.enc true false 3#32 0x1000#64 4#32 0x2000#64) ∧
    decode (.uop 0x1D#5) = .ok .lcDeclen := by decide +kernel

theorem witness_StepRunsOfferedCommand :
    let s := { State.reset with offers := [encDescriptor] }
    s.Quiet ∧ s.phase = .idle ∧ s.offers = [encDescriptor] ∧
      decode (.cmd encDescriptor) = .ok (.enc true false 3#32 0x1000#64 4#32 0x2000#64) :=
  ⟨by decide, rfl, rfl, by decide +kernel⟩

theorem witness_StepRunsSelectedMicroOp : State.reset.resetIn = none ∧
    { State.reset with uopSel := some 0x01#5 }.uopSel = some 0x01#5 ∧ decode (.uop 0x01#5) = .ok .seGroup ∧
    { State.reset with uopSel := some 0x1E#5 }.uopSel = some 0x1E#5 ∧ ∀ i, decode (.uop 0x1E#5) ≠ .ok i :=
  ⟨rfl, rfl, rfl, rfl, fun i h => by cases h⟩

theorem witness_WaitingChangesNothing :
    (State.reset.Quiet ∧ State.reset.phase = .idle ∧ State.reset.offers = []) ∧
    (let s := { State.reset with phase := .done, hostTakes := false }; s.Quiet ∧ s.phase = .done ∧ s.hostTakes = false) ∧
    (let s := { bulk 1 (count 0 16) 16 with offers := [encDescriptor] }; s.Quiet ∧ s.phase ≠ .idle ∧
      ∃ t, step s = .next t) ∧
    ((bulk 1 twfu 4).phase ≠ .idle ∧ (Instr.enclen 5#32).isMicroOp = false) :=
  ⟨by decide, ⟨by decide, rfl, rfl⟩, ⟨by decide, by decide, next_of_isNext (by decide +kernel)⟩, by decide⟩

/-- Ordinary regions. -/
theorem admitted_reset : Admitted State.reset 3#32 0x1000#64 4#32 0x2000#64 :=
  ⟨by decide, by decide, disjoint_of (by decide +kernel), by decide +kernel, by decide +kernel⟩

/-- A source that ends exactly at 2^64 (T-CMD-21), a destination that begins where nothing else is. -/
theorem admitted_edge : Admitted State.reset 8#32 0xFFFFFFFFFFFFFFF8#64 0x7FFFFFFF#32 0#64 :=
  ⟨by decide, by decide, disjoint_of (by decide +kernel), by decide +kernel, by decide +kernel⟩

/-- Adjacent regions, and empty ones. -/
theorem admitted_adjacent : Admitted State.reset 4#32 0x1000#64 0#32 0x1004#64 ∧
    Admitted State.reset 0#32 0x1000#64 0#32 0x1000#64 :=
  ⟨⟨by decide, by decide, disjoint_of (by decide +kernel), by decide +kernel, by decide +kernel⟩,
    ⟨by decide, by decide, disjoint_of (by decide +kernel), by decide +kernel, by decide +kernel⟩⟩

theorem witness_TransferCommandsStart : State.reset.phase = .idle ∧
    Admitted State.reset 8#32 0xFFFFFFFFFFFFFFF8#64 0x7FFFFFFF#32 0#64 := ⟨rfl, admitted_edge⟩

theorem witness_EnclenAnswers : State.reset.phase = .idle ∧ (0x5FFFFFFD#32).toNat ≤ 1610612733 ∧
    1610612733 < (0x5FFFFFFE#32).toNat := by decide

theorem witness_DeclenAnswers : State.reset.phase = .idle ∧
    (RegionInRange 0xFFFFFFFFFFFFFFF8#64 8#32 ∧
      readableMem State.reset.memMap (0xFFFFFFFFFFFFFFF8#64).toNat (8#32).toNat = true) ∧
    (RegionInRange 0#64 0#32 ∧ readableMem State.reset.memMap (0#64).toNat (0#32).toNat = true) :=
  ⟨rfl, ⟨by decide, by decide +kernel⟩, by decide, by decide +kernel⟩

theorem witness_WideElementsFault : State.reset.phase = .idle := rfl

theorem witness_RangeErrors : State.reset.phase = .idle ∧
    (∀ n : Nat, ¬((0x80000000#32).toNat ≤ 2147483647 ∧ n ≤ 2 ^ 64 ∧ (4#32).toNat ≤ 2147483647 ∧ n ≤ 2 ^ 64)) ∧
    ¬((16#32).toNat ≤ 2147483647 ∧ (0xFFFFFFFFFFFFFFF1#64).toNat + (16#32).toNat ≤ 2 ^ 64) ∧
    ((15#32).toNat ≤ 2147483647 ∧ (0xFFFFFFFFFFFFFFF1#64).toNat + (15#32).toNat ≤ 2 ^ 64) ∧
    1610612733 < (0x5FFFFFFE#32).toNat ∧
    (∃ t, exec (.enc true false 3#32 0x1000#64 4#32 0x2000#64) State.reset = .next t) ∧
    (∃ t, exec (.declen false 3#32 0x1000#64) State.reset = .next t) ∧
    (∃ t, exec (.enclen 0x5FFFFFFD#32) State.reset = .next t) :=
  ⟨rfl, fun n h => absurd h.1 (by decide), by decide, by decide, by decide, next_of_isNext (by decide +kernel),
    next_of_isNext (by decide +kernel), next_of_isNext (by decide +kernel)⟩

/-- One shared byte, the last of the source and the first of the destination. -/
theorem witness_OverlappingRegionsRefused : State.reset.phase = .idle ∧ RegionInRange 0x1000#64 4#32 ∧
    RegionInRange 0x1003#64 4#32 ∧ InRegion 0x1000#64 4#32 0x1003 ∧ InRegion 0x1003#64 4#32 0x1003 := by decide

/-- A map that stops at 0x1003, within the source, and one that is not writable. -/
theorem witness_InaccessibleRegionsStick :
    State.reset.phase = .idle ∧ RegionInRange 0x1000#64 4#32 ∧ RegionInRange 0x2000#64 4#32 ∧
    RegionsDisjoint 0x1000#64 4#32 0x2000#64 4#32 ∧
    (InRegion 0x1000#64 4#32 0x1003 ∧ ∀ r ∈ [MemRegion.mk 0 0x1003 true true], r.readable = true →
      ¬(r.base ≤ 0x1003 ∧ 0x1003 < r.base + r.len)) ∧
    (InRegion 0x2000#64 4#32 0x2000 ∧ ∀ r ∈ [MemRegion.mk 0 0x3000 true false], r.writable = true →
      ¬(r.base ≤ 0x2000 ∧ 0x2000 < r.base + r.len)) :=
  ⟨rfl, by decide, by decide, disjoint_of (by decide +kernel), by decide, by decide⟩

theorem witness_SdGroupBytes :
    (∃ i : Fin 4, valueOf (State.reset.withSymbols 0x54 0x3D 0x46 0x75).config.regs
      (State.reset.withSymbols 0x54 0x3D 0x46 0x75).units.sdIn[i] = 0xFF#8) ∧
    (∀ i : Fin 4, valueOf (State.reset.withSymbols 0x54 0x57 0x46 0x75).config.regs
      (State.reset.withSymbols 0x54 0x57 0x46 0x75).units.sdIn[i] ≠ 0xFF#8) := by decide +kernel

/-- No `=`; one `=` valid and invalid; two `=` valid and invalid. -/
theorem witness_SdFinalBytes :
    State.reset.config.regs.pad = 0x3D#8 ∧ (0x75#8 ≠ 0x3D#8) ∧
    (valueOf State.reset.config.regs 0x54#8 ≠ 0xFF#8 ∧ valueOf State.reset.config.regs 0x57#8 ≠ 0xFF#8 ∧
      valueOf State.reset.config.regs 0x45#8 ≠ 0xFF#8) ∧ valueOf State.reset.config.regs 0x21#8 = 0xFF#8 := by
  decide +kernel

/-- No entry; the first entry; an entry after one that does not hit; both ends of its range. -/
theorem witness_RangeCompareLowestHit :
    (∀ j : Fin 8, ¬(standardRcEnc[j].valid = true ∧ standardRcEnc[j].lo.toNat ≤ (64#8).toNat ∧
      (64#8).toNat ≤ standardRcEnc[j].hi.toNat)) ∧
    (standardRcEnc[0].valid = true ∧ standardRcEnc[0].lo.toNat ≤ (52#8).toNat ∧
      (52#8).toNat ≤ standardRcEnc[0].hi.toNat) ∧
    (standardRcEnc[1].valid = true ∧ standardRcEnc[1].lo.toNat ≤ (25#8).toNat ∧
      (25#8).toNat ≤ standardRcEnc[1].hi.toNat ∧ ∀ k : Fin 8, k < 1 → ¬(standardRcEnc[k].valid = true ∧
        standardRcEnc[k].lo.toNat ≤ (25#8).toNat ∧ (25#8).toNat ≤ standardRcEnc[k].hi.toNat)) := by decide +kernel

/-- Lanes 63 and 64. -/
theorem witness_RcuEncIsAlphabet :
    let s := units 1#2 (by decide) fun u => { u with rcuV := [63, 64] }
    0 < s.lanes ∧ 1 < s.lanes ∧ (lane s.units.rcuV 0).toNat < 64 ∧ 64 ≤ (lane s.units.rcuV 1).toNat := by decide +kernel

theorem witness_RcuDecIsDecodeMap :
    15 < (units 1#2 (by decide) id).lanes ∧ 31 < (units 2#2 (by decide) id).lanes := by decide +kernel

/-- Exactly the bytes an iteration reads: 16, 28, and none without lanes. -/
theorem witness_VeLoadLanes :
    ((bulk 1 (count 0 16) 16).lanes ≠ 0 → (bulk 1 (count 0 16) 16).SourceHolds ((bulk 1 (count 0 16) 16).window + 4)) ∧
    (let s := work 2#2 (by decide) 1 true (count 0 28) 32 0 0 .bulkTransform; s.SourceHolds (s.window + 4)) ∧
    (tail 1 true [] 0 0 0).lanes = 0 :=
  ⟨fun _ => by decide +kernel, by decide +kernel, by decide +kernel⟩

theorem witness_ShuffleConstants :
    (units 2#2 (by decide) fun u => { u with spuC := standardEncShuf }).units.spuC = State.reset.config.regs.encShuf ∧
    (units 2#2 (by decide) fun u => { u with spuC := standardDecShuf }).units.spuC = State.reset.config.regs.decShuf ∧
    1 < (units 2#2 (by decide) id).lanes / 16 := by decide +kernel

theorem witness_VeStoreBytes : (bulk 1 (count 0 16) 16).mem.wf = true ∧ (bulk 1 (count 0 16) 16).DestinationHolds
    (bulk 1 (count 0 16) 16).lanes := by decide +kernel

theorem witness_VeIterEqualsScalarGroups :
    let s := work 2#2 (by decide) 1 true (count 0 28) 32 0 0 .bulkTransform
    s.mem.wf = true ∧ s.SourceHolds (s.window + 4) ∧ s.DestinationHolds s.lanes ∧ 7 < s.window / 3 := by decide +kernel

theorem witness_VdLoadLanes : (bulk 2 (count 0 16) 12).SourceHolds (bulk 2 (count 0 16) 12).lanes := by decide +kernel

theorem witness_VdStoreBytes : (bulk 2 (count 0 16) 12).mem.wf = true ∧ (bulk 2 (count 0 16) 12).DestinationHolds
    (bulk 2 (count 0 16) 12).window := by decide +kernel

/-- A sentinel in the last lane only; and no sentinel, with exactly the room for `N` bytes. -/
theorem witness_VdIterEqualsScalarGroups :
    (let s := bulk 2 (twfu ++ twfu ++ twfu ++ [0x54, 0x57, 0x45, 0x3D]) 12;
      s.SourceHolds s.lanes ∧ ∃ i < s.lanes, valueOf s.config.regs (s.nextByte i) = 0xFF#8) ∧
    (let s := bulk 2 (twfu ++ twfu ++ twfu ++ twfu) 12;
      s.SourceHolds s.lanes ∧ (∀ i < s.lanes, valueOf s.config.regs (s.nextByte i) ≠ 0xFF#8) ∧ s.mem.wf = true ∧
        s.DestinationHolds s.window) := by decide +kernel

/-- Both sides of both bounds. -/
theorem witness_LengthMicroOps :
    (0x5FFFFFFD#32).toNat ≤ 1610612733 ∧ 1610612733 < (0x5FFFFFFE#32).toNat ∧
    (let s := { State.reset with latch := { Latch.zero with srcLen := 0x7FFFFFFF#32 } };
      readableMem s.memMap s.latch.srcBase.toNat s.latch.srcLen.toNat = true ∧ s.latch.srcLen.toNat ≤ 2147483647) ∧
    (let s := { State.reset with latch := { Latch.zero with srcLen := 0x80000000#32 } };
      readableMem s.memMap s.latch.srcBase.toNat s.latch.srcLen.toNat = true ∧ 2147483647 < s.latch.srcLen.toNat) := by
  decide +kernel

/-- One byte too few: for `VD.LOAD`; for `VE.LOAD`, both halves of whose window are there; for `VE.STORE`; for
`VD.STORE`, whose first half fits. -/
theorem witness_AccessOutsideRegionStops :
    (let s := bulk 2 (count 0 15) 12; s.latch.srcBase.toNat + s.latch.srcLen.toNat < s.srcAddr + s.lanes) ∧
    (let s := work 2#2 (by decide) 1 true (count 0 27) 32 0 0 .bulkTransform;
      s.lanes ≠ 0 ∧ s.latch.srcBase.toNat + s.latch.srcLen.toNat < s.srcAddr + (s.window + 4) ∧
      readableMem s.memMap s.latch.srcBase.toNat s.latch.srcLen.toNat = true) ∧
    (let s := bulk 1 (count 0 16) 15; s.latch.dstBase.toNat + s.latch.dstCap.toNat < s.dstAddr + s.lanes ∧
      s.SourceHolds (s.window + 4)) ∧
    (let s := work 2#2 (by decide) 2 true (List.replicate 32 0x41) 23 0 0 .bulkTransform;
      s.lanes ≠ 0 ∧ s.latch.dstBase.toNat + s.latch.dstCap.toNat < s.dstAddr + s.window ∧ s.SourceHolds s.lanes ∧
      (∀ i < s.lanes, valueOf s.config.regs (s.nextByte i) ≠ 0xFF#8) ∧
      writableMem s.memMap s.latch.dstBase.toNat s.latch.dstCap.toNat = true) := by decide +kernel

theorem witness_ScanChoosesPath :
    (let s := work 1#2 (by decide) 1 true (count 0 16) 16 0 0 .scanning; s.Quiet ∧ s.phase = .scanning ∧ s.latch.op = 1#4) ∧
    (let s := work 2#2 (by decide) 2 true (count 0 32) 23 0 0 .scanning; s.Quiet ∧ s.phase = .scanning ∧ s.latch.op = 2#4) :=
  ⟨by decide, by decide⟩

theorem witness_EncBulkStep :
    let s := bulk 1 (count 0 28) 32
    s.Quiet ∧ s.phase = .bulkTransform ∧ s.latch.op = 1#4 ∧ s.consumed.toNat + s.lanes ≤ s.latch.srcLen.toNat ∧
      s.written.toNat + s.lanes ≤ s.latch.dstCap.toNat ∧ ∃ t, exec .veIter s = .next t :=
  ⟨by decide, rfl, rfl, by decide +kernel, by decide +kernel, next_of_isNext (by decide +kernel)⟩

/-- Three bytes left with 3 and with 4 bytes of room. -/
theorem witness_EncGroupStep :
    (let s := tail 1 true (count 0 6) 7 3 4; s.Quiet ∧ s.phase = .tailTransform ∧ s.latch.op = 1#4 ∧
      s.consumed.toNat + 3 ≤ s.latch.srcLen.toNat ∧ s.latch.dstCap.toNat < s.written.toNat + 4) ∧
    (let s := tail 1 true (count 0 6) 8 3 4; s.Quiet ∧ s.phase = .tailTransform ∧ s.latch.op = 1#4 ∧
      s.consumed.toNat + 3 ≤ s.latch.srcLen.toNat ∧ s.written.toNat + 4 ≤ s.latch.dstCap.toNat ∧ s.mem.wf = true ∧
      readableMem s.memMap s.srcAddr 3 = true ∧ writableMem s.memMap s.dstAddr 4 = true) :=
  ⟨by decide +kernel, by decide +kernel⟩

/-- Nothing left; one byte left without the final flag and no room; with it and no room; two bytes and one byte with
room. -/
theorem witness_EncTrailStep :
    (let s := tail 1 true (count 0 3) 4 3 4; s.Quiet ∧ s.phase = .tailTransform ∧ s.latch.op = 1#4 ∧
      s.consumed.toNat ≤ s.latch.srcLen.toNat ∧ s.latch.srcLen.toNat < s.consumed.toNat + 3 ∧
      s.latch.srcLen.toNat = s.consumed.toNat) ∧
    (let s := tail 1 false (count 0 4) 4 3 4; s.Quiet ∧ s.latch.srcLen.toNat < s.consumed.toNat + 3 ∧
      s.latch.srcLen.toNat ≠ s.consumed.toNat ∧ s.latch.final = false) ∧
    (let s := tail 1 true (count 0 4) 7 3 4; s.latch.srcLen.toNat ≠ s.consumed.toNat ∧ s.latch.final = true ∧
      s.latch.dstCap.toNat < s.written.toNat + 4) ∧
    (let s := tail 1 true (count 0 5) 8 3 4; s.latch.final = true ∧ s.written.toNat + 4 ≤ s.latch.dstCap.toNat ∧
      s.mem.wf = true ∧ writableMem s.memMap s.dstAddr 4 = true ∧ s.latch.srcLen.toNat = s.consumed.toNat + 2 ∧
      readableMem s.memMap s.srcAddr 2 = true) ∧
    (let s := tail 1 true (count 0 4) 8 3 4; s.latch.final = true ∧ s.written.toNat + 4 ≤ s.latch.dstCap.toNat ∧
      s.mem.wf = true ∧ writableMem s.memMap s.dstAddr 4 = true ∧ s.latch.srcLen.toNat = s.consumed.toNat + 1 ∧
      readableMem s.memMap s.srcAddr 1 = true) := by decide +kernel

/-- An abandoned and a completed iteration. -/
theorem witness_DecBulkStep :
    (let s := bulk 2 (twfu ++ twfu ++ twfu ++ [0x54, 0x51, 0x3D, 0x3D]) 12;
      s.Quiet ∧ s.phase = .bulkTransform ∧ s.latch.op = 2#4 ∧ s.consumed.toNat + s.lanes ≤ s.latch.srcLen.toNat ∧
      s.written.toNat + s.window ≤ s.latch.dstCap.toNat ∧
      after (exec .vdIter s) (fun t => t.units.vdAnybad) = some true) ∧
    (let s := bulk 2 (twfu ++ twfu ++ twfu ++ twfu) 12;
      s.Quiet ∧ s.consumed.toNat + s.lanes ≤ s.latch.srcLen.toNat ∧ s.written.toNat + s.window ≤ s.latch.dstCap.toNat ∧
      after (exec .vdIter s) (fun t => t.units.vdAnybad) = some false) := by decide +kernel

/-- The last group, invalid; a padded last group that needs one byte, without and with it; a group that is not the last. -/
theorem witness_DecGroupStep :
    (let s := tail 2 true [0x54, 0x3D, 0x3D, 0x3D] 3 0 0; s.Quiet ∧ s.phase = .tailTransform ∧ s.latch.op = 2#4 ∧
      s.consumed.toNat + 4 ≤ s.latch.srcLen.toNat ∧ readableMem s.memMap s.srcAddr 4 = true ∧ s.latch.final = true ∧
      s.latch.srcLen.toNat = s.consumed.toNat + 4 ∧
      after (exec .sdFinal (s.withSymbols (s.nextByte 0) (s.nextByte 1) (s.nextByte 2) (s.nextByte 3)))
        (fun t => t.units.sdOk) = some false) ∧
    (let s := tail 2 true [0x54, 0x51, 0x3D, 0x3D] 0 0 0; s.latch.dstCap.toNat < s.written.toNat + 1 ∧
      after (exec .sdFinal (s.withSymbols (s.nextByte 0) (s.nextByte 1) (s.nextByte 2) (s.nextByte 3)))
        (fun t => (t.units.sdOk, t.units.sdK)) = some (true, 1)) ∧
    (let s := tail 2 true [0x54, 0x51, 0x3D, 0x3D] 1 0 0; s.written.toNat + 1 ≤ s.latch.dstCap.toNat ∧ s.mem.wf = true ∧
      writableMem s.memMap s.dstAddr 1 = true) ∧
    (let s := tail 2 true (twfu ++ twfu) 6 0 0; s.latch.srcLen.toNat ≠ s.consumed.toNat + 4 ∧
      after (exec .sdGroup (s.withSymbols (s.nextByte 0) (s.nextByte 1) (s.nextByte 2) (s.nextByte 3)))
        (fun t => (t.units.sdOk, t.units.sdK)) = some (true, 3)) := by decide +kernel

theorem witness_DecTrailStep :
    (let s := tail 2 true twfu 3 4 3; s.Quiet ∧ s.phase = .tailTransform ∧ s.latch.op = 2#4 ∧
      s.consumed.toNat ≤ s.latch.srcLen.toNat ∧ s.latch.srcLen.toNat < s.consumed.toNat + 4) ∧
    (let s := tail 2 false (twfu ++ [0x54, 0x57, 0x46]) 3 4 3; s.Quiet ∧ s.consumed.toNat ≤ s.latch.srcLen.toNat ∧
      s.latch.srcLen.toNat < s.consumed.toNat + 4) := by decide +kernel

/-- `"TWE="` without the final flag, and in front of another group; `"T=Fu"` and `"TQ=u"` at the end. -/
theorem witness_PaddingOnlyAtTheEnd :
    (let s := tail 2 false [0x54, 0x57, 0x45, 0x3D] 3 0 0; s.Quiet ∧ s.phase = .tailTransform ∧ s.latch.op = 2#4 ∧
      s.consumed.toNat + 4 ≤ s.latch.srcLen.toNat ∧ readableMem s.memMap s.srcAddr 4 = true ∧ s.latch.final = false ∧
      s.nextByte 3 = s.config.regs.pad) ∧
    (let s := tail 2 true ([0x54, 0x57, 0x45, 0x3D] ++ twfu) 6 0 0; s.consumed.toNat + 4 < s.latch.srcLen.toNat ∧
      s.nextByte 3 = s.config.regs.pad) ∧
    (let s := tail 2 true [0x3D, 0x3D, 0x46, 0x75] 6 0 0; s.nextByte 0 = s.config.regs.pad ∧
      s.nextByte 1 = s.config.regs.pad) ∧
    (let s := tail 2 true [0x54, 0x51, 0x3D, 0x75] 6 0 0; s.nextByte 2 = s.config.regs.pad ∧
      s.nextByte 3 ≠ s.config.regs.pad) := by decide +kernel

theorem witness_DeliverResponds :
    let s := { tail 2 true twfu 3 4 3 with phase := .done }
    s.Quiet ∧ s.phase = .done ∧ s.hostTakes = true := by decide

/-- A step from each phase. -/
theorem witness_PhaseTransitions :
    (let s := { State.reset with offers := [encDescriptor] }; s.Quiet ∧ ∃ t, step s = .next t) ∧
    (let s := work 1#2 (by decide) 1 true (count 0 16) 16 0 0 .scanning; s.Quiet ∧ ∃ t, step s = .next t) ∧
    (let s := bulk 1 (count 0 16) 16; s.Quiet ∧ ∃ t, step s = .next t) ∧
    (let s := tail 1 true (count 0 6) 8 3 4; s.Quiet ∧ ∃ t, step s = .next t) ∧
    (let s := { tail 2 true twfu 3 4 3 with phase := .done }; s.Quiet ∧ ∃ t, step s = .next t) :=
  ⟨⟨by decide, next_of_isNext (by decide +kernel)⟩, ⟨by decide, next_of_isNext (by decide +kernel)⟩,
    ⟨by decide, next_of_isNext (by decide +kernel)⟩, ⟨by decide, next_of_isNext (by decide +kernel)⟩,
    ⟨by decide, next_of_isNext (by decide +kernel)⟩⟩

theorem witness_StepsWriteWhatTheyCount :
    (let s := bulk 1 (count 0 16) 16; s.Quiet ∧ s.mem.wf = true ∧ ∃ t, step s = .next t) ∧
    (let s := tail 2 true twfu 3 0 0; s.Quiet ∧ s.mem.wf = true ∧ ∃ t, step s = .next t) ∧
    (let s := { State.reset with offers := [encDescriptor] }; s.Quiet ∧ s.mem.wf = true ∧ ∃ t, step s = .next t) :=
  ⟨⟨by decide, by decide +kernel, next_of_isNext (by decide +kernel)⟩,
    ⟨by decide, by decide +kernel, next_of_isNext (by decide +kernel)⟩,
    ⟨by decide, by decide +kernel, next_of_isNext (by decide +kernel)⟩⟩

/-- Each status, and a fault. -/
theorem witness_OutcomeOrigins :
    after (step (tail 2 true [0x54, 0x3D, 0x46, 0x75] 3 0 0)) (fun t => (t.phase, t.status)) = some (.done, .invalidData) ∧
    after (step (tail 1 false [0x54] 4 0 0)) (fun t => (t.phase, t.status)) = some (.done, .needMoreData) ∧
    after (step (tail 1 true twfu 3 0 0)) (fun t => (t.phase, t.status)) = some (.done, .destinationTooSmall) ∧
    after (step { State.reset with offers := [0#256] }) (fun t => (t.phase, t.fault)) = some (.done, 1) := by
  decide +kernel

/-- The invariant at `Scanning` of the command of T-CMD-01. -/
theorem scanning_inv : (afterAccept ⟨1#4, true, false, 0x1000#64, 3#32, 0x2000#64, 4#32⟩ 0#4 0#32 .scanning
    State.reset).Inv :=
  ⟨rfl, rfl, fun _ => ⟨.inl rfl, ⟨admitted_reset.source, admitted_reset.destination, admitted_reset.disjoint,
      admitted_reset.readable, admitted_reset.writable⟩, by decide, by decide, fun _ => by decide,
      fun h => absurd h (by decide), fun _ => ⟨rfl, rfl⟩, fun h => by cases h⟩, fun h => by cases h⟩

theorem witness_InvariantKept :
    let s := afterAccept ⟨1#4, true, false, 0x1000#64, 3#32, 0x2000#64, 4#32⟩ 0#4 0#32 .scanning State.reset
    s.Inv ∧ ∃ t, step s = .next t := ⟨scanning_inv, next_of_isNext (by decide +kernel)⟩

/-- A reset request in mid-command. -/
theorem witness_ResetAbandonsCommand :
    let s := { afterAccept ⟨1#4, true, false, 0x1000#64, 3#32, 0x2000#64, 4#32⟩ 0#4 0#32 .scanning State.reset with
      resetIn := some (standardConfiguration 0#2 (by decide)) }
    s.Inv ∧ s.resetIn = some (standardConfiguration 0#2 (by decide)) ∧ s.phase ≠ .idle :=
  ⟨⟨rfl, rfl, fun h => ⟨(scanning_inv.3 h).1, ⟨admitted_reset.source, admitted_reset.destination, admitted_reset.disjoint,
      admitted_reset.readable, admitted_reset.writable⟩, by decide, by decide, fun _ => by decide,
      fun h => absurd h (by decide), fun _ => ⟨rfl, rfl⟩, fun h => by cases h⟩, fun h => by cases h⟩, rfl, by decide⟩

theorem witness_StartedCommandsNeverStop :
    (let s := afterAccept ⟨1#4, true, false, 0x1000#64, 3#32, 0x2000#64, 4#32⟩ 0#4 0#32 .scanning State.reset;
      s.Inv ∧ s.resetIn = none ∧ s.phase ≠ .idle) ∧
    (let s := { State.reset with offers := [encDescriptor] }; s.Inv ∧ s.resetIn = none ∧ s.phase = .idle) :=
  ⟨⟨scanning_inv, rfl, by decide⟩,
    ⟨⟨rfl, rfl, fun h => (by rcases h with h | h | h <;> cases h), fun h => by cases h⟩, rfl, rfl⟩⟩

theorem witness_EncCommand : State.reset.Quiet ∧ State.reset.phase = .idle ∧ State.reset.mem.wf = true ∧
    Admitted State.reset 8#32 0xFFFFFFFFFFFFFFF8#64 0x7FFFFFFF#32 0#64 ∧
    Admitted State.reset 0#32 0x1000#64 0#32 0x1000#64 :=
  ⟨by decide, rfl, by decide, admitted_edge, admitted_adjacent.2⟩

theorem witness_DecCommand : State.reset.Quiet ∧ State.reset.phase = .idle ∧ State.reset.mem.wf = true ∧
    Admitted State.reset 4#32 0x1000#64 0#32 0x1004#64 := ⟨by decide, rfl, by decide, admitted_adjacent.1⟩

theorem witness_CapabilityLevelUnobservable :
    let s := { State.reset with hostTakes := false }
    s.Quiet ∧ s.phase = .idle ∧ s.mem.wf = true ∧ s.hostTakes = false ∧
      Admitted s 3#32 0x1000#64 4#32 0x2000#64 ∧
      SameButCap s.config.regs (standardConfiguration 2#2 (by decide)).regs :=
  ⟨by decide, rfl, by decide, rfl, ⟨admitted_reset.source, admitted_reset.destination, admitted_reset.disjoint,
    admitted_reset.readable, admitted_reset.writable⟩, rfl⟩

/-- Two states that differ in memory outside the source and in their registers. -/
theorem witness_SourceDeterminesResult :
    let s1 := { State.reset with hostTakes := false }
    let s2 := { s1 with mem := Memory.write [] 0x3000 0x55#8, value := 7#32 }
    s1.Quiet ∧ s2.Quiet ∧ s1.phase = .idle ∧ s2.phase = .idle ∧ s1.mem.wf = true ∧ s2.mem.wf = true ∧
      s1.hostTakes = false ∧ s2.hostTakes = false ∧ Admitted s1 3#32 0x1000#64 4#32 0x2000#64 ∧
      Admitted s2 3#32 0x1000#64 4#32 0x2000#64 ∧ s1.config = s2.config ∧
      ∀ a, InRegion 0x1000#64 3#32 a → s1.mem.read a = s2.mem.read a := by
  refine ⟨by decide, by decide, rfl, rfl, by decide, by decide, rfl, rfl,
    ⟨admitted_reset.source, admitted_reset.destination, admitted_reset.disjoint, admitted_reset.readable,
      admitted_reset.writable⟩,
    ⟨admitted_reset.source, admitted_reset.destination, admitted_reset.disjoint, admitted_reset.readable,
      admitted_reset.writable⟩, rfl, fun a ha => ?_⟩
  have h : a < 0x3000 := by
    have := ha.2
    simp at this
    omega
  change Memory.unlisted = Memory.read [(0x3000, 0x55#8)] a
  simp [Memory.read, h]

/-- The same for the commands that end at Accept: a `DECLEN` of the three bytes at 0x1000, and an illegal descriptor. -/
theorem witness_SourceDeterminesResult_accept :
    let d : Descriptor := 0x0000000000001000_00000003_00000004#256
    let s1 := { State.reset with offers := [d] }
    let s2 := { s1 with mem := Memory.write [] 0x3000 0x55#8, value := 7#32 }
    decode (.cmd d) = .ok (.declen false 3#32 0x1000#64) ∧ RegionInRange 0x1000#64 3#32 ∧
      readableMem s2.memMap (0x1000#64).toNat (3#32).toNat = true ∧
      (after (step s1) fun t => t.phase) = some .done ∧
      (∀ n base, decode (.cmd 0#256) ≠ .ok (.declen false n base)) ∧
      (after (step { s1 with offers := [0#256] }) fun t => t.phase) = some .done := by
  have unassigned : decode (.cmd 0#256) = .error .unassignedOp := by decide +kernel
  refine ⟨by decide +kernel, by decide, by decide +kernel, by decide +kernel, fun n base h => ?_, by decide +kernel⟩
  rw [unassigned] at h
  cases h

/-- Five bytes with exactly the room needed: `EncodedLength(5) = 8`. -/
theorem witness_RoundTrip :
    let d1 : Descriptor := 0x0000000000002000_00000008_00000000_0000000000001000_00000005_00000011#256
    let d2 : Descriptor := 0x0000000000003000_00000005_00000000_0000000000002000_00000008_00000012#256
    let s := { State.reset with offers := [d1, d2] }
    s.Quiet ∧ s.phase = .idle ∧ s.mem.wf = true ∧ s.hostTakes = true ∧ (5#32).toNat ≤ Config.encMax ∧
      4 * (((5#32).toNat + 2) / 3) ≤ (8#32).toNat ∧ (5#32).toNat ≤ (5#32).toNat ∧
      Admitted s 5#32 0x1000#64 8#32 0x2000#64 ∧
      Admitted s (BitVec.ofNat 32 (4 * (((5#32).toNat + 2) / 3))) 0x2000#64 5#32 0x3000#64 ∧
      encode (.enc true false 5#32 0x1000#64 8#32 0x2000#64) = .cmd d1 ∧
      encode (.dec true false (BitVec.ofNat 32 (4 * (((5#32).toNat + 2) / 3))) 0x2000#64 5#32 0x3000#64) = .cmd d2 ∧
      s.offers = [d1, d2] :=
  ⟨by decide, rfl, by decide, rfl, by decide, by decide, by decide,
    ⟨by decide, by decide, disjoint_of (by decide +kernel), by decide +kernel, by decide +kernel⟩,
    ⟨by decide, by decide, disjoint_of (by decide +kernel), by decide +kernel, by decide +kernel⟩,
    by decide +kernel, by decide +kernel, rfl⟩

/-- P1's split: 16 of 27 bytes first, 36 symbols in all. -/
theorem witness_StreamedEncodeEqualsWhole :
    let d1 : Descriptor := 0x0000000000002000_00000024_00000000_0000000000001000_00000010_00000001#256
    let d2 : Descriptor := 0x0000000000002014_00000010_00000000_000000000000100F_0000000C_00000011#256
    let s := { State.reset with offers := [d1, d2] }
    s.Quiet ∧ s.phase = .idle ∧ s.mem.wf = true ∧ s.hostTakes = true ∧ Admitted s 27#32 0x1000#64 36#32 0x2000#64 ∧
      (16#32).toNat ≤ (27#32).toNat ∧ 4 * (((27#32).toNat + 2) / 3) ≤ (36#32).toNat ∧
      encode (.enc false false 16#32 0x1000#64 36#32 0x2000#64) = .cmd d1 ∧
      encode (.enc true false (27#32 - BitVec.ofNat 32 (3 * ((16#32).toNat / 3)))
        (0x1000#64 + BitVec.ofNat 64 (3 * ((16#32).toNat / 3))) (36#32 - BitVec.ofNat 32 (4 * ((16#32).toNat / 3)))
        (0x2000#64 + BitVec.ofNat 64 (4 * ((16#32).toNat / 3)))) = .cmd d2 ∧ s.offers = [d1, d2] :=
  ⟨by decide, rfl, by decide, rfl,
    ⟨by decide, by decide, disjoint_of (by decide +kernel), by decide +kernel, by decide +kernel⟩,
    by decide, by decide, by decide +kernel, by decide +kernel, rfl⟩

end Sys2Proof.Tests
end

section
/-! SUPPORT. The steps of a transfer in flight, said once for all of them (44_chunk_driver.md R212 to R221): what each
can leave, and what none of them touches. -/

namespace Sys2Proof.Machine

/-! ## What a step of a transfer can leave -/

/-- The phases of a transfer in flight (R30). -/
abbrev State.InFlight (s : State) : Prop :=
  s.phase = .scanning ∨ s.phase = .bulkTransform ∨ s.phase = .tailTransform

theorem inFlight_iff {s : State} : s.InFlight ↔ s.phase ≠ .idle ∧ s.phase ≠ .done := by
  unfold State.InFlight
  cases s.phase <;> simp

/-- The bytes a transform step counts: `r` source bytes read, `w` destination bytes written, in whole groups (R215,
R216, R219, R220). -/
structure Counts (s : State) (r w : Nat) : Prop where
  enc : s.latch.op = opEnc → r % 3 = 0 ∧ w = 4 * (r / 3)
  dec : s.latch.op = opDec → r % 4 = 0 ∧ w ≤ 3 * (r / 4) ∧ (w = 3 * (r / 4) ∨ r = s.remaining)

/-- The source bytes read and the destination bytes written by one vector iteration (R195, R202). -/
abbrev IterationSize (s : State) (r w : Nat) : Prop :=
  s.latch.op = opEnc ∧ r = s.window ∧ w = s.lanes ∨ s.latch.op = opDec ∧ r = s.lanes ∧ w = s.window

/-- Everything a step of a transfer in flight can leave (R212, R214 to R221). -/
inductive TransferStep (s : State) : State → Prop
  /-- Scan has chosen the bulk loop. -/
  | toBulk (hs : s.phase = .scanning) (hc : s.config.regs.cap ≠ 0#2) (hb : bulkOk s = true) :
      TransferStep s { s with phase := .bulkTransform }
  /-- Scan has chosen the tail, or a decode iteration was abandoned (R203). -/
  | toTail (u : Units) (n : Nat) (hs : s.phase = .scanning ∨ s.phase = .bulkTransform) :
      TransferStep s { s with units := u, tick := n, phase := .tailTransform }
  /-- A vector iteration has written `w` bytes. -/
  | iterated (u : Units) (n : Nat) (m : Memory) (r w : Nat) (hs : s.phase = .bulkTransform)
      (hrw : IterationSize s r w)
      (hm : Footprint s m w) :
      TransferStep s (leaveBulkUnlessOk (advance r w { s with units := u, tick := n, mem := m }))
  /-- A scalar group has been written. -/
  | grouped (u : Units) (n : Nat) (m : Memory) (r w : Nat) (hs : s.phase = .tailTransform) (hc : Counts s r w)
      (hr : 3 ≤ r ∧ r ≤ s.remaining) (hw : w ≤ s.room) (hm : Footprint s m w) :
      TransferStep s (advance r w { s with units := u, tick := n, mem := m })
  /-- The final short group of an `ENC` has been written, and the command has ended. -/
  | closed (u : Units) (n : Nat) (m : Memory) (hs : s.phase = .tailTransform) (hop : s.latch.op = opEnc)
      (hr : 1 ≤ s.remaining ∧ s.remaining ≤ 2) (hw : 4 ≤ s.room) (hm : Footprint s m 4) :
      TransferStep s (ended .done u n (advance s.remaining 4 { s with mem := m }))
  /-- The command has ended without a further group. -/
  | stopped (st : Status) (u : Units) (n : Nat) (hs : s.phase = .tailTransform)
      (hop : s.latch.op = opEnc ∨ s.latch.op = opDec) (hdone : st = .done → s.remaining = 0)
      (hinvalid : st = .invalidData → s.latch.op = opDec) (hneed : st = .needMoreData → s.latch.final = false) :
      TransferStep s (ended st u n s)

theorem scan_transferStep {s : State} (hs : s.phase = .scanning) : TransferStep s (scan s) := by
  unfold scan
  split
  · rename_i h; exact .toBulk hs h.1 h.2
  · exact .toTail s.units s.tick (.inl hs)

theorem bulkStep_transferStep {s t : State} (hs : s.phase = .bulkTransform) (h : bulkStep s = .ok t) :
    TransferStep s t := by
  unfold bulkStep at h
  split at h
  · rename_i hop
    obtain ⟨u, n, m, hm, -, rfl⟩ := encBulk_ok h
    exact .iterated u n m _ _ hs (.inl ⟨hop, rfl, rfl⟩) hm
  · split at h
    · rename_i hop
      obtain ⟨u, n, rfl | ⟨m, hm, -, rfl⟩⟩ := decBulk_ok h
      · exact .toTail u n (.inr hs)
      · exact .iterated u n m _ _ hs (.inr ⟨hop, rfl, rfl⟩) hm
    · cases h

theorem encGroup_transferStep {s t : State} (hs : s.phase = .tailTransform) (hop : s.latch.op = opEnc)
    (hr : 3 ≤ s.remaining) (h : encGroup s = .ok t) : TransferStep s t := by
  obtain ⟨u, n, ⟨-, rfl⟩ | ⟨m, hroom, hm, -, rfl⟩⟩ := encGroup_ok h
  · exact .stopped _ u n hs (.inl hop) nofun nofun nofun
  · exact .grouped u n m 3 4 hs ⟨fun _ => ⟨rfl, rfl⟩, fun h => absurd (hop.symm.trans h) (by decide)⟩
      ⟨le_rfl, hr⟩ hroom hm

theorem encTrail_transferStep {s t : State} (hs : s.phase = .tailTransform) (hop : s.latch.op = opEnc)
    (hr : s.remaining < 3) (h : encTrail s = .ok t) : TransferStep s t := by
  obtain ⟨u, n, ⟨h0, rfl⟩ | ⟨-, hf, rfl⟩ | ⟨-, -, -, rfl⟩ | ⟨r, m, hr', -, hroom, hm, -, -, rfl⟩⟩ := encTrail_ok h
  · exact .stopped _ u n hs (.inl hop) (fun _ => h0) nofun nofun
  · exact .stopped _ u n hs (.inl hop) nofun nofun fun _ => hf
  · exact .stopped _ u n hs (.inl hop) nofun nofun nofun
  · obtain rfl : r = s.remaining := by omega
    exact .closed u n m hs hop (by omega) hroom hm

theorem decGroup_transferStep {s t : State} (hs : s.phase = .tailTransform) (hop : s.latch.op = opDec)
    (hr : 4 ≤ s.remaining) (h : decGroup s = .ok t) : TransferStep s t := by
  obtain ⟨-, u, n, rfl | rfl | ⟨k, m, h1, h3, hroom, hk, hm, -, rfl⟩⟩ := decGroup_ok h
  · exact .stopped _ u n hs (.inr hop) nofun (fun _ => hop) nofun
  · exact .stopped _ u n hs (.inr hop) nofun nofun nofun
  · have hlast : isLastGroup s = true → s.remaining = 4 := by simp [isLastGroup]
    refine .grouped u n m 4 k hs ⟨fun h => absurd (hop.symm.trans h) (by decide), fun _ => ⟨rfl, by omega, ?_⟩⟩
      ⟨by decide, hr⟩ hroom hm
    exact hk.imp id fun hl => (hlast hl).symm

theorem decTrail_transferStep {s t : State} (hs : s.phase = .tailTransform) (hop : s.latch.op = opDec)
    (h : decTrail s = .ok t) : TransferStep s t := by
  obtain ⟨u, n, ⟨h0, rfl⟩ | ⟨-, hf, rfl⟩ | ⟨-, -, rfl⟩⟩ := decTrail_ok h
  · exact .stopped _ u n hs (.inr hop) (fun _ => h0) nofun nofun
  · exact .stopped _ u n hs (.inr hop) nofun nofun fun _ => hf
  · exact .stopped _ u n hs (.inr hop) nofun (fun _ => hop) nofun

theorem tailStep_transferStep {s t : State} (hs : s.phase = .tailTransform) (h : tailStep s = .ok t) :
    TransferStep s t := by
  unfold tailStep at h
  split at h
  · rename_i hop
    split at h
    · rename_i hr; exact encGroup_transferStep hs hop hr h
    · rename_i hr; exact encTrail_transferStep hs hop (by omega) h
  · split at h
    · rename_i hop
      split at h
      · rename_i hr; exact decGroup_transferStep hs hop hr h
      · exact decTrail_transferStep hs hop h
    · cases h

/-- Every step of a transfer in flight is one of the list. -/
theorem sequencerStep_transferStep {s t : State} (hs : s.InFlight) (h : sequencerStep s = .next t) :
    TransferStep s t := by
  rcases hs with hs | hs | hs
  · rw [sequencerStep_scanning hs] at h
    injection h with h
    exact h ▸ scan_transferStep hs
  · rw [sequencerStep_bulk hs, outcome_next_iff] at h
    exact bulkStep_transferStep hs h
  · rw [sequencerStep_tail hs, outcome_next_iff] at h
    exact tailStep_transferStep hs h

theorem TransferStep.phase_ne_idle {s t : State} (h : TransferStep s t) : t.phase ≠ .idle := by
  cases h with
  | toBulk | toTail | closed | stopped => nofun
  | iterated u n m r w hs =>
    simp only [leaveBulkUnlessOk_phase, advance_phase, hs]
    split <;> nofun
  | grouped u n m r w hs => simp [hs]

/-! ## What no step of a transfer touches -/

/-- A state that differs from `s` at most in `PHASE`, the progress and result registers, the working registers, the
memory and the counter of free values. -/
structure SameCommand (s t : State) : Prop where
  config : t.config = s.config
  latch : t.latch = s.latch
  memMap : t.memMap = s.memMap
  offers : t.offers = s.offers
  responses : t.responses = s.responses
  hostTakes : t.hostTakes = s.hostTakes
  resetIn : t.resetIn = s.resetIn
  uopSel : t.uopSel = s.uopSel

/-- A step of a transfer keeps the configuration, the latch, the address map and the host's side (R20, R29, R297). -/
theorem TransferStep.sameCommand {s t : State} (h : TransferStep s t) : SameCommand s t := by
  cases h <;> constructor <;> simp [ended]

end Sys2Proof.Machine
end

section
/-! SUPPORT. The invariant of a run, kept step by step (10_state.md R31; 44_chunk_driver.md R213, R214). -/

namespace Sys2Proof.Machine

/-! ## Cursors -/

/-- A cursor that stays below a length does not wrap. -/
theorem toNat_add_ofNat {c l : Len} {r : Nat} (h : c.toNat + r ≤ l.toNat) :
    (c + BitVec.ofNat 32 r).toNat = c.toNat + r := by
  have := l.isLt
  simp only [BitVec.toNat_add, BitVec.toNat_ofNat]
  omega

/-- What the guard of the bulk loop says of what is left of the regions (R213). -/
theorem bulkOk_room {s : State} (h : bulkOk s = true) :
    s.lanes ≤ s.remaining ∧ (s.latch.op = opEnc → s.lanes ≤ s.room) ∧ (s.latch.op = opDec → s.window ≤ s.room) := by
  unfold bulkOk at h
  split at h
  · rename_i hop
    simp only [decide_eq_true_eq] at h
    exact ⟨h.1, fun _ => h.2, fun hd => absurd (hop.symm.trans hd) (by decide)⟩
  · rename_i hne
    split at h
    · simp only [decide_eq_true_eq] at h
      exact ⟨h.1, fun he => absurd he hne, fun _ => h.2⟩
    · cases h

/-- With lanes at all, `L` is 16 or 32 and `N` three quarters of it (R6, R26). -/
theorem lanes_of_cap_ne_zero {s : State} (h : s.config.regs.cap ≠ 0#2) :
    s.lanes = 16 ∧ s.window = 12 ∨ s.lanes = 32 ∧ s.window = 24 := by
  have h3 : s.config.regs.cap ≠ 3#2 := s.config.ok.capLegal
  unfold State.lanes State.window windowOf
  generalize s.config.regs.cap = c at h h3
  revert c
  decide

/-- The groups of a vector iteration are whole. -/
theorem iterated_counts {s : State} {r w : Nat} (hc : s.config.regs.cap ≠ 0#2) (hrw : IterationSize s r w) :
    Counts s r w := by
  have hl := lanes_of_cap_ne_zero hc
  rcases hrw with ⟨hop, rfl, rfl⟩ | ⟨hop, rfl, rfl⟩
  · exact ⟨fun _ => by omega, fun h => absurd (hop.symm.trans h) (by decide)⟩
  · exact ⟨fun h => absurd (hop.symm.trans h) (by decide), fun _ => by omega⟩

/-- The guard of the bulk loop leaves room for the bytes an iteration counts (R213). -/
theorem iterated_bounds {s : State} {r w : Nat} (hc : s.config.regs.cap ≠ 0#2) (hb : bulkOk s = true)
    (hrw : IterationSize s r w) :
    3 ≤ r ∧ r ≤ s.remaining ∧ w ≤ s.room := by
  have hl := lanes_of_cap_ne_zero hc
  obtain ⟨hr, he, hd⟩ := bulkOk_room hb
  rcases hrw with ⟨hop, rfl, rfl⟩ | ⟨hop, rfl, rfl⟩
  · have := he hop; omega
  · have := hd hop; omega

/-! ## A transfer stays one -/

theorem Admitted.of_memMap_eq {s t : State} {srcLen dstCap : Len} {srcBase dstBase : Addr}
    (h : Admitted s srcLen srcBase dstCap dstBase) (hm : t.memMap = s.memMap) :
    Admitted t srcLen srcBase dstCap dstBase :=
  { h with readable := hm ▸ h.readable, writable := hm ▸ h.writable }

/-- Choosing a phase keeps what holds of a transfer, if the guard of the bulk loop holds where it is chosen. -/
theorem TransferInv.with_phase {s : State} (h : TransferInv s) (u : Units) (n : Nat) {p : Phase} (hp : p ≠ .scanning)
    (hb : p = .bulkTransform → s.config.regs.cap ≠ 0#2 ∧ bulkOk s = true) :
    TransferInv { s with units := u, tick := n, phase := p } :=
  { h with
    admitted := h.admitted.of_memMap_eq rfl
    scanStart := fun e => absurd e hp
    bulkReady := hb }

/-- Whole groups counted keep what holds of a transfer (R31). -/
theorem TransferInv.after_advance {s : State} (h : TransferInv s) {r w : Nat} (hc : Counts s r w) (hr : r ≤ s.remaining)
    (hw : w ≤ s.room) (u : Units) (n : Nat) (m : Memory) {p : Phase} (hp : p ≠ .scanning)
    (hb : p = .bulkTransform → s.config.regs.cap ≠ 0#2 ∧
      bulkOk (advance r w { s with units := u, tick := n, mem := m }) = true) :
    TransferInv { advance r w { s with units := u, tick := n, mem := m } with phase := p } := by
  obtain ⟨transfer, admitted, hcb, hwb, henc, hdec, -, -⟩ := h
  unfold State.remaining at hr
  unfold State.room at hw
  have hct := toNat_add_ofNat (show s.consumed.toNat + r ≤ s.latch.srcLen.toNat by omega)
  have hwt := toNat_add_ofNat (show s.written.toNat + w ≤ s.latch.dstCap.toNat by omega)
  constructor
  case transfer => exact transfer
  case admitted => exact admitted.of_memMap_eq rfl
  case consumedBound => simp only [advance_consumed, advance_latch, hct]; omega
  case writtenBound => simp only [advance_written, advance_latch, hwt]; omega
  case encCursors =>
    intro hop
    have := henc hop
    have := hc.enc hop
    simp only [advance_consumed, advance_written, hct, hwt]
    omega
  case decCursors =>
    intro hop
    have := hdec hop
    have := hc.dec hop
    simp only [State.remaining] at this
    simp only [advance_consumed, advance_written, advance_latch, hct, hwt]
    omega
  case scanStart => exact fun e => absurd e hp
  case bulkReady => exact hb

/-- A finished iteration keeps what holds of a transfer, in whichever phase it leaves (R215, R219). -/
theorem TransferInv.after_leaveBulkUnlessOk {s : State} (h : TransferInv s) (hs : s.phase = .bulkTransform) {r w : Nat}
    (hrw : IterationSize s r w) (u : Units) (n : Nat) (m : Memory) :
    TransferInv (leaveBulkUnlessOk (advance r w { s with units := u, tick := n, mem := m })) := by
  obtain ⟨hcap, hok⟩ := h.bulkReady hs
  have hc := iterated_counts hcap hrw
  obtain ⟨-, hr, hw⟩ := iterated_bounds hcap hok hrw
  unfold leaveBulkUnlessOk
  split
  · rename_i hb
    have := h.after_advance hc hr hw u n m (p := s.phase) (by simp [hs]) fun _ => ⟨hcap, hb⟩
    exact this
  · exact h.after_advance hc hr hw u n m (p := .tailTransform) nofun nofun

/-! ## A transfer that ends -/

/-- A command that ends without a further group has the registers of an ended command (R214, R217, R220, R221). -/
theorem TransferInv.resultInv_ended {s : State} (h : TransferInv s) {st : Status} (hdone : st = .done → s.remaining = 0)
    (u : Units) (n : Nat) : ResultInv (ended st u n s) where
  faultKnown := Nat.zero_le 3
  faultClean e := absurd rfl e
  consumedBound := h.consumedBound
  writtenBound := h.writtenBound
  encCursors hop := by
    have := h.encCursors hop
    simp only [ended]
    omega
  decCursors hop := by
    have := h.decCursors hop
    simp only [ended]
    omega
  transferValue _ := rfl
  doneConsumesAll _ _ hst := by
    have := hdone hst
    have := h.consumedBound
    unfold State.remaining at *
    apply BitVec.eq_of_toNat_eq
    simp only [ended]
    omega

/-- An `ENC` that ends with a short group has the registers of an ended command (R217). -/
theorem TransferInv.resultInv_closed {s : State} (h : TransferInv s) (hop : s.latch.op = opEnc)
    (hr : 1 ≤ s.remaining ∧ s.remaining ≤ 2) (hw : 4 ≤ s.room) (u : Units) (n : Nat) (m : Memory) :
    ResultInv (ended .done u n (advance s.remaining 4 { s with mem := m })) := by
  have henc := h.encCursors hop
  have hcb := h.consumedBound
  have hct := toNat_add_ofNat (c := s.consumed) (l := s.latch.srcLen) (r := s.remaining)
    (by unfold State.remaining at *; omega)
  have hwt := toNat_add_ofNat (c := s.written) (l := s.latch.dstCap) (r := 4) (by unfold State.room at hw; omega)
  have hne : s.latch.op ≠ opDec := fun e => absurd (hop.symm.trans e) (by decide)
  have hall : s.consumed.toNat + s.remaining = s.latch.srcLen.toNat := by unfold State.remaining; omega
  constructor
  case faultKnown => exact Nat.zero_le 3
  case faultClean => exact fun e => absurd rfl e
  case consumedBound => simp only [ended, advance_consumed, advance_latch, hct]; omega
  case writtenBound =>
    simp only [ended, advance_written, advance_latch, hwt]
    unfold State.room at hw
    omega
  case encCursors =>
    intro _
    simp only [ended, advance_consumed, advance_written, hct, hwt]
    omega
  case decCursors => exact fun e => absurd e hne
  case transferValue => exact fun _ => rfl
  case doneConsumesAll =>
    intro _ _ _
    apply BitVec.eq_of_toNat_eq
    simp only [ended, advance_consumed, advance_latch, hct]
    omega

/-! ## The invariant, step by step -/

theorem State.Inv.of_inFlight {t : State} (hu : t.uopSel = none) (hm : t.mem.wf = true) (hp : t.phase ≠ .done)
    (h : TransferInv t) : t.Inv := ⟨hu, hm, fun _ => h, fun e => absurd e hp⟩

theorem State.Inv.of_done {t : State} (hu : t.uopSel = none) (hm : t.mem.wf = true) (hp : t.phase = .done)
    (h : ResultInv t) : t.Inv := ⟨hu, hm, fun e => absurd hp (inFlight_iff.1 e).2, fun _ => h⟩

theorem State.Inv.of_idle {t : State} (hu : t.uopSel = none) (hm : t.mem.wf = true) (hp : t.phase = .idle) : t.Inv :=
  ⟨hu, hm, fun e => absurd hp (inFlight_iff.1 e).1, fun e => by simp [hp] at e⟩

/-- A step of a transfer in flight keeps the invariant. -/
theorem TransferStep.inv {s t : State} (hi : s.Inv) (h : TransferStep s t) : t.Inv := by
  have hu : t.uopSel = none := h.sameCommand.uopSel.trans hi.selectQuiet
  have hmem := hi.memory
  cases h with
  | toBulk hs hc hb =>
    have ht := hi.inFlight (.inl hs)
    exact .of_inFlight hu hmem nofun (ht.with_phase s.units s.tick nofun fun _ => ⟨hc, hb⟩)
  | toTail u n hs =>
    have ht := hi.inFlight (hs.imp_right .inl)
    exact .of_inFlight hu hmem nofun (ht.with_phase u n nofun nofun)
  | iterated u n m r w hs hrw hm =>
    have ht := hi.inFlight (.inr (.inl hs))
    refine .of_inFlight hu (by simpa using (hm hmem).1) ?_ (ht.after_leaveBulkUnlessOk hs hrw u n m)
    simp only [leaveBulkUnlessOk_phase, advance_phase, hs]
    split <;> nofun
  | grouped u n m r w hs hc hr hw hm =>
    have ht := hi.inFlight (.inr (.inr hs))
    exact .of_inFlight hu (hm hmem).1 (by simp [hs])
      (ht.after_advance hc hr.2 hw u n m (p := s.phase) (by simp [hs]) (by simp [hs]))
  | closed u n m hs hop hr hw hm =>
    have ht := hi.inFlight (.inr (.inr hs))
    exact .of_done hu (hm hmem).1 rfl (ht.resultInv_closed hop hr hw u n m)
  | stopped st u n hs hop hdone hinvalid hneed =>
    have ht := hi.inFlight (.inr (.inr hs))
    exact .of_done hu hmem rfl (ht.resultInv_ended hdone u n)

theorem faultCode_bounds (f : CommandFault) : faultCode f ≠ 0#4 ∧ (faultCode f).toNat ≤ 3 := by
  cases f <;> decide

/-- A command that ends at Accept with a fault has the registers of an ended command (R254). -/
theorem resultInv_fault (l : Latch) (f : CommandFault) (s : State) :
    ResultInv (afterAccept l (faultCode f) 0#32 .done s) where
  faultKnown := (faultCode_bounds f).2
  faultClean _ := ⟨rfl, rfl, rfl, rfl⟩
  consumedBound := Nat.zero_le _
  writtenBound := Nat.zero_le _
  encCursors _ := by simp [afterAccept]
  decCursors _ := ⟨rfl, Nat.zero_le _⟩
  transferValue _ := rfl
  doneConsumesAll _ e _ := absurd e (faultCode_bounds f).1

/-- A length command that ends at Accept has the registers of an ended command (R120, R123). -/
theorem resultInv_length {l : Latch} (hop : l.op = opEnclen ∨ l.op = opDeclen) (v : BitVec 32) (n : Nat) (s : State) :
    ResultInv { afterAccept l 0#4 v .done s with tick := n } := by
  have hne : ¬(l.op = opEnc ∨ l.op = opDec) := by rcases hop with h | h <;> rw [h] <;> decide
  exact {
    faultKnown := Nat.zero_le 3
    faultClean := fun e => absurd rfl e
    consumedBound := Nat.zero_le _
    writtenBound := Nat.zero_le _
    encCursors := fun e => absurd (.inl e) hne
    decCursors := fun e => absurd (.inr e) hne
    transferValue := fun e => absurd e hne
    doneConsumesAll := fun e => absurd e hne }

/-- A transfer that is started has consumed and written nothing (R211). -/
theorem transferInv_started {l : Latch} {s : State} (hop : l.op = opEnc ∨ l.op = opDec)
    (ha : Admitted s l.srcLen l.srcBase l.dstCap l.dstBase) : TransferInv (afterAccept l 0#4 0#32 .scanning s) where
  transfer := hop
  admitted := ha.of_memMap_eq rfl
  consumedBound := Nat.zero_le _
  writtenBound := Nat.zero_le _
  encCursors _ := by simp [afterAccept]
  decCursors _ := by simp [afterAccept]
  scanStart _ := ⟨rfl, rfl⟩
  bulkReady := nofun

/-- Accept keeps the invariant. -/
theorem Accepted.inv {s t : State} (hi : s.Inv) (h : Accepted s t) : t.Inv := by
  rcases h with ⟨l, f, rfl⟩ | ⟨l, v, n, hop, rfl⟩ | ⟨l, hop, ha, rfl⟩
  · exact .of_done hi.selectQuiet hi.memory rfl (resultInv_fault l f s)
  · exact .of_done hi.selectQuiet hi.memory rfl (resultInv_length hop v n s)
  · exact .of_inFlight hi.selectQuiet hi.memory nofun (transferInv_started hop ha)

theorem idleStep_inv {s t : State} (hi : s.Inv) (hp : s.phase = .idle) (h : idleStep s = .next t) : t.Inv := by
  rcases idleStep_ok hp h with ⟨-, rfl⟩ | ⟨d, rest, -, ha⟩
  · exact hi
  · exact ha.inv (s := { s with offers := rest }) (.of_idle hi.selectQuiet hi.memory hp)

theorem doneStep_inv {s : State} (hi : s.Inv) : (doneStep s).Inv := by
  unfold doneStep
  split
  · exact .of_idle hi.selectQuiet hi.memory rfl
  · exact hi

theorem sequencerStep_inv {s t : State} (hi : s.Inv) (h : sequencerStep s = .next t) : t.Inv := by
  by_cases hidle : s.phase = .idle
  · rw [sequencerStep_idle hidle] at h
    exact idleStep_inv hi hidle h
  by_cases hdone : s.phase = .done
  · rw [sequencerStep_done hdone] at h
    injection h with h
    exact h ▸ doneStep_inv hi
  · exact (sequencerStep_transferStep (inFlight_iff.2 ⟨hidle, hdone⟩) h).inv hi

/-- An abandoned command leaves memory in its form (R282). -/
theorem abandon_wf {s : State} (h : s.mem.wf = true) : (abandon s).mem.wf = true := by
  rcases abandon_cases s with he | ⟨bytes, -, -, hw, he⟩
  · rwa [he]
  · rw [he]
    exact Memory.wf_writeBytes h (le_addressSpace_of_writableMem hw)

theorem resetEvent_inv {s : State} (c : WfConfiguration) (hi : s.Inv) : (resetEvent c s).Inv := by
  unfold resetEvent
  split
  · exact .of_idle rfl hi.memory rfl
  · exact .of_idle rfl (abandon_wf (s := { s with resetIn := none }) hi.memory) rfl

end Sys2Proof.Machine

open Sys2Proof Sys2Proof.Machine

/-- Settles O52, by cases on what drives the step: a reset leaves an idle block, and each step of the sequencer keeps
the invariant. -/
theorem invariantKept : Obligations.InvariantKept := by
  intro s t hi h
  cases hr : s.resetIn with
  | some c =>
    rw [step_of_reset hr] at h
    injection h with h
    exact h ▸ resetEvent_inv c hi
  | none =>
    rw [step_of_quiet hr hi.selectQuiet] at h
    exact sequencerStep_inv hi h

/-- Settles O53: the block is idle and its memory lists nothing. -/
theorem resetMeetsInvariant : Obligations.ResetMeetsInvariant := .of_idle rfl rfl rfl

end

section
/-! SUPPORT. What a step never touches: the configuration without a reset (10_state.md R20; 70_reset_and_hazards.md
R281), the block that waits (44_chunk_driver.md R211, R222), and the phases a step goes through (10_state.md R30). -/

namespace Sys2Proof.Machine

/-! ## The configuration -/

/-- The configuration, the address map, the reset request and the select lines of `t` are those of `s`. -/
def SameConfiguration (s t : State) : Prop :=
  t.config = s.config ∧ t.memMap = s.memMap ∧ t.resetIn = s.resetIn ∧ t.uopSel = s.uopSel

theorem SameConfiguration.refl (s : State) : SameConfiguration s s := ⟨rfl, rfl, rfl, rfl⟩

theorem SameCommand.sameConfiguration {s t : State} (h : SameCommand s t) : SameConfiguration s t :=
  ⟨h.config, h.memMap, h.resetIn, h.uopSel⟩

theorem memWrite_sameConfiguration {s t : State} {a : Nat} {bytes : List Byte} (h : memWrite s a bytes = .ok t) :
    SameConfiguration s t := by
  obtain ⟨-, -, rfl⟩ := memWrite_ok h
  exact .refl s

theorem setDecoder_sameConfiguration (r : Option (GroupWord × List Byte)) (s : State) :
    SameConfiguration s (setDecoder r s) := by simp [SameConfiguration]

theorem lcEnclen_sameConfiguration (s : State) : SameConfiguration s (lcEnclen s) := by simp [SameConfiguration]

theorem lcDeclen_sameConfiguration {s t : State} (h : lcDeclen s = .ok t) : SameConfiguration s t := by
  obtain ⟨p, -, rfl⟩ := lcDeclen_ok h
  split <;> exact .refl s

theorem Accepted.sameConfiguration {s t : State} (h : Accepted s t) : SameConfiguration s t := by
  rcases h with ⟨l, f, rfl⟩ | ⟨l, v, n, -, rfl⟩ | ⟨l, -, -, rfl⟩ <;> exact .refl s

/-- Outside `Idle` a command is not taken (R211, R297; log 30). -/
theorem execCommand_of_not_idle {s : State} (hp : s.phase ≠ .idle) {i : Instr} (hi : i.isMicroOp = false) :
    exec i s = .next s := by
  have (l : Latch) (start : State → Host.Outcome State Fault Refusal) : accept l start s = .next s := by
    simp [accept, hp]
  cases i with
  | enc | dec | enclen | declen => exact this _ _
  | _ => cases hi

/-- A micro-operation keeps the configuration (R20). -/
theorem execMicroOp_sameConfiguration {i : Instr} {s t : State} (hi : i.isMicroOp = true) (h : exec i s = .next t) :
    SameConfiguration s t := by
  cases i with
  | enc | dec | enclen | declen => cases hi
  | seGroup | seTail2 | seTail1 | spuShuf | rcuEnc | rcuDec | veSplit6 | vdMerge6 =>
    injection h with h
    subst h
    exact .refl s
  | sdGroup | sdFinal =>
    injection h with h
    subst h
    exact setDecoder_sameConfiguration _ s
  | lcEnclen =>
    injection h with h
    subst h
    exact lcEnclen_sameConfiguration s
  | lcDeclen => exact lcDeclen_sameConfiguration (outcome_next_iff.1 h)
  | veLoad =>
    obtain ⟨v, rfl, -⟩ := veLoad_ok (outcome_next_iff.1 h)
    exact .refl s
  | veStore => exact memWrite_sameConfiguration (outcome_next_iff.1 h)
  | veIter =>
    obtain ⟨u, bytes, -, -, -, rfl⟩ := veIter_ok (outcome_next_iff.1 h)
    exact .refl s
  | vdLoad =>
    obtain rfl := vdLoad_ok (outcome_next_iff.1 h)
    exact .refl s
  | vdStore =>
    obtain ⟨m, rfl, -, -⟩ := storeHalves_ok (outcome_next_iff.1 h)
    exact .refl s
  | vdIter =>
    obtain ⟨u, m, rfl, -⟩ := vdIter_ok (outcome_next_iff.1 h)
    exact .refl s

/-- No instruction, driven by whatever, writes the configuration (R20). -/
theorem exec_sameConfiguration {i : Instr} {s t : State} (h : exec i s = .next t) : SameConfiguration s t := by
  cases hi : i.isMicroOp with
  | true => exact execMicroOp_sameConfiguration hi h
  | false =>
    by_cases hp : s.phase = .idle
    · exact (execCommand_ok hi hp h).sameConfiguration
    · rw [execCommand_of_not_idle hp hi] at h
      injection h with h
      exact h ▸ .refl s

theorem uopStep_sameConfiguration {c : UopCode} {s t : State} (h : uopStep c s = .next t) :
    SameConfiguration { s with uopSel := none } t := by
  unfold uopStep at h
  split at h
  · exact exec_sameConfiguration h
  · cases h

theorem idleStep_sameConfiguration {s t : State} (hp : s.phase = .idle) (h : idleStep s = .next t) :
    SameConfiguration s t := by
  rcases idleStep_ok hp h with ⟨-, rfl⟩ | ⟨d, rest, -, ha⟩
  · exact .refl t
  · exact ha.sameConfiguration

theorem doneStep_sameConfiguration (s : State) : SameConfiguration s (doneStep s) := by
  unfold doneStep
  split <;> exact .refl s

theorem sequencerStep_sameConfiguration {s t : State} (h : sequencerStep s = .next t) : SameConfiguration s t := by
  by_cases hidle : s.phase = .idle
  · rw [sequencerStep_idle hidle] at h
    exact idleStep_sameConfiguration hidle h
  by_cases hdone : s.phase = .done
  · rw [sequencerStep_done hdone] at h
    injection h with h
    exact h ▸ doneStep_sameConfiguration s
  · exact (sequencerStep_transferStep (inFlight_iff.2 ⟨hidle, hdone⟩) h).sameCommand.sameConfiguration

/-! ## The phases -/

/-- Accept leaves `Idle` along one of the two transitions from it (R30). -/
theorem Accepted.phaseMayChange {s t : State} (h : Accepted s t) : phaseMayChange .idle t.phase = true := by
  rcases h with ⟨l, f, rfl⟩ | ⟨l, v, n, -, rfl⟩ | ⟨l, -, -, rfl⟩ <;> rfl

/-- A step of a transfer goes along a transition of R30. -/
theorem TransferStep.phaseTransition {s t : State} (h : TransferStep s t) :
    phaseMayChange s.phase t.phase = true ∨ (t.phase = s.phase ∧ phaseMayStay s.phase = true) := by
  cases h with
  | toBulk hs => exact .inl (by rw [hs]; rfl)
  | toTail u n hs => rcases hs with hs | hs <;> exact .inl (by rw [hs]; rfl)
  | iterated u n m r w hs =>
    simp only [leaveBulkUnlessOk_phase, advance_phase, hs]
    split
    · exact .inr ⟨rfl, rfl⟩
    · exact .inl rfl
  | grouped u n m r w hs => exact .inr ⟨rfl, by rw [hs]; rfl⟩
  | closed u n m hs => exact .inl (by rw [hs]; rfl)
  | stopped st u n hs => exact .inl (by rw [hs]; rfl)

end Sys2Proof.Machine

open Sys2Proof Sys2Proof.Machine

/-- Settles O4, by cases on what drives the step: every instruction and every step of the sequencer keeps the
configuration. -/
theorem onlyResetWritesConfiguration : Obligations.OnlyResetWritesConfiguration := by
  intro s t hr h
  cases hu : s.uopSel with
  | some c =>
    rw [step_of_select hr hu] at h
    obtain ⟨hc, hm, hr', hu'⟩ := uopStep_sameConfiguration h
    exact ⟨hc, hm, hr'.trans hr, hu'⟩
  | none =>
    rw [step_of_quiet hr hu] at h
    obtain ⟨hc, hm, hr', hu'⟩ := sequencerStep_sameConfiguration h
    exact ⟨hc, hm, hr'.trans hr, hu'.trans hu⟩

/-- Settles O5: the state's configuration carries the proof of R28. -/
theorem decodeMapInvertsAlphabet : Obligations.DecodeMapInvertsAlphabet := by
  intro s
  have inverts (i : BitVec 6) : (valueOf s.config.regs (symbolOf s.config.regs i)).toNat = i.toNat := by
    rw [s.config.ok.decmapInverts i, BitVec.toNat_setWidth, Nat.mod_eq_of_lt (by omega)]
  refine ⟨inverts, fun x => ?_, s.config.ok.decmapSentinel _ s.config.ok.padOutside⟩
  by_cases hx : ∀ i : BitVec 6, symbolOf s.config.regs i ≠ x
  · exact .inl (s.config.ok.decmapSentinel x hx)
  · push Not at hx
    obtain ⟨i, rfl⟩ := hx
    have back : (valueOf s.config.regs (symbolOf s.config.regs i)).setWidth 6 = i := by
      apply BitVec.eq_of_toNat_eq
      rw [BitVec.toNat_setWidth, inverts, Nat.mod_eq_of_lt i.isLt]
    exact .inr ⟨by rw [inverts]; exact i.isLt, by rw [back]⟩

/-- Settles O49, by cases on the phase: waiting, Accept, a step of a transfer, Deliver. -/
theorem phaseTransitions : Obligations.PhaseTransitions := by
  refine ⟨⟨rfl, rfl, rfl, rfl, rfl⟩, fun s t ⟨hr, hu⟩ h => ?_⟩
  rw [step_of_quiet hr hu] at h
  by_cases hidle : s.phase = .idle
  · rw [sequencerStep_idle hidle] at h
    rcases idleStep_ok hidle h with ⟨ho, rfl⟩ | ⟨d, rest, -, ha⟩
    · exact .inl ⟨rfl, .inl ⟨hidle, ho⟩⟩
    · exact .inr (.inl (hidle ▸ ha.phaseMayChange))
  by_cases hdone : s.phase = .done
  · rw [sequencerStep_done hdone, doneStep] at h
    injection h with h
    split at h
    · exact .inr (.inl (by rw [← h, hdone]; rfl))
    · rename_i ht
      exact .inl ⟨h.symm, .inr ⟨hdone, by simpa using ht⟩⟩
  · exact .inr (sequencerStep_transferStep (inFlight_iff.2 ⟨hidle, hdone⟩) h).phaseTransition

/-- Settles O12: the two waiting steps, the frame of a step of a transfer and of Deliver, and the meaning of a command
outside `Idle`. -/
theorem waitingChangesNothing : Obligations.WaitingChangesNothing := by
  refine fun s => ⟨fun ⟨hr, hu⟩ hp ho => ?_, fun ⟨hr, hu⟩ hp ht => ?_, fun t ⟨hr, hu⟩ hp h => ?_,
    fun i hp hi => execCommand_of_not_idle hp hi⟩
  · rw [step_of_quiet hr hu, sequencerStep_idle hp]
    simp [idleStep, ho]
  · rw [step_of_quiet hr hu, sequencerStep_done hp]
    simp [doneStep, ht]
  · rw [step_of_quiet hr hu] at h
    by_cases hdone : s.phase = .done
    · rw [sequencerStep_done hdone, doneStep] at h
      injection h with h
      subst h
      exact ⟨by split <;> rfl, fun hne => absurd hdone hne⟩
    · have same := (sequencerStep_transferStep (inFlight_iff.2 ⟨hp, hdone⟩) h).sameCommand
      exact ⟨same.offers, fun _ => same.latch⟩

/-- Settles O1: the tables of the standard configuration, entry by entry. -/
theorem resetIsIdleWithStandardTables : Obligations.ResetIsIdleWithStandardTables := by
  refine ⟨rfl, ?_, ?_, rfl, rfl, rfl, rfl, rfl⟩
  · decide +kernel
  · decide +kernel

end

section
/-! SUPPORT. A transfer in flight goes on to its end: every step has its bytes (20_memory.md R80, R81), and each brings
the end nearer (44_chunk_driver.md R232). -/

namespace Sys2Proof.Machine

/-! ## The bytes a step needs are there -/

theorem TransferInv.sourceHolds {s : State} (h : TransferInv s) {n : Nat} (hn : n ≤ s.remaining) : s.SourceHolds n := by
  have := h.consumedBound
  unfold State.remaining at hn
  unfold State.SourceHolds State.srcAddr
  exact ⟨by rw [insideSource_iff]; omega, readableMem_mono h.admitted.readable (by omega) (by omega)⟩

theorem TransferInv.destinationHolds {s : State} (h : TransferInv s) {n : Nat} (hn : n ≤ s.room) :
    s.DestinationHolds n := by
  have := h.writtenBound
  unfold State.room at hn
  unfold State.DestinationHolds State.dstAddr
  exact ⟨by rw [insideDestination_iff]; omega, writableMem_mono h.admitted.writable (by omega) (by omega)⟩

/-- A computation that does not stop with a fault of the model. -/
def Completes {α : Type} (r : Except Fault α) : Prop := ∃ a, r = .ok a

theorem completes_ok {α : Type} (a : α) : Completes (.ok a : Except Fault α) := ⟨a, rfl⟩

theorem Completes.andThen {α β : Type} {r : Except Fault α} {f : α → Except Fault β} (hr : Completes r)
    (hf : ∀ a, r = .ok a → Completes (f a)) : Completes (Machine.andThen r f) := by
  obtain ⟨a, ha⟩ := hr
  obtain ⟨b, hb⟩ := hf a ha
  exact ⟨b, andThen_ok_iff.2 ⟨a, ha, hb⟩⟩

theorem Completes.andThen_ok {α β : Type} {r : Except Fault α} {f : α → β} (hr : Completes r) :
    Completes (Machine.andThen r fun a => .ok (f a)) := hr.andThen fun a _ => completes_ok (f a)

theorem memRead_completes {s : State} {n : Nat} (h : s.SourceHolds n) : Completes (memRead s s.srcAddr n) :=
  ⟨_, memRead_of_inside h.1 h.2⟩

theorem memWrite_completes {s : State} {a n : Nat} {bytes : List Byte} (hn : bytes.length = n)
    (hi : insideDestination s.latch a n = true) (hw : writableMem s.memMap a n = true) :
    Completes (memWrite s a bytes) := ⟨_, memWrite_of_inside (hn ▸ hi) (hn ▸ hw)⟩

/-- The units between a load and a store move nothing. -/
theorem OnlyUnits.destinationHolds {s t : State} (h : OnlyUnits s t) {n : Nat} (hd : s.DestinationHolds n) :
    t.DestinationHolds n := by
  rw [h]
  exact hd

theorem OnlyUnits.lanes_eq {s t : State} (h : OnlyUnits s t) : t.lanes = s.lanes := by
  rw [h]
  rfl

theorem veStore_completes {s : State} (hd : s.DestinationHolds s.lanes) : Completes (veStore s) :=
  memWrite_completes (length_lanesFrom _ _) hd.1 hd.2

/-- An encode iteration whose bytes are there completes (R195). -/
theorem veIter_completes {s : State} (hs : s.lanes ≠ 0 → s.SourceHolds (s.window + 4))
    (hd : s.DestinationHolds s.lanes) : Completes (veIter s) := by
  refine Completes.andThen (Completes.andThen_ok (loadHalves_of_sourceHolds hs)) fun t ht => veStore_completes ?_
  obtain ⟨v, rfl, -⟩ := veLoad_ok ht
  have hu := (setVe_onlyUnits v s).trans (veChain_onlyUnits (setVe v s))
  rw [hu.lanes_eq]
  exact hu.destinationHolds hd

/-- The halves of a decode store whose bytes lie in the destination complete (R201). -/
theorem storeHalves_completes {s : State} {q : Nat} : ∀ {k : Nat},
    insideDestination s.latch q (12 * k) = true → writableMem s.memMap q (12 * k) = true →
    Completes (storeHalves q k s)
  | 0, _, _ => completes_ok s
  | k + 1, hi, hw => by
    rw [insideDestination_iff] at hi
    have hk : insideDestination s.latch q (12 * k) = true := by rw [insideDestination_iff]; omega
    refine Completes.andThen (storeHalves_completes hk (writableMem_mono hw le_rfl (by omega))) fun t ht => ?_
    obtain ⟨m, rfl, -⟩ := storeHalves_ok ht
    have hi12 : insideDestination s.latch (q + 12 * k) 12 = true := by rw [insideDestination_iff]; omega
    exact memWrite_completes (length_lanesFrom _ _) hi12 (writableMem_mono hw (by omega) (by omega))

/-- The halves of a decode store make up its window (R201). -/
theorem window_eq_halves (s : State) : s.window = 12 * (s.lanes / 16) := by
  rw [window_eq]
  rcases lanes_cases s with h | h | h <;> omega

theorem vdStore_completes {s : State} (hd : s.DestinationHolds s.window) : Completes (vdStore s) := by
  rw [window_eq_halves] at hd
  exact storeHalves_completes hd.1 hd.2

/-- A decode iteration whose bytes are there completes, abandoned or not (R202, R203). -/
theorem vdIter_completes {s : State} (hs : s.SourceHolds s.lanes) (hd : s.DestinationHolds s.window) :
    Completes (vdIter s) := by
  refine Completes.andThen (Completes.andThen_ok (memRead_completes hs)) fun t ht => ?_
  obtain rfl := vdLoad_ok ht
  dsimp only
  split
  · exact completes_ok _
  · generalize s.mem.readBytes s.srcAddr s.lanes = v
    have hu := (((setVd_onlyUnits v s).trans (vdTranslate_onlyUnits _)).trans (vdMerge6_onlyUnits _)).trans
      (vdShuffle_onlyUnits _)
    apply vdStore_completes
    rw [show State.window _ = s.window from congrArg (3 * · / 4) hu.lanes_eq]
    exact hu.destinationHolds hd

/-- A scalar encode step whose bytes are there completes (R216, R217). -/
theorem encodeStep_completes {n : Nat} {unit : State → State} {s : State}
    (hunit : ∀ x : State, ∃ u, unit x = { x with units := u }) (hs : s.SourceHolds n) (hd : s.DestinationHolds 4) :
    Completes (encodeStep n unit s) := by
  refine Completes.andThen (memRead_completes hs) fun bytes _ => Completes.andThen_ok ?_
  obtain ⟨u, hu⟩ := hunit (feedEncoder bytes s)
  rw [hu]
  exact memWrite_completes (n := 4) (by simp) hd.1 hd.2

/-! ## Every step of a transfer completes -/

theorem bulkStep_completes {s : State} (h : TransferInv s) (hs : s.phase = .bulkTransform) :
    Completes (bulkStep s) := by
  obtain ⟨hcap, hok⟩ := h.bulkReady hs
  have hl := lanes_of_cap_ne_zero hcap
  obtain ⟨hr, he, hd⟩ := bulkOk_room hok
  unfold bulkStep
  rcases h.transfer with hop | hop
  · rw [if_pos hop]
    exact (veIter_completes (fun _ => h.sourceHolds (by omega)) (h.destinationHolds (he hop))).andThen_ok
  · rw [if_neg (by rw [hop]; decide), if_pos hop]
    exact (vdIter_completes (h.sourceHolds hr) (h.destinationHolds (hd hop))).andThen_ok

theorem encGroup_completes {s : State} (h : TransferInv s) (hr : 3 ≤ s.remaining) : Completes (encGroup s) := by
  unfold encGroup
  split
  · exact completes_ok _
  · exact (encodeStep_completes seGroup_onlyUnits (h.sourceHolds hr) (h.destinationHolds (by omega))).andThen_ok

theorem encTrail_completes {s : State} (h : TransferInv s) : Completes (encTrail s) := by
  unfold encTrail
  split
  · exact completes_ok _
  split
  · exact completes_ok _
  split
  · exact completes_ok _
  have hd : s.DestinationHolds 4 := h.destinationHolds (by omega)
  split
  · exact (encodeStep_completes seTail2_onlyUnits (h.sourceHolds (by omega)) hd).andThen_ok
  · exact (encodeStep_completes seTail1_onlyUnits (h.sourceHolds (by omega)) hd).andThen_ok

theorem decGroup_completes {s : State} (h : TransferInv s) (hr : 4 ≤ s.remaining) : Completes (decGroup s) := by
  refine Completes.andThen (memRead_completes (h.sourceHolds hr)) fun symbols _ => ?_
  obtain ⟨u, n, hx, hu⟩ := decodeUnit_cases (isLastGroup s) (feedDecoder symbols s)
  dsimp only
  rw [hx]
  split
  · exact completes_ok _
  rename_i hok
  split
  · exact completes_ok _
  rename_i hroom
  obtain ⟨-, hk, -⟩ := hu.resolve_left hok
  have hd : s.DestinationHolds u.sdOut.length := h.destinationHolds (by rw [← hk]; exact Nat.le_of_not_lt hroom)
  exact Completes.andThen_ok (memWrite_completes rfl hd.1 hd.2)

theorem decTrail_completes (s : State) : Completes (decTrail s) := by
  unfold decTrail
  split
  · exact completes_ok _
  · split <;> exact completes_ok _

theorem tailStep_completes {s : State} (h : TransferInv s) : Completes (tailStep s) := by
  unfold tailStep
  rcases h.transfer with hop | hop
  · rw [if_pos hop]
    split
    · rename_i hr; exact encGroup_completes h hr
    · exact encTrail_completes h
  · rw [if_neg (by rw [hop]; decide), if_pos hop]
    split
    · rename_i hr; exact decGroup_completes h hr
    · exact decTrail_completes s

/-- A transfer in flight always has a next step (R80, R232). -/
theorem TransferInv.sequencerStep_next {s : State} (h : TransferInv s) (hp : s.InFlight) :
    ∃ t, sequencerStep s = .next t := by
  rcases hp with hs | hs | hs
  · exact ⟨_, sequencerStep_scanning hs⟩
  · obtain ⟨t, ht⟩ := bulkStep_completes h hs
    exact ⟨t, by rw [sequencerStep_bulk hs, ht]; rfl⟩
  · obtain ⟨t, ht⟩ := tailStep_completes h
    exact ⟨t, by rw [sequencerStep_tail hs, ht]; rfl⟩

/-! ## Each step brings the end nearer -/

/-- A bound on the steps a transfer still takes: one for Scan, one for leaving the bulk loop, one for ending, and one
for every three bytes left (R232). -/
def State.stepsLeft (s : State) : Nat :=
  match s.phase with
  | .scanning => s.remaining / 3 + 3
  | .bulkTransform => s.remaining / 3 + 2
  | .tailTransform => s.remaining / 3 + 1
  | .idle | .done => 0

theorem stepsLeft_scanning {s : State} (h : s.phase = .scanning) : s.stepsLeft = s.remaining / 3 + 3 := by
  simp [State.stepsLeft, h]

theorem stepsLeft_bulk {s : State} (h : s.phase = .bulkTransform) : s.stepsLeft = s.remaining / 3 + 2 := by
  simp [State.stepsLeft, h]

theorem stepsLeft_tail {s : State} (h : s.phase = .tailTransform) : s.stepsLeft = s.remaining / 3 + 1 := by
  simp [State.stepsLeft, h]

theorem stepsLeft_done {s : State} (h : s.phase = .done) : s.stepsLeft = 0 := by
  simp [State.stepsLeft, h]

theorem stepsLeft_pos {s : State} (h : s.InFlight) : 0 < s.stepsLeft := by
  rcases h with h | h | h
  · rw [stepsLeft_scanning h]; omega
  · rw [stepsLeft_bulk h]; omega
  · rw [stepsLeft_tail h]; omega

theorem remaining_advance {s : State} {r : Nat} (w : Nat) (h : r ≤ s.remaining) :
    (advance r w s).remaining = s.remaining - r := by
  by_cases h0 : r = 0
  · subst h0
    simp [State.remaining]
  · have := toNat_add_ofNat (c := s.consumed) (l := s.latch.srcLen) (r := r) (by unfold State.remaining at h; omega)
    simp only [State.remaining, advance_latch, advance_consumed, this]
    omega

/-- Whole groups counted take their share off the bound. -/
theorem remaining_advance_div {s : State} {r : Nat} (w : Nat) (h3 : 3 ≤ r) (h : r ≤ s.remaining) :
    (advance r w s).remaining / 3 < s.remaining / 3 := by
  rw [remaining_advance w h]
  omega

theorem TransferStep.stepsLeft_lt {s t : State} (hi : TransferInv s) (h : TransferStep s t) :
    t.stepsLeft < s.stepsLeft := by
  cases h with
  | toBulk hs =>
    rw [stepsLeft_scanning hs, stepsLeft_bulk rfl]
    exact Nat.lt_succ_self _
  | toTail u n hs =>
    rw [stepsLeft_tail rfl]
    change s.remaining / 3 + 1 < s.stepsLeft
    rcases hs with hs | hs
    · rw [stepsLeft_scanning hs]; omega
    · rw [stepsLeft_bulk hs]; omega
  | iterated u n m r w hs hrw hm =>
    obtain ⟨hcap, hok⟩ := hi.bulkReady hs
    obtain ⟨h3, hr, -⟩ := iterated_bounds hcap hok hrw
    have hlt := remaining_advance_div (s := { s with units := u, tick := n, mem := m }) w h3 hr
    rw [stepsLeft_bulk hs]
    unfold leaveBulkUnlessOk
    split
    · rw [stepsLeft_bulk]
      · exact Nat.add_lt_add_right hlt 2
      · exact hs
    · rw [stepsLeft_tail rfl, with_phase_remaining]
      exact Nat.lt_succ_of_lt (Nat.succ_lt_succ hlt)
  | grouped u n m r w hs hc hr hw hm =>
    have hlt := remaining_advance_div (s := { s with units := u, tick := n, mem := m }) w hr.1 hr.2
    rw [stepsLeft_tail hs, stepsLeft_tail]
    · exact Nat.succ_lt_succ hlt
    · exact hs
  | closed u n m hs | stopped st u n hs =>
    rw [stepsLeft_tail hs, stepsLeft_done rfl]
    exact Nat.succ_pos _

/-! ## Runs -/

theorem runSteps_succ {k : Nat} {s t : State} (h : step s = .next t) : runSteps (k + 1) s = runSteps k t := by
  have hc : Sys2Proof.core.step s = .next t := h
  simp only [runSteps, Host.Core.run, hc]
  rfl

end Sys2Proof.Machine
end

section
/-! SUPPORT. Two states in lockstep: what a command does is a function of the configuration, the latch and the source's
bytes (10_state.md R37). -/

namespace Sys2Proof.Machine

/-! ## States alike for the command in flight -/

/-- Two states agree on the configuration, the latch, the phase, the progress and result registers, the source's bytes,
and the destination's bytes up to `n` beyond `WRITTEN`; whatever else they hold (R37). -/
structure Alike (n : Nat) (s t : State) : Prop where
  config : s.config = t.config
  latch : s.latch = t.latch
  phase : s.phase = t.phase
  response : SameResponse s t
  memory : s.mem.wf = true ∧ t.mem.wf = true
  disjoint : RegionsDisjoint s.latch.srcBase s.latch.srcLen s.latch.dstBase s.latch.dstCap
  readable : readableMem t.memMap s.latch.srcBase.toNat s.latch.srcLen.toNat = true
  writable : writableMem t.memMap s.latch.dstBase.toNat s.latch.dstCap.toNat = true
  source : ∀ a, InRegion s.latch.srcBase s.latch.srcLen a → s.mem.read a = t.mem.read a
  output : ∀ j < s.written.toNat + n, s.mem.read (s.latch.dstBase.toNat + j) = t.mem.read (s.latch.dstBase.toNat + j)

theorem Alike.mono {n k : Nat} {s t : State} (h : Alike n s t) (hk : k ≤ n) : Alike k s t :=
  { h with output := fun j hj => h.output j (by omega) }

theorem Alike.consumed {n : Nat} {s t : State} (h : Alike n s t) : s.consumed = t.consumed := h.response.2.2.1

theorem Alike.written {n : Nat} {s t : State} (h : Alike n s t) : s.written = t.written := h.response.2.2.2.1

theorem Alike.lanes {n : Nat} {s t : State} (h : Alike n s t) : s.lanes = t.lanes := by
  simp only [State.lanes, h.config]

theorem Alike.window {n : Nat} {s t : State} (h : Alike n s t) : s.window = t.window := by
  simp only [State.window, h.config]

theorem Alike.srcAddr {n : Nat} {s t : State} (h : Alike n s t) : s.srcAddr = t.srcAddr := by
  simp only [State.srcAddr, h.latch, h.consumed]

theorem Alike.dstAddr {n : Nat} {s t : State} (h : Alike n s t) : s.dstAddr = t.dstAddr := by
  simp only [State.dstAddr, h.latch, h.written]

theorem Alike.remaining {n : Nat} {s t : State} (h : Alike n s t) : s.remaining = t.remaining := by
  simp only [State.remaining, h.latch, h.consumed]

theorem Alike.room {n : Nat} {s t : State} (h : Alike n s t) : s.room = t.room := by
  simp only [State.room, h.latch, h.written]

theorem Alike.bulkOk {n : Nat} {s t : State} (h : Alike n s t) : bulkOk s = bulkOk t := by
  simp only [Machine.bulkOk, h.latch, h.lanes, h.window, h.remaining, h.room]

theorem Alike.isLastGroup {n : Nat} {s t : State} (h : Alike n s t) : isLastGroup s = isLastGroup t := by
  simp only [Machine.isLastGroup, h.latch, h.remaining]

/-! ## Updates that keep states alike -/

/-- The working registers are none of it. -/
theorem Alike.onlyUnits {n : Nat} {s t s' t' : State} (h : Alike n s t) (hs : OnlyUnits s s') (ht : OnlyUnits t t') :
    Alike n s' t' := by
  rw [hs, ht]
  exact { h with }

theorem Alike.with_phase {n : Nat} {s t : State} (h : Alike n s t) (p : Phase) :
    Alike n { s with phase := p } { t with phase := p } := { h with phase := rfl }

theorem Alike.release {n : Nat} {s t : State} (h : Alike n s t) : Alike n (release s) (release t) := { h with }

theorem Alike.finish {n : Nat} {s t : State} (h : Alike n s t) (st : Status) : Alike n (finish st s) (finish st t) :=
  { h with
    phase := rfl
    response := ⟨rfl, rfl, h.consumed, h.written, rfl⟩ }

/-- The bytes written become bytes counted (R32). -/
theorem Alike.advance {w : Nat} {s t : State} (h : Alike w s t) (r : Nat) :
    Alike 0 (advance r w s) (advance r w t) where
  config := h.config
  latch := h.latch
  phase := h.phase
  response := by
    obtain ⟨hst, hf, hc, hw, hv⟩ := h.response
    exact ⟨hst, hf, by simp [hc], by simp [hw], hv⟩
  memory := h.memory
  disjoint := h.disjoint
  readable := h.readable
  writable := h.writable
  source := h.source
  output j hj := h.output j (by
    have := Nat.mod_le (s.written.toNat + w % 2 ^ 32) (2 ^ 32)
    have := Nat.mod_le w (2 ^ 32)
    simp only [advance_written, BitVec.toNat_add, BitVec.toNat_ofNat] at hj
    omega)

theorem Alike.leaveBulkUnlessOk {n : Nat} {s t : State} (h : Alike n s t) :
    Alike n (leaveBulkUnlessOk s) (leaveBulkUnlessOk t) := by
  unfold Machine.leaveBulkUnlessOk
  rw [h.bulkOk]
  split
  · exact h
  · exact h.with_phase _

theorem Alike.scan {n : Nat} {s t : State} (h : Alike n s t) : Alike n (scan s) (scan t) := by
  unfold Machine.scan
  have hcap : s.config.regs.cap = t.config.regs.cap := by rw [h.config]
  rw [h.bulkOk, hcap]
  split <;> exact h.with_phase _

/-! ## Computations in lockstep -/

/-- Whenever the first computation has a result, the second has one that stands to it in the relation `R`. -/
def Lockstep {α β : Type} (R : α → β → Prop) (x : Except Fault α) (y : Except Fault β) : Prop :=
  ∀ a, x = .ok a → ∃ b, y = .ok b ∧ R a b

theorem lockstep_ok {α β : Type} {R : α → β → Prop} {a : α} {b : β} (h : R a b) : Lockstep R (.ok a) (.ok b) := by
  intro a' ha
  injection ha with ha
  exact ⟨b, rfl, ha ▸ h⟩

theorem lockstep_error {α β : Type} {R : α → β → Prop} {e : Fault} {y : Except Fault β} :
    Lockstep R (.error e) y := by
  intro a ha
  cases ha

theorem Lockstep.andThen {α β γ δ : Type} {R : α → β → Prop} {Q : γ → δ → Prop} {x : Except Fault α}
    {y : Except Fault β} {f : α → Except Fault γ} {g : β → Except Fault δ} (h : Lockstep R x y)
    (hfg : ∀ a b, R a b → Lockstep Q (f a) (g b)) : Lockstep Q (andThen x f) (andThen y g) := by
  intro c hc
  obtain ⟨a, ha, hf⟩ := andThen_ok_iff.1 hc
  obtain ⟨b, hb, hab⟩ := h a ha
  obtain ⟨d, hd, hcd⟩ := hfg a b hab c hf
  exact ⟨d, andThen_ok_iff.2 ⟨b, hb, hd⟩, hcd⟩

theorem Lockstep.andThen_ok {α β γ δ : Type} {R : α → β → Prop} {Q : γ → δ → Prop} {x : Except Fault α}
    {y : Except Fault β} {f : α → γ} {g : β → δ} (h : Lockstep R x y) (hfg : ∀ a b, R a b → Q (f a) (g b)) :
    Lockstep Q (Machine.andThen x fun a => .ok (f a)) (Machine.andThen y fun b => .ok (g b)) :=
  h.andThen fun a b hab => lockstep_ok (hfg a b hab)

/-- Memories that agree on a range give the same bytes from it. -/
theorem readBytes_congr {m m' : Memory} {a n : Nat} (h : ∀ i < n, m.read (a + i) = m'.read (a + i)) :
    m.readBytes a n = m'.readBytes a n :=
  List.map_congr_left fun i hi => h i (List.mem_range.1 hi)

/-- A read gives alike states the same `k` bytes (R63). -/
theorem memRead_lockstep {n : Nat} {s t : State} (h : Alike n s t) (a k : Nat) :
    Lockstep (fun v w => v = w ∧ v.length = k) (memRead s a k) (memRead t a k) := by
  intro v hv
  obtain ⟨hi, -, rfl⟩ := memRead_ok hv
  have hi' := insideSource_iff.1 hi
  have hm := readableMem_mono h.readable hi'.1 hi'.2
  refine ⟨_, memRead_of_inside (h.latch ▸ hi) hm, readBytes_congr fun i hik => h.source _ ?_, by simp⟩
  exact ⟨by omega, by omega⟩

/-- A write of the next bytes leaves alike states alike up to its end (R64). -/
theorem memWrite_lockstep {n : Nat} {s t : State} (h : Alike n s t) (bytes : List Byte) :
    Lockstep (fun a b => Alike (n + bytes.length) a b ∧ a.units = s.units ∧ b.units = t.units)
      (memWrite s (s.dstAddr + n) bytes) (memWrite t (t.dstAddr + n) bytes) := by
  intro s' hs'
  obtain ⟨hi, -, -⟩ := memWrite_ok hs'
  have hi' := insideDestination_iff.1 hi
  have hw := writableMem_mono h.writable hi'.1 hi'.2
  obtain ⟨t', ht'⟩ := memWrite_completes (s := t) rfl (h.latch ▸ hi) hw
  have hreads := memWrite_read hs' h.memory.1
  have hreadt := memWrite_read ht' h.memory.2
  have hdst : s.dstAddr = s.latch.dstBase.toNat + s.written.toNat := rfl
  rw [← h.dstAddr]
  refine ⟨t', ht', ?_⟩
  have hwf := And.intro (memWrite_keeps_wf hs' h.memory.1) (memWrite_keeps_wf ht' h.memory.2)
  obtain ⟨-, -, rfl⟩ := memWrite_ok hs'
  obtain ⟨-, -, rfl⟩ := memWrite_ok ht'
  refine ⟨{ h with memory := hwf, source := fun a ha => ?_, output := fun j hj => ?_ }, rfl, rfl⟩
  · have hout : ¬(s.dstAddr + n ≤ a ∧ a < s.dstAddr + n + bytes.length) := fun hin =>
      h.disjoint a ⟨ha, by omega, by omega⟩
    rw [hreads, hreadt, if_neg hout, if_neg hout]
    exact h.source a ha
  · rw [hreads, hreadt]
    split
    · rfl
    · rename_i hout
      change j < s.written.toNat + (n + bytes.length) at hj
      change ¬(_ ≤ s.latch.dstBase.toNat + j ∧ s.latch.dstBase.toNat + j < _) at hout
      exact h.output j (by omega)

/-! ## The vector engines in lockstep -/

theorem loadHalves_lockstep {n : Nat} {s t : State} (h : Alike n s t) (p : Nat) : ∀ k,
    Lockstep (fun v w => v = w) (loadHalves s p k) (loadHalves t p k)
  | 0 => lockstep_ok rfl
  | k + 1 => (loadHalves_lockstep h p k).andThen fun _ _ hfront =>
      (memRead_lockstep h (p + 12 * k) 16).andThen_ok fun _ _ hhalf => by rw [hfront, hhalf.1]

theorem veLoad_lockstep {n : Nat} {s t : State} (h : Alike n s t) :
    Lockstep (fun a b => Alike n a b ∧ a.units.veV = b.units.veV) (veLoad s) (veLoad t) := by
  unfold veLoad
  rw [← h.srcAddr, ← h.lanes]
  exact (loadHalves_lockstep h _ _).andThen_ok fun v w hvw =>
    ⟨h.onlyUnits (setVe_onlyUnits v s) (setVe_onlyUnits w t), hvw⟩

/-- What an encode iteration makes of a loaded vector (R192 to R194). -/
theorem veChain_veV (s : State) : (veTranslate (veSplit6 (veShuffle s))).units.veV =
    lanesFrom s.lanes fun i => encodeLane s.config.regs (lane (lanesFrom s.lanes
      (splitLane (shuffle s.lanes s.units.veV s.config.regs.encShuf))) i) := rfl

theorem veStore_lockstep {s t : State} (h : Alike 0 s t) (hv : s.units.veV = t.units.veV) :
    Lockstep (Alike s.lanes) (veStore s) (veStore t) := by
  have hw := memWrite_lockstep h (lanesFrom s.lanes (lane s.units.veV))
  rw [length_lanesFrom, Nat.zero_add] at hw
  unfold veStore
  rw [← h.lanes, ← hv]
  exact fun a ha => (hw a ha).imp fun b hb => ⟨hb.1, hb.2.1⟩

theorem veIter_lockstep {s t : State} (h : Alike 0 s t) : Lockstep (Alike s.lanes) (veIter s) (veIter t) := by
  intro c hc
  obtain ⟨a, ha, hac⟩ := andThen_ok_iff.1 hc
  obtain ⟨b, hb, hab, hv⟩ := veLoad_lockstep h a ha
  have hl : a.lanes = s.lanes := by
    obtain ⟨v, rfl, -⟩ := veLoad_ok ha
    rfl
  have hch := hab.onlyUnits (veChain_onlyUnits a) (veChain_onlyUnits b)
  obtain ⟨d, hd, hcd⟩ := veStore_lockstep hch (by rw [veChain_veV, veChain_veV, hab.lanes, hab.config, hv]) c hac
  rw [(veChain_onlyUnits a).lanes_eq, hl] at hcd
  exact ⟨d, andThen_ok_iff.2 ⟨b, hb, hd⟩, hcd⟩

/-- Alike with the same lanes in the decode engine, and the same flag. -/
def AlikeVd (n : Nat) (s t : State) : Prop :=
  Alike n s t ∧ s.units.vdV = t.units.vdV ∧ s.units.vdAnybad = t.units.vdAnybad

theorem vdLoad_lockstep {n : Nat} {s t : State} (h : Alike n s t) :
    Lockstep (fun a b => Alike n a b ∧ a.units.vdV = b.units.vdV) (vdLoad s) (vdLoad t) := by
  unfold vdLoad
  rw [← h.srcAddr, ← h.lanes]
  exact (memRead_lockstep h _ _).andThen_ok fun v w hvw =>
    ⟨h.onlyUnits (setVd_onlyUnits v s) (setVd_onlyUnits w t), hvw.1⟩

/-- The translation is a function of the lanes and the configuration (R198). -/
theorem vdTranslate_alike {n : Nat} {s t : State} (h : Alike n s t) (hv : s.units.vdV = t.units.vdV) :
    AlikeVd n (vdTranslate s) (vdTranslate t) := by
  refine ⟨h.onlyUnits (vdTranslate_onlyUnits s) (vdTranslate_onlyUnits t), ?_, ?_⟩
  · change (lanesFrom s.lanes fun i => decodeLane s.config.regs (lane s.units.vdV i)) =
      lanesFrom t.lanes fun i => decodeLane t.config.regs (lane t.units.vdV i)
    rw [h.lanes, h.config, hv]
  · change ((List.range s.lanes).any fun i => badLane s.config.regs (lane s.units.vdV i)) =
      (List.range t.lanes).any fun i => badLane t.config.regs (lane t.units.vdV i)
    rw [h.lanes, h.config, hv]

/-- So are the merge and the shuffle (R199, R200). -/
theorem vdPack_alike {n : Nat} {s t : State} (h : AlikeVd n s t) :
    AlikeVd n (vdShuffle (vdMerge6 s)) (vdShuffle (vdMerge6 t)) := by
  obtain ⟨h, hv, hbad⟩ := h
  have hu (x : State) : OnlyUnits x (vdShuffle (vdMerge6 x)) := (vdMerge6_onlyUnits x).trans (vdShuffle_onlyUnits _)
  refine ⟨h.onlyUnits (hu s) (hu t), ?_, hbad⟩
  change shuffle s.lanes (lanesFrom s.lanes (mergeLane s.units.vdV)) s.config.regs.decShuf =
    shuffle t.lanes (lanesFrom t.lanes (mergeLane t.units.vdV)) t.config.regs.decShuf
  rw [h.lanes, h.config, hv]

theorem storeHalves_lockstep {s t : State} (h : AlikeVd 0 s t) : ∀ k,
    Lockstep (AlikeVd (12 * k)) (storeHalves s.dstAddr k s) (storeHalves t.dstAddr k t)
  | 0 => lockstep_ok h
  | k + 1 => by
    intro c hc
    obtain ⟨a, ha, hac⟩ := andThen_ok_iff.1 hc
    obtain ⟨b, hb, hab, hv, hbad⟩ := storeHalves_lockstep h k a ha
    have hq : a.dstAddr = s.dstAddr := by
      obtain ⟨m, rfl, -⟩ := storeHalves_ok ha
      rfl
    have hq' : b.dstAddr = t.dstAddr := (hab.dstAddr.symm.trans hq).trans h.1.dstAddr
    rw [← hq] at hac
    obtain ⟨d, hd, hcd, hu, hu'⟩ := memWrite_lockstep hab _ c hac
    rw [length_lanesFrom] at hcd
    refine ⟨d, andThen_ok_iff.2 ⟨b, hb, ?_⟩, hcd, by rw [hu, hu', hv], by rw [hu, hu', hbad]⟩
    rw [← hq', ← hv]
    exact hd

theorem vdStore_lockstep {s t : State} (h : AlikeVd 0 s t) :
    Lockstep (AlikeVd s.window) (vdStore s) (vdStore t) := by
  unfold vdStore
  rw [← h.1.lanes, window_eq_halves]
  exact storeHalves_lockstep h _

/-- What a decode iteration leaves of alike states: the same flag and, where it is not set, `n` more bytes alike (R202,
R203). -/
def AlikeIterated (n : Nat) (s t : State) : Prop :=
  Alike 0 s t ∧ s.units.vdAnybad = t.units.vdAnybad ∧ (s.units.vdAnybad = false → Alike n s t)

/-- The end of a decode iteration, abandoned or not. -/
theorem vdFinish_lockstep {s t : State} (h : AlikeVd 0 s t) : Lockstep (AlikeIterated s.window)
    (if s.units.vdAnybad then .ok s else vdStore (vdShuffle (vdMerge6 s)))
    (if t.units.vdAnybad then .ok t else vdStore (vdShuffle (vdMerge6 t))) := by
  rw [← h.2.2]
  split
  · rename_i hbad
    exact lockstep_ok ⟨h.1, h.2.2, fun hgood => by rw [hgood] at hbad; cases hbad⟩
  · intro a ha
    obtain ⟨b, hb, hab, -, hflag⟩ := vdStore_lockstep (vdPack_alike h) a ha
    exact ⟨b, hb, hab.mono (Nat.zero_le _), hflag, fun _ => hab⟩

theorem vdIter_lockstep {s t : State} (h : Alike 0 s t) :
    Lockstep (AlikeIterated s.window) (vdIter s) (vdIter t) := by
  intro c hc
  obtain ⟨a, ha, hac⟩ := andThen_ok_iff.1 hc
  obtain ⟨b, hb, hab, hv⟩ := vdLoad_lockstep h a ha
  obtain ⟨d, hd, hcd⟩ := vdFinish_lockstep (vdTranslate_alike hab hv) c hac
  rw [vdLoad_ok ha] at hcd
  exact ⟨d, andThen_ok_iff.2 ⟨b, hb, hd⟩, hcd⟩

/-! ## The steps of a transfer in lockstep -/

theorem encBulk_lockstep {s t : State} (h : Alike 0 s t) : Lockstep (Alike 0) (encBulk s) (encBulk t) := by
  unfold encBulk
  rw [← h.lanes, ← h.window]
  exact (veIter_lockstep h).andThen_ok fun a b hab => (hab.advance _).leaveBulkUnlessOk.release

theorem decBulk_lockstep {s t : State} (h : Alike 0 s t) : Lockstep (Alike 0) (decBulk s) (decBulk t) := by
  unfold decBulk
  rw [← h.lanes, ← h.window]
  refine (vdIter_lockstep h).andThen_ok fun a b ⟨hab, hbad, hwin⟩ => ?_
  rw [← hbad]
  split
  · exact (hab.with_phase _).release
  · rename_i hgood
    exact ((hwin (by simpa using hgood)).advance _).leaveBulkUnlessOk.release

/-- A scalar encode step, for a unit whose outputs are a function of the bytes fed to it (R216, R217). -/
theorem encodeStep_lockstep {s t : State} (h : Alike 0 s t) {n : Nat} {unit : State → State}
    (hunit : ∀ x : State, ∃ u, unit x = { x with units := u })
    (hout : ∀ bytes : List Byte, bytes.length = n →
      (unit (feedEncoder bytes s)).units.seOut = (unit (feedEncoder bytes t)).units.seOut) :
    Lockstep (Alike 0) (encodeStep n unit s) (encodeStep n unit t) := by
  unfold encodeStep
  rw [← h.srcAddr]
  refine (memRead_lockstep h _ _).andThen fun bytes _ ⟨hb, hlen⟩ => ?_
  subst hb
  dsimp only
  have hu (x : State) : OnlyUnits x (unit (feedEncoder bytes x)) := by
    obtain ⟨u, hu⟩ := hunit (feedEncoder bytes x)
    rw [hu]
    rfl
  have hab := h.onlyUnits (hu s) (hu t)
  rw [← hout bytes hlen]
  refine (memWrite_lockstep hab _).andThen_ok fun a b ⟨hab', _⟩ => ?_
  rw [Vector.length_toList] at hab'
  exact hab'.advance _

theorem encGroup_lockstep {s t : State} (h : Alike 0 s t) : Lockstep (Alike 0) (encGroup s) (encGroup t) := by
  unfold encGroup
  rw [← h.room]
  split
  · exact lockstep_ok (h.finish _).release
  · refine (encodeStep_lockstep h seGroup_onlyUnits fun bytes hlen => ?_).andThen_ok fun a b hab => hab.release
    obtain ⟨b0, b1, b2, rfl⟩ := List.length_eq_three.1 hlen
    change encodeGroup s.config.regs b0 b1 b2 = encodeGroup t.config.regs b0 b1 b2
    rw [h.config]

theorem encTrail_lockstep {s t : State} (h : Alike 0 s t) : Lockstep (Alike 0) (encTrail s) (encTrail t) := by
  unfold encTrail
  rw [← h.room, ← h.remaining, ← h.latch]
  split
  · exact lockstep_ok (h.finish _).release
  split
  · exact lockstep_ok (h.finish _).release
  split
  · exact lockstep_ok (h.finish _).release
  split
  · refine (encodeStep_lockstep h seTail2_onlyUnits fun bytes hlen => ?_).andThen_ok fun a b hab =>
      (hab.finish _).release
    obtain ⟨b0, b1, rfl⟩ := List.length_eq_two.1 hlen
    change encodeTail2 s.config.regs b0 b1 = encodeTail2 t.config.regs b0 b1
    rw [h.config]
  · refine (encodeStep_lockstep h seTail1_onlyUnits fun bytes hlen => ?_).andThen_ok fun a b hab =>
      (hab.finish _).release
    obtain ⟨b0, rfl⟩ := List.length_eq_one_iff.1 hlen
    change encodeTail1 s.config.regs b0 = encodeTail1 t.config.regs b0
    rw [h.config]

/-- The answer of the decoder's unit in step DecGroup: a function of the configuration and the symbols (R220). -/
def decodeAnswer (c : Configuration) (last : Bool) (symbols : List Byte) : Option (GroupWord × List Byte) :=
  if last then decodeFinal c (symbols.getD 0 0#8) (symbols.getD 1 0#8) (symbols.getD 2 0#8) (symbols.getD 3 0#8)
  else decodeGroup c (symbols.getD 0 0#8) (symbols.getD 1 0#8) (symbols.getD 2 0#8) (symbols.getD 3 0#8)

theorem decodeUnit_eq (last : Bool) (symbols : List Byte) (s : State) :
    (if last then sdFinal (feedDecoder symbols s) else sdGroup (feedDecoder symbols s)) =
      setDecoder (decodeAnswer s.config.regs last symbols) (feedDecoder symbols s) := by
  cases last <;> rfl

/-- Step DecGroup after the unit has answered (R220). -/
def decGroupEnd (t : State) : Except Fault State :=
  if t.units.sdOk = false then .ok (release (finish .invalidData t))
  else if t.room < t.units.sdK.toNat then .ok (release (finish .destinationTooSmall t))
  else andThen (memWrite t t.dstAddr t.units.sdOut) fun u => .ok (release (advance 4 t.units.sdK.toNat u))

theorem decGroup_eq (s : State) : decGroup s = andThen (memRead s s.srcAddr 4) fun symbols =>
    decGroupEnd (setDecoder (decodeAnswer s.config.regs (isLastGroup s) symbols) (feedDecoder symbols s)) := by
  simp only [← decodeUnit_eq]
  rfl

/-- Alike with the same answer of the decoder (R144). -/
def AlikeSd (s t : State) : Prop :=
  Alike 0 s t ∧ s.units.sdOk = t.units.sdOk ∧ (s.units.sdOk = true →
    s.units.sdK = t.units.sdK ∧ s.units.sdOut = t.units.sdOut ∧ s.units.sdK.toNat ≤ s.units.sdOut.length)

theorem setDecoder_alike {s t : State} (h : Alike 0 s t) (r : Option (GroupWord × List Byte)) :
    AlikeSd (setDecoder r s) (setDecoder r t) := by
  cases r with
  | none => exact ⟨{ h with }, rfl, nofun⟩
  | some answer =>
    obtain ⟨w, bytes⟩ := answer
    refine ⟨{ h with }, rfl, fun _ => ⟨rfl, rfl, ?_⟩⟩
    change (BitVec.ofNat 2 bytes.length).toNat ≤ bytes.length
    rw [BitVec.toNat_ofNat]
    exact Nat.mod_le _ _

theorem decGroupEnd_lockstep {s t : State} (h : AlikeSd s t) :
    Lockstep (Alike 0) (decGroupEnd s) (decGroupEnd t) := by
  obtain ⟨h, hok, hout⟩ := h
  unfold decGroupEnd
  rw [← hok]
  split
  · exact lockstep_ok (h.finish _).release
  rename_i htrue
  obtain ⟨hk, hbytes, hle⟩ := hout (by simpa using htrue)
  rw [← hk, ← hbytes, ← h.room]
  split
  · exact lockstep_ok (h.finish _).release
  · refine (memWrite_lockstep h s.units.sdOut).andThen_ok fun a b ⟨hab, _⟩ => ?_
    exact ((hab.mono (by omega)).advance _).release

theorem decGroup_lockstep {s t : State} (h : Alike 0 s t) : Lockstep (Alike 0) (decGroup s) (decGroup t) := by
  rw [decGroup_eq, decGroup_eq, ← h.srcAddr, ← h.isLastGroup, ← h.config]
  refine (memRead_lockstep h _ _).andThen fun symbols _ ⟨hb, _⟩ => decGroupEnd_lockstep ?_
  subst hb
  exact setDecoder_alike (h.onlyUnits (OnlyUnits.mk' s _) (OnlyUnits.mk' t _)) _

theorem decTrail_lockstep {s t : State} (h : Alike 0 s t) : Lockstep (Alike 0) (decTrail s) (decTrail t) := by
  unfold decTrail
  rw [← h.remaining, ← h.latch]
  split
  · exact lockstep_ok (h.finish _).release
  · split <;> exact lockstep_ok (h.finish _).release

theorem bulkStep_lockstep {s t : State} (h : Alike 0 s t) : Lockstep (Alike 0) (bulkStep s) (bulkStep t) := by
  unfold bulkStep
  rw [← h.latch]
  split
  · exact encBulk_lockstep h
  · split
    · exact decBulk_lockstep h
    · exact lockstep_error

theorem tailStep_lockstep {s t : State} (h : Alike 0 s t) : Lockstep (Alike 0) (tailStep s) (tailStep t) := by
  unfold tailStep
  rw [← h.latch, ← h.remaining]
  split
  · split
    · exact encGroup_lockstep h
    · exact encTrail_lockstep h
  · split
    · split
      · exact decGroup_lockstep h
      · exact decTrail_lockstep h
    · exact lockstep_error

/-- A step of a transfer in flight leaves alike states alike (R37). -/
theorem sequencerStep_lockstep {s t s' : State} (h : Alike 0 s t) (hp : s.InFlight)
    (hs : sequencerStep s = .next s') : ∃ t', sequencerStep t = .next t' ∧ Alike 0 s' t' := by
  rcases hp with hp | hp | hp
  · rw [sequencerStep_scanning hp] at hs
    injection hs with hs
    exact ⟨_, sequencerStep_scanning (h.phase ▸ hp), hs ▸ h.scan⟩
  · rw [sequencerStep_bulk hp, outcome_next_iff] at hs
    obtain ⟨t', ht, hst⟩ := bulkStep_lockstep h s' hs
    exact ⟨t', by rw [sequencerStep_bulk (h.phase ▸ hp), ht]; rfl, hst⟩
  · rw [sequencerStep_tail hp, outcome_next_iff] at hs
    obtain ⟨t', ht, hst⟩ := tailStep_lockstep h s' hs
    exact ⟨t', by rw [sequencerStep_tail (h.phase ▸ hp), ht]; rfl, hst⟩

/-! ## Runs in lockstep -/

/-- Nothing from outside moves the block, and the host leaves the response where it is. -/
structure State.Undisturbed (s : State) : Prop where
  quiet : s.Quiet
  notTaken : s.hostTakes = false

theorem TransferStep.undisturbed {s t : State} (hu : s.Undisturbed) (h : TransferStep s t) : t.Undisturbed where
  quiet := ⟨h.sameCommand.resetIn.trans hu.quiet.1, h.sameCommand.uopSel.trans hu.quiet.2⟩
  notTaken := h.sameCommand.hostTakes.trans hu.notTaken

/-- An ended command whose response is not taken stays as it is (R222; log 11). -/
theorem step_waiting {s : State} (hu : s.Undisturbed) (hp : s.phase = .done) : step s = .next s := by
  rw [step_of_quiet hu.quiet.1 hu.quiet.2, sequencerStep_done hp, doneStep, hu.notTaken]
  rfl

/-- Enough steps bring a transfer, and any other alike, to the same end (R37, R232). -/
theorem runSteps_lockstep : ∀ (k : Nat) {s t : State}, s.Inv → s.Undisturbed → t.Undisturbed → Alike 0 s t →
    s.phase ≠ .idle → s.stepsLeft ≤ k →
    ∃ s' t', runSteps k s = .next s' ∧ runSteps k t = .next t' ∧ s'.phase = .done ∧ Alike 0 s' t' ∧
      s'.latch = s.latch
  | 0, s, t, _, _, _, h, hidle, hk => by
    have hp : s.phase = .done := by
      by_contra hp
      exact absurd hk (by have := stepsLeft_pos (inFlight_iff.2 ⟨hidle, hp⟩); omega)
    exact ⟨s, t, rfl, rfl, hp, h, rfl⟩
  | k + 1, s, t, hi, hs, ht, h, hidle, hk => by
    by_cases hp : s.phase = .done
    · rw [runSteps_succ (step_waiting hs hp), runSteps_succ (step_waiting ht (h.phase ▸ hp))]
      exact runSteps_lockstep k hi hs ht h hidle (by rw [stepsLeft_done hp]; omega)
    · have hf := inFlight_iff.2 ⟨hidle, hp⟩
      have hinv := hi.inFlight hf
      obtain ⟨s', hs'⟩ := hinv.sequencerStep_next hf
      obtain ⟨t', ht', h'⟩ := sequencerStep_lockstep h hf hs'
      have hstep := sequencerStep_transferStep hf hs'
      have hstep' := sequencerStep_transferStep (inFlight_iff.2 ⟨h.phase ▸ hidle, h.phase ▸ hp⟩) ht'
      rw [← step_of_quiet hs.quiet.1 hs.quiet.2] at hs'
      rw [← step_of_quiet ht.quiet.1 ht.quiet.2] at ht'
      rw [runSteps_succ hs', runSteps_succ ht']
      have hlt := hstep.stepsLeft_lt hinv
      rw [← hstep.sameCommand.latch]
      exact runSteps_lockstep k (hstep.inv hi) (hstep.undisturbed hs) (hstep'.undisturbed ht) h' hstep.phase_ne_idle
        (by omega)

end Sys2Proof.Machine
end

section
/-! SUPPORT. Accept, command by command (44_chunk_driver.md R211): the state a transfer starts in, and what a length
command answers. -/

namespace Sys2Proof.Machine

/-! ## The commands that start a transfer -/

/-- Accept of an `ENC` or `DEC` with its preconditions (R211, R225, R226). -/
theorem accept_transfer {l : Latch} {s : State} (hp : s.phase = .idle) (hop : l.op = opEnc ∨ l.op = opDec)
    (he : l.elem = false) (h : Admitted s l.srcLen l.srcBase l.dstCap l.dstBase) :
    accept l startTransfer s = .next (afterAccept l 0#4 0#32 .scanning s) := by
  have hne : l.op ≠ opEnclen := by rcases hop with h | h <;> rw [h] <;> decide
  have hf : firstFailingCheck l = none := by
    simp [firstFailingCheck, he, hne, regionInRange_iff.2 h.source, regionInRange_iff.2 h.destination]
  have hm : regionsAreMemory (latchCommand l s) = true := by
    simp [regionsAreMemory, h.readable, h.writable]
  have ho : regionsOverlap l = false := regionsOverlap_false_iff.2 h.disjoint
  rw [accept_start hp hf, startTransfer, hm, latchCommand_latch, ho]
  rfl

/-- A transfer that passes its checks is in flight after Accept, not ended (R211). -/
theorem startTransfer_phase {s t : State} (h : startTransfer s = .next t) : t.phase = .scanning := by
  unfold startTransfer at h
  split at h
  · cases h
  · split at h
    · injection h with h
      rw [← h]
    · cases h

/-! ## The length commands -/

/-- `ENCLEN` that passes its check answers the encoded length (R120, R121). -/
theorem startEnclen_eq {n : Len} (s : State)
    (hf : firstFailingCheck ⟨opEnclen, false, false, 0, n, 0, 0⟩ = none) :
    startEnclen (latchCommand ⟨opEnclen, false, false, 0, n, 0, 0⟩ s) =
      .next (afterAccept ⟨opEnclen, false, false, 0, n, 0, 0⟩ 0#4 (BitVec.ofInt 32 (encodedLength n.toNat : Nat)) .done
        s) := by
  have hn : n.toNat ≤ Config.encMax := by
    by_contra hn
    simp [firstFailingCheck, hn] at hf
  simp [startEnclen, lcEnclen, hn, setValue, latchCommand, afterAccept]

/-- `LC.DECLEN` over a readable source (R124, R125). -/
theorem lcDeclen_eq {s : State} (hn : s.latch.srcLen.toNat ≤ Config.lenMax)
    (hm : readableMem s.memMap s.latch.srcBase.toNat s.latch.srcLen.toNat = true) :
    lcDeclen s = .ok (setValue (decodedLength s.latch.srcLen.toNat (paddingCount s.config.regs.pad
      (s.mem.readBytes s.latch.srcBase.toNat s.latch.srcLen.toNat))) s) := by
  rw [lcDeclen, decodedLengthOf, paddingRun_eq hm, andThen_ok, andThen_ok, if_pos hn]

/-- `DECLEN` over readable memory answers the decoded length of its source (R123, R124). -/
theorem startDeclen_eq {n : Len} {base : Addr} {s : State} (hn : n.toNat ≤ Config.lenMax)
    (hm : readableMem s.memMap base.toNat n.toNat = true) :
    startDeclen (latchCommand ⟨opDeclen, false, false, base, n, 0, 0⟩ s) =
      .next (afterAccept ⟨opDeclen, false, false, base, n, 0, 0⟩ 0#4 (BitVec.ofInt 32 (decodedLength n.toNat
        (paddingCount s.config.regs.pad (s.mem.readBytes base.toNat n.toNat)))) .done s) := by
  have hw : writableMem s.memMap 0 0 = true := writableMem_iff.2 ⟨Nat.zero_le _, fun x _ _ => by omega⟩
  have hr : regionsAreMemory (latchCommand ⟨opDeclen, false, false, base, n, 0, 0⟩ s) = true := by
    simp [regionsAreMemory, hm, hw]
  rw [startDeclen, if_pos hr, lcDeclen_eq hn hm]
  rfl

/-- `DECLEN` is answered over readable memory only (R70). -/
theorem readable_of_startDeclen {s t : State} (h : startDeclen s = .next t) :
    readableMem s.memMap s.latch.srcBase.toNat s.latch.srcLen.toNat = true := by
  unfold startDeclen at h
  split at h
  · rename_i hr
    simp only [regionsAreMemory, Bool.and_eq_true] at hr
    exact hr.1
  · cases h

/-- The checks of R97 that a `DECLEN` passes. -/
theorem firstFailingCheck_declen {elem : Bool} {n : Len} {base : Addr}
    (h : firstFailingCheck ⟨opDeclen, false, elem, base, n, 0, 0⟩ = none) :
    elem = false ∧ RegionInRange base n := by
  unfold firstFailingCheck at h
  split at h
  · cases h
  · rename_i he
    rw [if_neg (by decide : opDeclen ≠ opEnclen)] at h
    split at h
    · rename_i hr
      simp only [Bool.and_eq_true, regionInRange_iff] at hr
      exact ⟨by simpa using he, hr.1⟩
    · cases h

/-! ## Commands that end at Accept -/

/-- An outcome that ends the command with the response of `a` (R37, R94). -/
def SameAnswer (o : Host.Outcome State Fault Refusal) (a : State) : Prop :=
  ∃ b, o = .next b ∧ b.phase = .done ∧ SameResponse a b

theorem sameAnswer_afterAccept (l : Latch) (f : BitVec 4) (v : BitVec 32) (s t : State) :
    SameAnswer (.next (afterAccept l f v .done t)) (afterAccept l f v .done s) :=
  ⟨_, rfl, rfl, rfl, rfl, rfl, rfl, rfl⟩

/-- Accept answers alike whatever else two idle states hold, if it does so where every check passes (R37, R97). -/
theorem accept_sameAnswer {l : Latch} {start : State → Host.Outcome State Fault Refusal} {s t a : State}
    (hs : s.phase = .idle) (ht : t.phase = .idle) (h : accept l start s = .next a)
    (hstart : firstFailingCheck l = none → start (latchCommand l s) = .next a →
      SameAnswer (start (latchCommand l t)) a) : SameAnswer (accept l start t) a := by
  cases hf : firstFailingCheck l with
  | some f =>
    rw [accept_fault hs hf] at h
    rw [accept_fault ht hf]
    injection h with h
    exact h ▸ sameAnswer_afterAccept l _ _ s t
  | none =>
    rw [accept_start hs hf] at h
    rw [accept_start ht hf]
    exact hstart hf h

/-- A command that ends at Accept has an answer that depends on the configuration, the command and the source only
(R37). -/
theorem execCommand_sameAnswer {i : Instr} {s t a : State} (hi : i.isMicroOp = false) (hs : s.phase = .idle)
    (ht : t.phase = .idle) (hc : s.config = t.config)
    (hsrc : ∀ n base, i = .declen false n base → RegionInRange base n →
      readableMem t.memMap base.toNat n.toNat = true ∧ ∀ x, InRegion base n x → s.mem.read x = t.mem.read x)
    (h : exec i s = .next a) (ha : a.phase = .done) : SameAnswer (exec i t) a := by
  have transfer (l : Latch) (h : accept l startTransfer s = .next a) : SameAnswer (accept l startTransfer t) a :=
    accept_sameAnswer hs ht h fun _ h => by
      rw [startTransfer_phase h] at ha
      cases ha
  cases i with
  | enc | dec => exact transfer _ h
  | enclen n =>
    refine accept_sameAnswer hs ht h fun hf h => ?_
    rw [startEnclen_eq s hf] at h
    rw [startEnclen_eq t hf]
    injection h with h
    exact h ▸ sameAnswer_afterAccept _ _ _ s t
  | declen elem n base =>
    refine accept_sameAnswer hs ht h fun hf h => ?_
    obtain ⟨rfl, hrange⟩ := firstFailingCheck_declen hf
    obtain ⟨hm, hread⟩ := hsrc n base rfl hrange
    have hbytes : s.mem.readBytes base.toNat n.toNat = t.mem.readBytes base.toNat n.toNat :=
      readBytes_congr fun j hj => hread _ ⟨by omega, by omega⟩
    have hms : readableMem s.memMap base.toNat n.toNat = true := readable_of_startDeclen h
    rw [startDeclen_eq hrange.1 hms, hc, hbytes] at h
    rw [startDeclen_eq hrange.1 hm]
    injection h with h
    exact h ▸ sameAnswer_afterAccept _ _ _ s t
  | _ => cases hi

/-- The same of the step that accepts whatever descriptor is on offer, an illegal one included (R37, R98). -/
theorem step_sameAnswer {d : Descriptor} {rest rest' : List Descriptor} {s t a : State} (hqs : s.Quiet)
    (hqt : t.Quiet) (hs : s.phase = .idle) (ht : t.phase = .idle) (hc : s.config = t.config)
    (hos : s.offers = d :: rest) (hot : t.offers = d :: rest')
    (hsrc : ∀ n base, decode (.cmd d) = .ok (.declen false n base) → RegionInRange base n →
      readableMem t.memMap base.toNat n.toNat = true ∧ ∀ x, InRegion base n x → s.mem.read x = t.mem.read x)
    (h : step s = .next a) (ha : a.phase = .done) : SameAnswer (step t) a := by
  rw [step_of_quiet hqs.1 hqs.2, sequencerStep_idle hs, idleStep, hos] at h
  rw [step_of_quiet hqt.1 hqt.2, sequencerStep_idle ht, idleStep, hot]
  dsimp only at h ⊢
  cases hd : decode (.cmd d) with
  | error e =>
    rw [hd] at h
    injection h with h
    exact h ▸ sameAnswer_afterAccept (latchOfDescriptor d) _ _ _ { t with offers := rest' }
  | ok i =>
    rw [hd] at h
    exact execCommand_sameAnswer (s := { s with offers := rest }) (t := { t with offers := rest' })
      (decode_cmd_isMicroOp hd) hs ht hc (fun n base e => hsrc n base (hd.trans (congrArg _ e))) h ha

/-! ## Transfers that are started -/

/-- The commands `ENC` and `DEC` by one flag: the latch each fills (R90, R211). -/
def transferLatch (decoding final : Bool) (srcLen : Len) (srcBase : Addr) (dstCap : Len) (dstBase : Addr) : Latch :=
  ⟨if decoding then opDec else opEnc, final, false, srcBase, srcLen, dstBase, dstCap⟩

theorem transferLatch_op (decoding final : Bool) (srcLen : Len) (srcBase : Addr) (dstCap : Len) (dstBase : Addr) :
    (transferLatch decoding final srcLen srcBase dstCap dstBase).op = opEnc ∨
    (transferLatch decoding final srcLen srcBase dstCap dstBase).op = opDec := by
  cases decoding
  · exact .inl rfl
  · exact .inr rfl

/-- An admitted `ENC` or `DEC` is in flight after Accept (R211). -/
theorem exec_transfer (decoding final : Bool) {s : State} {srcLen dstCap : Len} {srcBase dstBase : Addr}
    (hp : s.phase = .idle) (h : Admitted s srcLen srcBase dstCap dstBase) :
    exec (if decoding then .dec final false srcLen srcBase dstCap dstBase
      else .enc final false srcLen srcBase dstCap dstBase) s =
      .next (afterAccept (transferLatch decoding final srcLen srcBase dstCap dstBase) 0#4 0#32 .scanning s) := by
  have ha := accept_transfer (l := transferLatch decoding final srcLen srcBase dstCap dstBase) hp
    (transferLatch_op ..) rfl h
  cases decoding <;> exact ha

/-- Two started transfers are alike when configuration, descriptor and source are (R37). -/
theorem alike_started {l : Latch} {s t : State} (hc : s.config = t.config) (hs : s.mem.wf = true)
    (ht : t.mem.wf = true) (h : Admitted t l.srcLen l.srcBase l.dstCap l.dstBase)
    (hread : ∀ a, InRegion l.srcBase l.srcLen a → s.mem.read a = t.mem.read a) :
    Alike 0 (afterAccept l 0#4 0#32 .scanning s) (afterAccept l 0#4 0#32 .scanning t) where
  config := hc
  latch := rfl
  phase := rfl
  response := ⟨rfl, rfl, rfl, rfl, rfl⟩
  memory := ⟨hs, ht⟩
  disjoint := h.disjoint
  readable := h.readable
  writable := h.writable
  source := hread
  output _ hj := absurd hj (Nat.not_lt_zero _)

/-- Two started transfers come to the same end (R37). -/
theorem started_lockstep {l : Latch} {s t : State} (hop : l.op = opEnc ∨ l.op = opDec) (hus : s.Undisturbed)
    (hut : t.Undisturbed) (hc : s.config = t.config) (hs : s.mem.wf = true) (ht : t.mem.wf = true)
    (has : Admitted s l.srcLen l.srcBase l.dstCap l.dstBase) (hat : Admitted t l.srcLen l.srcBase l.dstCap l.dstBase)
    (hread : ∀ a, InRegion l.srcBase l.srcLen a → s.mem.read a = t.mem.read a) :
    ∃ s' t', runSteps (l.srcLen.toNat / 3 + 3) (afterAccept l 0#4 0#32 .scanning s) = .next s' ∧
      runSteps (l.srcLen.toNat / 3 + 3) (afterAccept l 0#4 0#32 .scanning t) = .next t' ∧ s'.phase = .done ∧
      Alike 0 s' t' ∧ s'.latch = l := by
  have hinv : (afterAccept l 0#4 0#32 .scanning s).Inv :=
    .of_inFlight hus.quiet.2 hs nofun (transferInv_started hop has)
  exact runSteps_lockstep _ hinv ⟨hus.quiet, hus.notTaken⟩ ⟨hut.quiet, hut.notTaken⟩
    (alike_started hc hs ht hat hread) nofun (stepsLeft_scanning rfl).le

end Sys2Proof.Machine

open Sys2Proof Sys2Proof.Machine

/-- Settles O58: a command that ends at Accept by cases on the command, a transfer by running both states in
lockstep. -/
theorem sourceDeterminesResult : Obligations.SourceDeterminesResult := by
  intro s t hqs hqt hps hpt hc
  refine ⟨fun d rest rest' a hos hot hsrc h ha => step_sameAnswer hqs hqt hps hpt hc hos hot hsrc h ha,
    fun decoding final srcLen srcBase dstCap dstBase hws hwt hts htt has hat hread => ?_⟩
  obtain ⟨a, b, hrs, hrt, hdone, hab, hl⟩ := started_lockstep
    (transferLatch_op decoding final srcLen srcBase dstCap dstBase) ⟨hqs, hts⟩ ⟨hqt, htt⟩ hc hws hwt has hat hread
  refine ⟨_, _, a, b, exec_transfer decoding final hps has, exec_transfer decoding final hpt hat, hrs, hrt, hdone,
    hab.phase ▸ hdone, hab.response, fun j hj => ?_⟩
  have := hab.output j hj
  rwa [hl] at this

end

section
/-! SUPPORT. The preconditions of a command's regions at Accept (20_memory.md R70, R71; log 7, 8), and that nothing else
stops a step (20_memory.md R80; 44_chunk_driver.md R232). -/

namespace Sys2Proof.Machine

/-! ## The checks that legal operands pass -/

/-- In-range regions and `ELEM = 0` pass the checks of R97, in any command but `ENCLEN`. -/
theorem firstFailingCheck_eq_none {l : Latch} (hop : l.op ≠ opEnclen) (he : l.elem = false)
    (hsrc : RegionInRange l.srcBase l.srcLen) (hdst : RegionInRange l.dstBase l.dstCap) :
    firstFailingCheck l = none := by
  simp [firstFailingCheck, he, hop, regionInRange_iff.2 hsrc, regionInRange_iff.2 hdst]

/-- The empty region a length command leaves in the latch is in range. -/
theorem regionInRange_zero : RegionInRange 0 0 := ⟨Nat.zero_le _, Nat.zero_le _⟩

/-- Accept of a transfer whose operands are legal comes to the preconditions of R71 and R70. -/
theorem accept_transfer_eq {l : Latch} {s : State} (hp : s.phase = .idle) (hop : l.op = opEnc ∨ l.op = opDec)
    (he : l.elem = false) (hsrc : RegionInRange l.srcBase l.srcLen) (hdst : RegionInRange l.dstBase l.dstCap) :
    accept l startTransfer s = startTransfer (latchCommand l s) :=
  accept_start hp (firstFailingCheck_eq_none (by rcases hop with h | h <;> rw [h] <;> decide) he hsrc hdst)

/-- Accept of a `DECLEN` whose operands are legal comes to the precondition of R70. -/
theorem accept_declen_eq {n : Len} {base : Addr} {s : State} (hp : s.phase = .idle) (hsrc : RegionInRange base n) :
    accept ⟨opDeclen, false, false, base, n, 0, 0⟩ startDeclen s =
      startDeclen (latchCommand ⟨opDeclen, false, false, base, n, 0, 0⟩ s) :=
  accept_start hp (firstFailingCheck_eq_none (by decide : opDeclen ≠ opEnclen) rfl hsrc regionInRange_zero)

/-! ## The preconditions -/

/-- A byte in both regions makes them overlap (R71). -/
theorem regionsOverlap_of_shared {l : Latch} {a : Nat} (hs : InRegion l.srcBase l.srcLen a)
    (hd : InRegion l.dstBase l.dstCap a) : regionsOverlap l = true := by
  by_contra h
  exact regionsOverlap_false_iff.1 (Bool.eq_false_iff.2 h) a ⟨hs, hd⟩

theorem startTransfer_refused {s : State} (h : regionsOverlap s.latch = true) :
    startTransfer s = .refused .regionsOverlap := by simp [startTransfer, h]

theorem startTransfer_fault {s : State} (ho : regionsOverlap s.latch = false) (hm : regionsAreMemory s = false) :
    startTransfer s = .fault .regionNotMemory := by simp [startTransfer, ho, hm]

theorem startDeclen_fault {s : State} (hm : regionsAreMemory s = false) :
    startDeclen s = .fault .regionNotMemory := by simp [startDeclen, hm]

/-- A source byte in no readable range of the map: the regions are not memory (R70). -/
theorem regionsAreMemory_of_unreadable {s : State} {a : Nat} (ha : InRegion s.latch.srcBase s.latch.srcLen a)
    (h : ∀ r ∈ s.memMap, r.readable = true → ¬(r.base ≤ a ∧ a < r.base + r.len)) : regionsAreMemory s = false := by
  by_contra hm
  simp only [regionsAreMemory, Bool.not_eq_false, Bool.and_eq_true, readableMem_iff] at hm
  obtain ⟨r, hr, hok, hin⟩ := hm.1.2 a ha.1 ha.2
  exact h r hr hok hin

/-- A destination byte in no writable range of the map: the regions are not memory (R70). -/
theorem regionsAreMemory_of_unwritable {s : State} {a : Nat} (ha : InRegion s.latch.dstBase s.latch.dstCap a)
    (h : ∀ r ∈ s.memMap, r.writable = true → ¬(r.base ≤ a ∧ a < r.base + r.len)) : regionsAreMemory s = false := by
  by_contra hm
  simp only [regionsAreMemory, Bool.not_eq_false, Bool.and_eq_true, writableMem_iff] at hm
  obtain ⟨r, hr, hok, hin⟩ := hm.2.2 a ha.1 ha.2
  exact h r hr hok hin

/-! ## Nothing else stops a step -/

/-- An outcome that is a next state, or one of the two stops of Accept (R70, R71). -/
def StopsOnlyForRegions (o : Host.Outcome State Fault Refusal) : Prop :=
  (∃ t, o = .next t) ∨ o = .refused .regionsOverlap ∨ o = .fault .regionNotMemory

theorem stopsOnlyForRegions_next (t : State) : StopsOnlyForRegions (.next t) := .inl ⟨t, rfl⟩

theorem startTransfer_stopsOnlyForRegions (s : State) : StopsOnlyForRegions (startTransfer s) := by
  unfold startTransfer
  split
  · exact .inr (.inl rfl)
  · split
    · exact stopsOnlyForRegions_next _
    · exact .inr (.inr rfl)

/-- `LC.DECLEN` over a readable source completes (R124). -/
theorem lcDeclen_completes {s : State}
    (hm : readableMem s.memMap s.latch.srcBase.toNat s.latch.srcLen.toNat = true) : Completes (lcDeclen s) :=
  Completes.andThen_ok (Completes.andThen_ok ⟨_, paddingRun_eq hm⟩)

theorem startDeclen_stopsOnlyForRegions (s : State) : StopsOnlyForRegions (startDeclen s) := by
  unfold startDeclen
  split
  · rename_i hm
    simp only [regionsAreMemory, Bool.and_eq_true] at hm
    obtain ⟨t, ht⟩ := lcDeclen_completes hm.1
    rw [ht]
    exact stopsOnlyForRegions_next _
  · exact .inr (.inr rfl)

theorem accept_stopsOnlyForRegions {l : Latch} {start : State → Host.Outcome State Fault Refusal} {s : State}
    (h : StopsOnlyForRegions (start (latchCommand l s))) : StopsOnlyForRegions (accept l start s) := by
  unfold accept
  split
  · split
    · exact stopsOnlyForRegions_next _
    · exact h
  · exact stopsOnlyForRegions_next _

theorem execCommand_stopsOnlyForRegions {i : Instr} (hi : i.isMicroOp = false) (s : State) :
    StopsOnlyForRegions (exec i s) := by
  cases i with
  | enc | dec => exact accept_stopsOnlyForRegions (startTransfer_stopsOnlyForRegions _)
  | enclen => exact accept_stopsOnlyForRegions (stopsOnlyForRegions_next _)
  | declen => exact accept_stopsOnlyForRegions (startDeclen_stopsOnlyForRegions _)
  | _ => cases hi

theorem idleStep_stopsOnlyForRegions (s : State) : StopsOnlyForRegions (idleStep s) := by
  unfold idleStep
  split
  · exact stopsOnlyForRegions_next _
  · split
    · rename_i hd
      exact execCommand_stopsOnlyForRegions (decode_cmd_isMicroOp hd) _
    · exact stopsOnlyForRegions_next _

end Sys2Proof.Machine

open Sys2Proof Sys2Proof.Machine

/-- Settles O18: legal operands bring Accept to the test of R71, which the shared byte fails. -/
theorem overlappingRegionsRefused : Obligations.OverlappingRegionsRefused := by
  intro s final srcLen srcBase dstCap dstBase a hp hsrc hdst has had
  have refused (op : BitVec 4) (hop : op = opEnc ∨ op = opDec) :
      accept ⟨op, final, false, srcBase, srcLen, dstBase, dstCap⟩ startTransfer s = .refused .regionsOverlap := by
    rw [accept_transfer_eq hp hop rfl hsrc hdst]
    exact startTransfer_refused (regionsOverlap_of_shared has had)
  exact ⟨refused opEnc (.inl rfl), refused opDec (.inr rfl)⟩

/-- Settles O19: legal operands with disjoint regions bring Accept to the test of R70, which the inaccessible byte
fails. -/
theorem inaccessibleRegionsStick : Obligations.InaccessibleRegionsStick := by
  intro s final srcLen srcBase dstCap dstBase a hp hsrc hdst hdisj
  have stuck (op : BitVec 4) (hop : op = opEnc ∨ op = opDec)
      (hm : regionsAreMemory (latchCommand ⟨op, final, false, srcBase, srcLen, dstBase, dstCap⟩ s) = false) :
      accept ⟨op, final, false, srcBase, srcLen, dstBase, dstCap⟩ startTransfer s = .fault .regionNotMemory := by
    rw [accept_transfer_eq hp hop rfl hsrc hdst]
    exact startTransfer_fault (regionsOverlap_false_iff.2 hdisj) hm
  refine ⟨fun ha hno => ⟨stuck opEnc (.inl rfl) ?_, stuck opDec (.inr rfl) ?_, ?_⟩,
    fun ha hno => ⟨stuck opEnc (.inl rfl) ?_, stuck opDec (.inr rfl) ?_⟩⟩
  · exact regionsAreMemory_of_unreadable ha hno
  · exact regionsAreMemory_of_unreadable ha hno
  · exact (accept_declen_eq hp hsrc).trans (startDeclen_fault (regionsAreMemory_of_unreadable ha hno))
  · exact regionsAreMemory_of_unwritable ha hno
  · exact regionsAreMemory_of_unwritable ha hno

/-- Settles O54, by the phase: a transfer in flight completes each of its steps, an ended one waits or is delivered, and
Accept stops for its regions only. -/
theorem startedCommandsNeverStop : Obligations.StartedCommandsNeverStop := by
  intro s hi hr
  rw [step_of_quiet hr hi.selectQuiet]
  refine ⟨fun hidle => ?_, fun hidle => ?_⟩
  · by_cases hdone : s.phase = .done
    · exact ⟨_, sequencerStep_done hdone⟩
    · have hf := inFlight_iff.2 ⟨hidle, hdone⟩
      exact (hi.inFlight hf).sequencerStep_next hf
  · rw [sequencerStep_idle hidle]
    exact idleStep_stopsOnlyForRegions s

end

section
/-! SUPPORT. The lanes of the shared vector units under a well-formed configuration (42_vector_units.md R164 to R167): the
range tables say what the alphabet and the decode map say. -/

namespace Sys2Proof.Machine

/-- No entry of `RC_DEC` hits exactly the bytes without a value (R27, R166). -/
theorem rangeCompare_rcDec (c : WfConfiguration) (x : Byte) :
    rangeCompare x c.regs.rcDec = if valueOf c.regs x = sentinel then none else some (valueOf c.regs x) := by
  by_cases hx : ∀ j : Fin 8, entryHits c.regs.rcDec[j] x = false
  · rw [if_pos (c.ok.rcDecOutside x hx)]
    refine firstHit_none fun e he => ?_
    obtain ⟨j, rfl⟩ := mem_toList_iff.1 he
    exact hx j
  · push Not at hx
    obtain ⟨j, hj⟩ := hx
    rw [ne_eq, Bool.not_eq_false] at hj
    have hle := (c.ok.rcDecAgrees x j hj).2
    rw [if_neg fun h => by rw [h] at hle; exact absurd hle (by decide)]
    refine firstHit_eq ⟨_, mem_toList_iff.2 ⟨j, rfl⟩, hj⟩ fun e he hhit => ?_
    obtain ⟨k, rfl⟩ := mem_toList_iff.1 he
    exact (c.ok.rcDecAgrees x k hhit).1

/-- A lane of `RCU.DEC` is the entry of the decode map (R166, R167). -/
theorem decodeLane_eq_valueOf (c : WfConfiguration) (x : Byte) : decodeLane c.regs x = valueOf c.regs x := by
  unfold decodeLane
  rw [rangeCompare_rcDec]
  split_ifs with h
  · exact h.symm
  · rfl

/-- A lane of `RCU.DEC` is bad exactly when its symbol has no value (R166). -/
theorem badLane_iff (c : WfConfiguration) (x : Byte) : badLane c.regs x = true ↔ valueOf c.regs x = sentinel := by
  unfold badLane
  rw [rangeCompare_rcDec]
  split_ifs with h <;> simp [h]

/-- A lane of `RCU.ENC` that holds a 6-bit value is its symbol (R165, R167). -/
theorem encodeLane_eq_symbolOf (c : WfConfiguration) (i : BitVec 6) :
    encodeLane c.regs (i.setWidth 8) = symbolOf c.regs i := by
  obtain ⟨j, hj⟩ := c.ok.rcEncCovers i
  have h : rangeCompare (i.setWidth 8) c.regs.rcEnc = some (symbolOf c.regs i) := by
    refine firstHit_eq ⟨_, mem_toList_iff.2 ⟨j, rfl⟩, hj⟩ fun e he hhit => ?_
    obtain ⟨k, rfl⟩ := mem_toList_iff.1 he
    exact c.ok.rcEncAgrees i k hhit
  unfold encodeLane
  rw [h]

/-- The flag `ANYBAD` after the translation of a loaded vector: a lane's symbol has no value (R198). -/
theorem vdTranslate_vdAnybad (s : State) : (vdTranslate s).units.vdAnybad = true ↔
    ∃ i < s.lanes, valueOf s.config.regs (lane s.units.vdV i) = sentinel := by
  change ((List.range s.lanes).any fun i => badLane s.config.regs (lane s.units.vdV i)) = true ↔ _
  simp only [List.any_eq_true, List.mem_range, badLane_iff]

/-- Lane `i` of a decode load is the byte at `p + i` (R197). -/
theorem lane_readBytes (m : Memory) (a : Nat) {i n : Nat} (h : i < n) : lane (m.readBytes a n) i = m.read (a + i) :=
  Memory.getD_readBytes m a h _

end Sys2Proof.Machine
end

section
/-! SUPPORT. The accesses of the engines that do not lie in their region (20_memory.md R63, R64): no load or store
completes past its region's end, and over regions that are memory the fault is that of the region. -/

namespace Sys2Proof.Machine

theorem OnlyUnits.latch_eq {s t : State} (h : OnlyUnits s t) : t.latch = s.latch := by rw [h]

theorem OnlyUnits.dstAddr_eq {s t : State} (h : OnlyUnits s t) : t.dstAddr = s.dstAddr := by
  rw [h]
  rfl

/-! ## The fault of an access over regions that are memory -/

theorem memRead_error_of_readable {s : State} {a n : Nat} {f : Fault}
    (hm : readableMem s.memMap s.latch.srcBase.toNat s.latch.srcLen.toNat = true) (h : memRead s a n = .error f) :
    f = .readOutsideSource := by
  cases hi : insideSource s.latch a n with
  | false => rw [memRead_outside hi] at h; injection h with h; exact h.symm
  | true =>
    have hin := insideSource_iff.1 hi
    rw [memRead_of_inside hi (readableMem_mono hm hin.1 hin.2)] at h
    cases h

theorem memWrite_error_of_writable {s : State} {a : Nat} {bytes : List Byte} {f : Fault}
    (hm : writableMem s.memMap s.latch.dstBase.toNat s.latch.dstCap.toNat = true)
    (h : memWrite s a bytes = .error f) : f = .writeOutsideDestination := by
  cases hi : insideDestination s.latch a bytes.length with
  | false => rw [memWrite_outside hi] at h; injection h with h; exact h.symm
  | true =>
    have hin := insideDestination_iff.1 hi
    rw [memWrite_of_inside hi (writableMem_mono hm hin.1 hin.2)] at h
    cases h

/-- A chain of computations stops in its first or in its second part. -/
theorem andThen_error_iff {α β : Type} {r : Except Fault α} {f : α → Except Fault β} {e : Fault} :
    andThen r f = .error e ↔ r = .error e ∨ ∃ a, r = .ok a ∧ f a = .error e := by
  cases r <;> simp

theorem loadHalves_error_of_readable {s : State} {p : Nat} {f : Fault}
    (hm : readableMem s.memMap s.latch.srcBase.toNat s.latch.srcLen.toNat = true) :
    ∀ {k : Nat}, loadHalves s p k = .error f → f = .readOutsideSource
  | 0, h => by cases h
  | k + 1, h => by
    rcases andThen_error_iff.1 h with h | ⟨front, -, h⟩
    · exact loadHalves_error_of_readable hm h
    · rcases andThen_error_iff.1 h with h | ⟨half, -, h⟩
      · exact memRead_error_of_readable hm h
      · cases h

theorem storeHalves_error_of_writable {s : State} {q : Nat} {f : Fault}
    (hm : writableMem s.memMap s.latch.dstBase.toNat s.latch.dstCap.toNat = true) :
    ∀ {k : Nat}, storeHalves q k s = .error f → f = .writeOutsideDestination
  | 0, h => by cases h
  | k + 1, h => by
    rcases andThen_error_iff.1 h with h | ⟨t, ht, h⟩
    · exact storeHalves_error_of_writable hm h
    · obtain ⟨m, rfl, -⟩ := storeHalves_ok ht
      exact memWrite_error_of_writable (s := { s with mem := m }) hm h

/-! ## No access completes past the end of its region -/

/-- An encode load that completes has the `N + 4` bytes it reads in the source (R191). -/
theorem veLoad_inside {s t : State} (h : veLoad s = .ok t) (hl : s.lanes ≠ 0) :
    insideSource s.latch s.srcAddr (s.window + 4) = true := by
  obtain ⟨k, hk⟩ : ∃ k, s.lanes / 16 = k + 1 :=
    Nat.exists_eq_add_one.2 (by rcases lanes_cases s with h | h | h <;> omega)
  obtain ⟨v, hv, -⟩ := andThen_ok_iff.1 h
  rw [hk] at hv
  obtain ⟨front, -, hv⟩ := andThen_ok_iff.1 hv
  obtain ⟨half, hhalf, -⟩ := andThen_ok_iff.1 hv
  have hin := insideSource_iff.1 (memRead_ok hhalf).1
  rw [insideSource_iff, window_eq_halves, hk]
  exact ⟨Nat.le_add_right _ _, by omega⟩

/-- An encode load past the source stops (R63). -/
theorem veLoad_outside {s : State} (hl : s.lanes ≠ 0)
    (h : s.latch.srcBase.toNat + s.latch.srcLen.toNat < s.srcAddr + (s.window + 4)) :
    ∃ f, veLoad s = .error f ∧
      (readableMem s.memMap s.latch.srcBase.toNat s.latch.srcLen.toNat = true → f = .readOutsideSource) := by
  cases hv : veLoad s with
  | ok t =>
    have := insideSource_iff.1 (veLoad_inside hv hl)
    omega
  | error f =>
    refine ⟨f, rfl, fun hm => ?_⟩
    rcases andThen_error_iff.1 hv with h | ⟨v, -, h⟩
    · exact loadHalves_error_of_readable hm h
    · cases h

/-- A decode load past the source stops (R63). -/
theorem vdLoad_outside {s : State} (h : s.latch.srcBase.toNat + s.latch.srcLen.toNat < s.srcAddr + s.lanes) :
    vdLoad s = .error .readOutsideSource := by
  have hi : insideSource s.latch s.srcAddr s.lanes = false := by
    rw [← Bool.not_eq_true, insideSource_iff]
    omega
  rw [vdLoad, memRead_outside hi, andThen_error]

/-- An encode store past the destination stops (R64). -/
theorem veStore_outside {s : State} (h : s.latch.dstBase.toNat + s.latch.dstCap.toNat < s.dstAddr + s.lanes) :
    veStore s = .error .writeOutsideDestination := by
  refine memWrite_outside ?_
  rw [length_lanesFrom, ← Bool.not_eq_true, insideDestination_iff]
  omega

/-- An encode iteration comes to its store with the regions and cursors it began with (R195). -/
theorem veIter_outside {s : State} (hs : s.lanes ≠ 0 → s.SourceHolds (s.window + 4))
    (h : s.latch.dstBase.toNat + s.latch.dstCap.toNat < s.dstAddr + s.lanes) :
    veIter s = .error .writeOutsideDestination := by
  obtain ⟨v, hv⟩ := loadHalves_of_sourceHolds hs
  have hu := (setVe_onlyUnits v s).trans (veChain_onlyUnits (setVe v s))
  rw [veIter, veLoad, hv, andThen_ok, andThen_ok]
  refine veStore_outside ?_
  rw [hu.latch_eq, hu.dstAddr_eq, hu.lanes_eq]
  exact h

/-- A decode store past the destination stops (R64). -/
theorem vdStore_outside {s : State} (hl : s.lanes ≠ 0)
    (h : s.latch.dstBase.toNat + s.latch.dstCap.toNat < s.dstAddr + s.window) :
    ∃ f, vdStore s = .error f ∧
      (writableMem s.memMap s.latch.dstBase.toNat s.latch.dstCap.toNat = true → f = .writeOutsideDestination) := by
  cases hv : vdStore s with
  | ok t =>
    obtain ⟨m, -, hin, -⟩ := storeHalves_ok hv
    have := hin (by rcases lanes_cases s with h | h | h <;> omega)
    rw [window_eq_halves] at h
    omega
  | error f => exact ⟨f, rfl, fun hm => storeHalves_error_of_writable hm hv⟩

/-- Whether a decode store stops, and how, does not depend on the working registers (R201). -/
theorem OnlyUnits.vdStore_error {s t : State} (h : OnlyUnits s t) {f : Fault} (hs : vdStore s = .error f) :
    vdStore t = .error f := by
  have hm : t.memMap = s.memMap := by rw [h]
  unfold vdStore at hs ⊢
  rw [h.lanes_eq, h.dstAddr_eq]
  rcases storeHalves_same s.dstAddr h.latch_eq.symm hm.symm (s.lanes / 16) with ⟨g, hgs, hgt⟩ | ⟨m, n, hok, -⟩
  · rw [hgt, ← hgs, hs]
  · rw [hok] at hs
    cases hs

/-- A decode iteration whose symbols all have a value stops as its store would (R202). -/
theorem vdIter_error_of_store {s : State} {f : Fault} (hs : s.SourceHolds s.lanes)
    (hgood : ∀ i < s.lanes, valueOf s.config.regs (s.nextByte i) ≠ sentinel) (h : vdStore s = .error f) :
    vdIter s = .error f := by
  have hload : vdLoad s = .ok (setVd (s.mem.readBytes s.srcAddr s.lanes) s) := by
    rw [vdLoad, memRead_of_inside hs.1 hs.2, andThen_ok]
  have hbad : ¬(vdTranslate (setVd (s.mem.readBytes s.srcAddr s.lanes) s)).units.vdAnybad = true := by
    rw [vdTranslate_vdAnybad]
    rintro ⟨i, hi, hv⟩
    refine hgood i hi ?_
    rw [State.nextByte, ← lane_readBytes s.mem s.srcAddr hi]
    exact hv
  rw [vdIter, hload, andThen_ok]
  dsimp only
  rw [if_neg hbad]
  generalize s.mem.readBytes s.srcAddr s.lanes = v
  exact ((((setVd_onlyUnits v s).trans (vdTranslate_onlyUnits _)).trans (vdMerge6_onlyUnits _)).trans
    (vdShuffle_onlyUnits _)).vdStore_error h

end Sys2Proof.Machine

open Sys2Proof Sys2Proof.Machine

/-- Settles O39, engine by engine: the load that stops stops its iteration too, and an iteration whose load completes
comes to its store with the regions and cursors it began with. -/
theorem accessOutsideRegionStops : Obligations.AccessOutsideRegionStops := by
  refine fun s => ⟨fun h => ?_, fun hl h => ?_, fun h => ?_, fun hl h => ?_⟩
  · have hload := vdLoad_outside h
    exact ⟨outcome_fault_iff.2 hload, outcome_fault_iff.2 (by rw [vdIter, hload, andThen_error])⟩
  · obtain ⟨f, hload, hf⟩ := veLoad_outside hl h
    exact ⟨f, outcome_fault_iff.2 hload, outcome_fault_iff.2 (by rw [veIter, hload, andThen_error]), hf⟩
  · exact ⟨outcome_fault_iff.2 (veStore_outside h), fun hs => outcome_fault_iff.2 (veIter_outside hs h)⟩
  · obtain ⟨f, hstore, hf⟩ := vdStore_outside hl h
    exact ⟨f, outcome_fault_iff.2 hstore,
      fun hs hgood => outcome_fault_iff.2 (vdIter_error_of_store hs hgood hstore), hf⟩

end

section
/-! SUPPORT. The bytes of a vector iteration: those of the scalar groups of its window, one after the other
(43_vector_engines.md R195, R202; 44_chunk_driver.md R225, R226). -/

namespace Sys2Proof.Machine

/-! ## Lists of lanes and of bytes -/

theorem lanesFrom_succ (n : Nat) (f : Nat → Byte) : lanesFrom (n + 1) f = f 0 :: lanesFrom n fun i => f (i + 1) := by
  simp [lanesFrom, List.range_succ_eq_map, Function.comp_def]

theorem lanesFrom_congr {n : Nat} {f g : Nat → Byte} (h : ∀ i < n, f i = g i) : lanesFrom n f = lanesFrom n g :=
  List.map_congr_left fun i hi => h i (List.mem_range.1 hi)

theorem getD_lanesFrom {n i : Nat} (f : Nat → Byte) (h : i < n) (d : Byte) : (lanesFrom n f).getD i d = f i := by
  simp [lanesFrom, List.getD, h]

theorem readBytes_cons (m : Memory) (a n : Nat) : m.readBytes a (n + 1) = m.read a :: m.readBytes (a + 1) n := by
  simp [Memory.readBytes, List.range_succ_eq_map, Function.comp_def, Nat.add_assoc, Nat.add_comm 1]

/-! ## The symbols of whole groups -/

/-- Symbol `j` of the encoding of the bytes from `a` on, in whole groups (R141, R225). -/
def symbolAt (c : Configuration) (m : Memory) (a j : Nat) : Byte :=
  symbolOf c (sixBits (rawWord (m.read (a + 3 * (j / 4))) (m.read (a + 3 * (j / 4) + 1)) (m.read (a + 3 * (j / 4) + 2)))
    (18 - 6 * (j % 4)))

theorem symbolAt_add_four (c : Configuration) (m : Memory) (a j : Nat) :
    symbolAt c m a (j + 4) = symbolAt c m (a + 3) j := by
  have hm : (j + 4) % 4 = j % 4 := Nat.add_mod_right j 4
  have hd : a + 3 * ((j + 4) / 4) = a + 3 + 3 * (j / 4) := by omega
  simp only [symbolAt, hm, hd]

/-- The encoding of whole groups, symbol by symbol (R225). -/
theorem encodeList_readBytes (c : Configuration) (m : Memory) : ∀ (n a : Nat),
    encodeList c (m.readBytes a (3 * n)) = lanesFrom (4 * n) (symbolAt c m a)
  | 0, _ => rfl
  | n + 1, a => by
    have ih := encodeList_readBytes c m n (a + 3)
    simp only [Nat.mul_succ, readBytes_cons, lanesFrom_succ, encodeList, Nat.add_assoc, Nat.reduceAdd,
      symbolAt_add_four, ih]
    rfl

/-- The word of a word lane, as a number (R35). -/
theorem wordLane_toNat (v : List Byte) (g : Nat) : (wordLane v g).toNat = (lane v (4 * g + 3)).toNat * 16777216 +
    (lane v (4 * g + 2)).toNat * 65536 + (lane v (4 * g + 1)).toNat * 256 + (lane v (4 * g)).toNat := by
  have h : (wordLane v g).toNat = (lane v (4 * g + 3) ++ lane v (4 * g + 2) ++ lane v (4 * g + 1) ++ lane v (4 * g)).toNat :=
    rfl
  rw [h, toNat_append_add, toNat_append_add, toNat_append_add]
  omega

/-- The control bytes of `ENC_SHUF`: the three bytes of each group in reverse, then a zero (R25, R192). -/
theorem encShuf_control (c : WfConfiguration) (r : Fin 16) :
    (c.regs.encShuf[r].getLsbD 7 = decide (r.val % 4 = 3)) ∧
    (r.val % 4 ≠ 3 → (c.regs.encShuf[r].extractLsb' 0 4).toNat = 3 * (r.val / 4) + (2 - r.val % 4)) := by
  rw [show c.regs.encShuf = _ from c.ok.encShufFixed]
  revert r
  decide

/-- A lane of the shuffle with `ENC_SHUF`: byte `2 - k` of its group in place `k`, zero in place 3 (R192). -/
theorem lane_shuffle_encShuf (c : WfConfiguration) {n g k : Nat} (v : List Byte) (hk : k < 4) (h : 4 * g + k < n) :
    lane (shuffle n v c.regs.encShuf) (4 * g + k) =
      if k = 3 then 0#8 else lane v (16 * (g / 4) + 3 * (g % 4) + (2 - k)) := by
  obtain ⟨hbit, hsel⟩ := encShuf_control c ⟨(4 * g + k) % 16, Nat.mod_lt _ (by decide)⟩
  simp only [Fin.getElem_fin] at hbit hsel
  rw [lane_shuffle _ _ h, hbit]
  by_cases h3 : k = 3
  · rw [if_pos h3, if_pos (decide_eq_true (by omega))]
  · rw [if_neg h3, if_neg (by rw [decide_eq_true_eq]; omega), hsel (by omega)]
    congr 1
    omega

/-- A 6-bit field of the group word, taken from the low 24 bits of a word lane (R193). -/
theorem splitLane_eq_sixBits {v : List Byte} {j : Nat} {w : GroupWord} (h : (wordLane v (j / 4)).toNat = w.toNat) :
    splitLane v j = (sixBits w (18 - 6 * (j % 4))).setWidth 8 := by
  apply BitVec.eq_of_toNat_eq
  have hand (n : Nat) : n &&& 63 = n % 64 := Nat.and_two_pow_sub_one_eq_mod n 6
  simp only [splitLane, BitVec.toNat_and, BitVec.toNat_setWidth, BitVec.toNat_ushiftRight, h, sixBits_toNat,
    Nat.shiftRight_eq_div_pow, BitVec.toNat_ofNat, Nat.reducePow, Nat.reduceMod, hand]
  omega

/-- The lanes of an encode load stand for the bytes from `p` on: lane `16h + i` is the byte at `p + 12h + i` (R191). -/
def LoadedFrom (m : Memory) (p n : Nat) (v : List Byte) : Prop :=
  ∀ h < n / 16, ∀ i < 16, lane v (16 * h + i) = m.read (p + 12 * h + i)

/-- What an encode iteration makes of a loaded vector: the symbols of the groups of its window (R192 to R194). -/
theorem encodedLanes_eq_symbolAt (c : WfConfiguration) {m : Memory} {p n : Nat} {v : List Byte}
    (hv : LoadedFrom m p n v) {j : Nat} (hn : n = 16 * (n / 16)) (hj : j < n) :
    encodeLane c.regs (splitLane (shuffle n v c.regs.encShuf) j) = symbolAt c.regs m p j := by
  have place (k : Nat) (hk : k < 3) : lane (shuffle n v c.regs.encShuf) (4 * (j / 4) + k) =
      m.read (p + 3 * (j / 4) + (2 - k)) := by
    rw [lane_shuffle_encShuf c v (by omega) (by omega), if_neg (by omega), Nat.add_assoc, hv _ (by omega) _ (by omega)]
    congr 1
    omega
  have top : lane (shuffle n v c.regs.encShuf) (4 * (j / 4) + 3) = 0#8 := by
    rw [lane_shuffle_encShuf c v (by decide) (by omega), if_pos rfl]
  have word : (wordLane (shuffle n v c.regs.encShuf) (j / 4)).toNat = (rawWord (m.read (p + 3 * (j / 4)))
      (m.read (p + 3 * (j / 4) + 1)) (m.read (p + 3 * (j / 4) + 2))).toNat := by
    rw [wordLane_toNat, rawWord_toNat, top, place 2 (by decide), place 1 (by decide),
      show lane _ (4 * (j / 4)) = _ from place 0 (by decide)]
    simp
  rw [splitLane_eq_sixBits word, encodeLane_eq_symbolOf]
  rfl

/-- Everything an encode iteration does: it writes the symbols of its window at `q` (R195). -/
theorem veIter_writes {s t : State} (h : veIter s = .ok t) :
    (s.lanes ≠ 0 → insideSource s.latch s.srcAddr (s.window + 4) = true) ∧
    insideDestination s.latch s.dstAddr s.lanes = true ∧ writableMem s.memMap s.dstAddr s.lanes = true ∧
    ∃ u, t = { s with
      units := u
      mem := s.mem.writeBytes s.dstAddr (lanesFrom s.lanes (symbolAt s.config.regs s.mem s.srcAddr)) } := by
  obtain ⟨a, ha, hs⟩ := andThen_ok_iff.1 h
  have hin := veLoad_inside ha
  obtain ⟨v, rfl, -, hv⟩ := veLoad_ok ha
  have hlanes : lanesFrom s.lanes (lane (veTranslate (veSplit6 (veShuffle (setVe v s)))).units.veV) =
      lanesFrom s.lanes (symbolAt s.config.regs s.mem s.srcAddr) := by
    refine lanesFrom_congr fun j hj => ?_
    rw [veChain_veV]
    simp only [setVe_lanes, setVe_units, setVe_config, lane_lanesFrom _ hj]
    exact encodedLanes_eq_symbolAt s.config hv (by rcases lanes_cases s with h | h | h <;> omega) hj
  have hu := (setVe_onlyUnits v s).trans (veChain_onlyUnits (setVe v s))
  generalize veTranslate (veSplit6 (veShuffle (setVe v s))) = x at hu hs hlanes
  unfold OnlyUnits at hu
  generalize x.units = u at hu hlanes
  subst hu
  obtain ⟨hd, hw, rfl⟩ := veStore_ok hs
  exact ⟨hin, hd, hw, u, by rw [← hlanes]; rfl⟩

/-! ## The bytes of whole groups -/

/-- Byte `j` of the decoding of the symbols from `a` on, in whole groups without padding (R145, R226). -/
def rawByteAt (c : Configuration) (m : Memory) (a j : Nat) : Byte :=
  (valueWord (valueOf c (m.read (a + 4 * (j / 3)))) (valueOf c (m.read (a + 4 * (j / 3) + 1)))
    (valueOf c (m.read (a + 4 * (j / 3) + 2))) (valueOf c (m.read (a + 4 * (j / 3) + 3)))).extractLsb' (16 - 8 * (j % 3)) 8

theorem rawByteAt_add_three (c : Configuration) (m : Memory) (a j : Nat) :
    rawByteAt c m a (j + 3) = rawByteAt c m (a + 4) j := by
  have hm : (j + 3) % 3 = j % 3 := Nat.add_mod_right j 3
  have hd : a + 4 * ((j + 3) / 3) = a + 4 + 4 * (j / 3) := by omega
  simp only [rawByteAt, hm, hd]

/-- One group of a `DEC` in the terms of its loop: what the decoder answers, when it fits, goes before the rest (R226). -/
theorem decodeResult_cons {c : Configuration} {final : Bool} {cap : Nat} {c0 c1 c2 c3 : Byte} {rest : List Byte}
    {w : GroupWord} {bytes : List Byte}
    (h : decodeAnswer c (final && rest.isEmpty) [c0, c1, c2, c3] = some (w, bytes)) (hcap : bytes.length ≤ cap) :
    (decodeResult c final cap (c0 :: c1 :: c2 :: c3 :: rest)).2.2 =
      bytes ++ (decodeResult c final (cap - bytes.length) rest).2.2 := by
  change (if final && rest.isEmpty then decodeFinal c c0 c1 c2 c3 else decodeGroup c c0 c1 c2 c3) = _ at h
  rw [decodeResult, h]
  dsimp only
  rw [if_neg (by omega)]

/-- A symbol with a value is no padding (R23, R24). -/
theorem ne_pad_of_valued {c : WfConfiguration} {x : Byte} (h : valueOf c.regs x ≠ sentinel) : x ≠ c.regs.pad := by
  rintro rfl
  exact h (c.ok.decmapSentinel _ c.ok.padOutside)

/-- Four symbols with values decode to the three bytes of their word, last group or not (R145, R146). -/
theorem decodeAnswer_of_valued {c : WfConfiguration} (last : Bool) {c0 c1 c2 c3 : Byte}
    (h0 : valueOf c.regs c0 ≠ sentinel) (h1 : valueOf c.regs c1 ≠ sentinel) (h2 : valueOf c.regs c2 ≠ sentinel)
    (h3 : valueOf c.regs c3 ≠ sentinel) : decodeAnswer c.regs last [c0, c1, c2, c3] =
      let w := valueWord (valueOf c.regs c0) (valueOf c.regs c1) (valueOf c.regs c2) (valueOf c.regs c3)
      some (w, [wordByte0 w, wordByte1 w, wordByte2 w]) := by
  have hgroup : decodeGroup c.regs c0 c1 c2 c3 = _ := if_neg (by simp [h0, h1, h2, h3])
  cases last with
  | false => exact hgroup
  | true => exact (if_pos (ne_pad_of_valued h3)).trans hgroup

/-- The decoding of whole groups whose symbols all have values, byte by byte (R226). -/
theorem decodeResult_readBytes (c : WfConfiguration) (final : Bool) (m : Memory) : ∀ (n a cap : Nat),
    (∀ i < 4 * n, valueOf c.regs (m.read (a + i)) ≠ sentinel) → 3 * n ≤ cap →
    (decodeResult c.regs final cap (m.readBytes a (4 * n))).2.2 = lanesFrom (3 * n) (rawByteAt c.regs m a)
  | 0, _, _, _, _ => by simp [Memory.readBytes, decodeResult, lanesFrom]
  | n + 1, a, cap, hgood, hcap => by
    have ih := decodeResult_readBytes c final m n (a + 4) (cap - 3)
      (fun i hi => by rw [Nat.add_assoc]; exact hgood (4 + i) (by omega)) (by omega)
    have hans := decodeAnswer_of_valued (c0 := m.read a) (final && (m.readBytes (a + 4) (4 * n)).isEmpty)
      (hgood 0 (by omega)) (hgood 1 (by omega)) (hgood 2 (by omega)) (hgood 3 (by omega))
    simp only [Nat.mul_succ, readBytes_cons, lanesFrom_succ, Nat.add_assoc, Nat.reduceAdd, rawByteAt_add_three]
    rw [decodeResult_cons hans (by simp only [List.length_cons, List.length_nil]; omega)]
    simp only [List.length_cons, List.length_nil, Nat.reduceAdd, ih]
    rfl

/-! ## The lanes of a decode iteration -/

/-- The low 24 bits of the merged word are the scalar decoder's word (R145, R199). -/
theorem mergeWord_setWidth (v : List Byte) (g : Nat) : (mergeWord v g).setWidth 24 =
    valueWord (lane v (4 * g)) (lane v (4 * g + 1)) (lane v (4 * g + 2)) (lane v (4 * g + 3)) := by
  ext i hi
  simp [mergeWord, valueWord]

/-- Byte lane `4g + k` of the merge, `k < 3`: bits `[8k+7:8k]` of the scalar decoder's word (R199). -/
theorem mergeLane_eq (v : List Byte) (g : Nat) {k : Nat} (hk : k < 3) : mergeLane v (4 * g + k) =
    (valueWord (lane v (4 * g)) (lane v (4 * g + 1)) (lane v (4 * g + 2)) (lane v (4 * g + 3))).extractLsb' (8 * k) 8 := by
  have hm : (4 * g + k) % 4 = k := by omega
  have hd : (4 * g + k) / 4 = g := by omega
  rw [mergeLane, hm, hd, if_neg (by omega), ← mergeWord_setWidth, BitVec.extractLsb'_setWidth_of_le (by omega)]

/-- The control bytes of `DEC_SHUF`: the three bytes of each word lane in reverse (R25, R200). -/
theorem decShuf_control (c : WfConfiguration) (r : Fin 16) (hr : r.val < 12) :
    c.regs.decShuf[r].getLsbD 7 = false ∧
    (c.regs.decShuf[r].extractLsb' 0 4).toNat = 4 * (r.val / 3) + (2 - r.val % 3) := by
  rw [show c.regs.decShuf = _ from c.ok.decShufFixed]
  revert r
  decide

/-- A lane of the shuffle with `DEC_SHUF` below lane 12 of its half (R200). -/
theorem lane_shuffle_decShuf (c : WfConfiguration) {n h i : Nat} (v : List Byte) (hi : i < 12) (hn : 16 * h + i < n) :
    lane (shuffle n v c.regs.decShuf) (16 * h + i) = lane v (16 * h + 4 * (i / 3) + (2 - i % 3)) := by
  have hr : (16 * h + i) % 16 = i := by omega
  obtain ⟨hbit, hsel⟩ := decShuf_control c ⟨(16 * h + i) % 16, Nat.mod_lt _ (by decide)⟩
    (show (16 * h + i) % 16 < 12 by omega)
  simp only [Fin.getElem_fin] at hbit hsel
  rw [lane_shuffle _ _ hn, hbit, hsel]
  simp only [Bool.false_eq_true, if_false]
  congr 1
  omega

/-- What a decode iteration makes of translated lanes: lane `j % 12` of half `j / 12` is byte `j` of the groups of its
window (R199 to R201). -/
theorem packedLane_eq_rawByteAt (c : WfConfiguration) {m : Memory} {p n : Nat} {v : List Byte}
    (hv : ∀ i < n, lane v i = valueOf c.regs (m.read (p + i))) {j : Nat} (hj : j < 12 * (n / 16)) :
    lane (shuffle n (lanesFrom n (mergeLane v)) c.regs.decShuf) (16 * (j / 12) + j % 12) = rawByteAt c.regs m p j := by
  have hg : 16 * (j / 12) + 4 * (j % 12 / 3) = 4 * (j / 3) := by omega
  have hk : 8 * (2 - j % 12 % 3) = 16 - 8 * (j % 3) := by omega
  rw [lane_shuffle_decShuf c _ (Nat.mod_lt _ (by decide)) (by omega), hg, lane_lanesFrom _ (by omega),
    mergeLane_eq _ _ (by omega), hk, hv _ (by omega), hv _ (by omega), hv _ (by omega), hv _ (by omega)]
  rfl

/-- The translated lanes of a decode load (R198). -/
theorem lane_vdTranslate_load (s : State) {i : Nat} (hi : i < s.lanes) :
    lane (vdTranslate (setVd (s.mem.readBytes s.srcAddr s.lanes) s)).units.vdV i =
      valueOf s.config.regs (s.nextByte i) := by
  have h : (vdTranslate (setVd (s.mem.readBytes s.srcAddr s.lanes) s)).units.vdV =
      lanesFrom s.lanes fun i => decodeLane s.config.regs (lane (s.mem.readBytes s.srcAddr s.lanes) i) := rfl
  rw [h, lane_lanesFrom _ hi, decodeLane_eq_valueOf, lane_readBytes _ _ hi]

/-- A decode iteration is abandoned exactly when one of its symbols has no value (R203). -/
theorem vdTranslate_load_vdAnybad (s : State) :
    (vdTranslate (setVd (s.mem.readBytes s.srcAddr s.lanes) s)).units.vdAnybad = true ↔
      ∃ i < s.lanes, valueOf s.config.regs (s.nextByte i) = sentinel := by
  rw [vdTranslate_vdAnybad]
  refine exists_congr fun i => and_congr_right fun hi => ?_
  rw [State.nextByte, ← lane_readBytes _ _ hi]
  rfl

/-- The merge and the shuffle (R199, R200). -/
theorem vdPack_vdV (s : State) : (vdShuffle (vdMerge6 s)).units.vdV =
    shuffle s.lanes (lanesFrom s.lanes (mergeLane s.units.vdV)) s.config.regs.decShuf := rfl

/-- Everything a decode store does: lanes 0 to 11 of each half stand at `q`, one half after the other (R201). -/
theorem vdStore_writes {s t : State} (hw : s.mem.wf = true) (h : vdStore s = .ok t) :
    (s.window ≠ 0 → insideDestination s.latch s.dstAddr s.window = true) ∧
    ∃ m, t = { s with mem := m } ∧
      StoredAt s m s.dstAddr (lanesFrom s.window fun j => lane s.units.vdV (16 * (j / 12) + j % 12)) := by
  obtain ⟨m, rfl, hin, hm⟩ := storeHalves_ok h
  obtain ⟨hwf, hread⟩ := hm hw
  rw [window_eq_halves]
  refine ⟨fun hne => insideDestination_iff.2 (hin (Nat.mul_ne_zero_iff.1 hne).2), m, rfl, hwf, fun x => ?_⟩
  rw [hread, storedByte, length_lanesFrom]
  split
  · rename_i hx
    have hj : x - s.dstAddr < 12 * (s.lanes / 16) := by omega
    rw [getD_lanesFrom _ hj]
  · rfl

/-- What the store of a decode iteration leaves, whose lanes have been translated (R199 to R201). -/
theorem vdStore_pack_writes {s t : State} (hw : s.mem.wf = true)
    (hv : ∀ i < s.lanes, lane s.units.vdV i = valueOf s.config.regs (s.nextByte i))
    (h : vdStore (vdShuffle (vdMerge6 s)) = .ok t) :
    (s.window ≠ 0 → insideDestination s.latch s.dstAddr s.window = true) ∧
    ∃ m, t = { vdShuffle (vdMerge6 s) with mem := m } ∧
      StoredAt s m s.dstAddr (lanesFrom s.window (rawByteAt s.config.regs s.mem s.srcAddr)) := by
  obtain ⟨hin, m, rfl, hm⟩ := vdStore_writes (s := vdShuffle (vdMerge6 s)) hw h
  refine ⟨hin, m, rfl, ?_⟩
  rw [vdShuffle_window, vdMerge6_window, vdShuffle_dstAddr, vdMerge6_dstAddr, vdPack_vdV,
    lanesFrom_congr fun j hj => packedLane_eq_rawByteAt s.config hv (window_eq_halves s ▸ hj)] at hm
  exact hm

/-- Everything a decode iteration does: it is abandoned with nothing written, or all its symbols have values and it writes
the bytes of its window at `q` (R202, R203). -/
theorem vdIter_writes {s t : State} (hw : s.mem.wf = true) (h : vdIter s = .ok t) :
    insideSource s.latch s.srcAddr s.lanes = true ∧
    ((t.units.vdAnybad = true ∧ ∃ u, t = { s with units := u }) ∨
      t.units.vdAnybad = false ∧ (∀ i < s.lanes, valueOf s.config.regs (s.nextByte i) ≠ sentinel) ∧
      (s.window ≠ 0 → insideDestination s.latch s.dstAddr s.window = true) ∧
      ∃ u m, t = { s with units := u, mem := m } ∧
        StoredAt s m s.dstAddr (lanesFrom s.window (rawByteAt s.config.regs s.mem s.srcAddr))) := by
  obtain ⟨a, ha, hs⟩ := andThen_ok_iff.1 h
  obtain ⟨v, hv, -⟩ := andThen_ok_iff.1 ha
  refine ⟨(memRead_ok hv).1, ?_⟩
  obtain rfl := vdLoad_ok ha
  have hlane (i : Nat) (hi : i < s.lanes) := lane_vdTranslate_load s hi
  have hbad := vdTranslate_load_vdAnybad s
  have hu := (setVd_onlyUnits (s.mem.readBytes s.srcAddr s.lanes) s).trans (vdTranslate_onlyUnits _)
  generalize vdTranslate (setVd (s.mem.readBytes s.srcAddr s.lanes) s) = y at hs hlane hbad hu
  unfold OnlyUnits at hu
  generalize y.units = u at hlane hbad hu
  subst hu
  dsimp only at hs
  split at hs
  · rename_i hyes
    injection hs with hs
    exact .inl (hs ▸ ⟨hyes, u, rfl⟩)
  · rename_i hno
    obtain ⟨hin, m, rfl, hm⟩ := vdStore_pack_writes (s := { s with units := u }) hw hlane hs
    exact .inr ⟨Bool.eq_false_iff.2 hno, fun i hi hsent => hno (hbad.2 ⟨i, hi, hsent⟩), hin, _, m, rfl, hm⟩

end Sys2Proof.Machine
end

section
/-! SUPPORT. What a step of a transfer writes: exactly the destination bytes it counts (20_memory.md R64, R81;
44_chunk_driver.md R215 to R221). -/

namespace Sys2Proof.Machine

/-! ## The bytes a step counts are the bytes it writes -/

/-- The destination bytes that the source bytes counted give stand at `q`, inside the destination region, and `WRITTEN`
has grown by their number (R64, R81). -/
structure WritesItsOutput (s t : State) (r : Nat) : Prop where
  consumed : t.consumed.toNat = s.consumed.toNat + r
  written : t.written.toNat = s.written.toNat + (s.outputOf r).length
  bounded : s.outputOf r = [] ∨ t.written.toNat ≤ s.latch.dstCap.toNat
  stored : StoredAt s t.mem s.dstAddr (s.outputOf r)

/-- A step that counts the bytes it writes, however many (R31, R32). -/
def CountsItsOutput (s t : State) : Prop := ∃ r, WritesItsOutput s t r

/-- The phase, the result and the working registers are none of it. -/
theorem CountsItsOutput.congr {s t t' : State} (h : CountsItsOutput s t) (hc : t'.consumed = t.consumed)
    (hw : t'.written = t.written) (hm : t'.mem = t.mem) : CountsItsOutput s t' := by
  obtain ⟨r, hcr, hwr, hb, hs⟩ := h
  exact ⟨r, hc ▸ hcr, hw ▸ hwr, hw ▸ hb, hm ▸ hs⟩

/-- What has been stored, when nothing has. -/
theorem storedAt_nil {s : State} (hw : s.mem.wf = true) (a : Nat) : StoredAt s s.mem a [] :=
  ⟨hw, fun x => by rw [storedByte, if_neg (by simp)]⟩

theorem storedAt_writeBytes {s : State} {a : Nat} {bytes : List Byte} (hw : s.mem.wf = true)
    (h : writableMem s.memMap a bytes.length = true) : StoredAt s (s.mem.writeBytes a bytes) a bytes := by
  have ha := le_addressSpace_of_writableMem h
  exact ⟨Memory.wf_writeBytes hw ha, fun x => Memory.read_writeBytes x hw ha⟩

theorem outputOf_enc {s : State} (hop : s.latch.op = opEnc) (n : Nat) :
    s.outputOf n = encodeList s.config.regs (s.mem.readBytes s.srcAddr n) := if_pos hop

theorem outputOf_dec {s : State} (hop : s.latch.op = opDec) (n : Nat) : s.outputOf n =
    (decodeResult s.config.regs (s.latch.final && s.remaining == n) s.room (s.mem.readBytes s.srcAddr n)).2.2 :=
  if_neg (by rw [hop]; decide)

/-- No source bytes give no destination bytes. -/
theorem outputOf_zero (s : State) : s.outputOf 0 = [] := by
  unfold State.outputOf
  split
  · rfl
  · simp [Memory.readBytes, decodeResult]

/-- A step that moves no cursor and leaves memory alone. -/
theorem countsItsOutput_of_unchanged {s t : State} (hwf : s.mem.wf = true) (hc : t.consumed = s.consumed)
    (hw : t.written = s.written) (hm : t.mem = s.mem) : CountsItsOutput s t := by
  refine ⟨0, by rw [hc]; rfl, by rw [hw, outputOf_zero]; rfl, .inl (outputOf_zero s), ?_⟩
  rw [hm, outputOf_zero]
  exact storedAt_nil hwf _

/-- A step that ends the command without a further group. -/
theorem countsItsOutput_of_ended {s t : State} {st : Status} {u : Units} {n : Nat} (hwf : s.mem.wf = true)
    (h : (.ok (release (finish st { s with units := u, tick := n })) : Except Fault State) = .ok t) :
    CountsItsOutput s t := by
  injection h with h
  exact h ▸ countsItsOutput_of_unchanged hwf rfl rfl rfl

/-- `r` source bytes counted, and the `w` bytes they give written inside the destination region. -/
theorem countsItsOutput_of_written {s t : State} {r w : Nat} (hlen : (s.outputOf r).length = w)
    (hsrc : r ≠ 0 → insideSource s.latch s.srcAddr r = true)
    (hdst : w ≠ 0 → insideDestination s.latch s.dstAddr w = true) (hc : t.consumed = s.consumed + BitVec.ofNat 32 r)
    (hw : t.written = s.written + BitVec.ofNat 32 w) (hm : StoredAt s t.mem s.dstAddr (s.outputOf r)) :
    CountsItsOutput s t := by
  have grows (c l : Len) (n : Nat) (h : n ≠ 0 → c.toNat + n ≤ l.toNat) :
      (c + BitVec.ofNat 32 n).toNat = c.toNat + n := by
    by_cases hn : n = 0
    · subst hn
      simp
    · exact toNat_add_ofNat (h hn)
  have hconsumed (h : r ≠ 0) : s.consumed.toNat + r ≤ s.latch.srcLen.toNat := by
    have := insideSource_iff.1 (hsrc h)
    unfold State.srcAddr at this
    omega
  have hwritten (h : w ≠ 0) : s.written.toNat + w ≤ s.latch.dstCap.toNat := by
    have := insideDestination_iff.1 (hdst h)
    unfold State.dstAddr at this
    omega
  have hw' : t.written.toNat = s.written.toNat + w := by rw [hw, grows _ _ w hwritten]
  refine ⟨r, by rw [hc, grows _ _ r hconsumed], by rw [hw', hlen], ?_, hm⟩
  by_cases h : w = 0
  · exact .inl (List.eq_nil_of_length_eq_zero (hlen.trans h))
  · exact .inr (hw' ▸ hwritten h)

/-- An iteration works on whole groups (R6). -/
theorem exists_groups (s : State) : ∃ n, s.lanes = 4 * n ∧ s.window = 3 * n := by
  refine ⟨s.lanes / 4, ?_⟩
  rw [window_eq]
  rcases lanes_cases s with h | h | h <;> omega

/-! ## The steps of ENC -/

theorem encBulk_countsItsOutput {s t : State} (hw : s.mem.wf = true) (hop : s.latch.op = opEnc)
    (h : encBulk s = .ok t) : CountsItsOutput s t := by
  obtain ⟨a, ha, ht⟩ := andThen_ok_iff.1 h
  injection ht with ht
  obtain ⟨hsrc, hdst, hmem, u, rfl⟩ := veIter_writes ha
  obtain ⟨n, hl, hn⟩ := exists_groups s
  have hout : s.outputOf s.window = lanesFrom s.lanes (symbolAt s.config.regs s.mem s.srcAddr) := by
    rw [outputOf_enc hop, hn, hl, encodeList_readBytes]
  have hin (hne : s.window ≠ 0) : insideSource s.latch s.srcAddr s.window = true := by
    have := insideSource_iff.1 (hsrc (by omega))
    exact insideSource_iff.2 ⟨this.1, by omega⟩
  subst ht
  refine countsItsOutput_of_written (by rw [hout, length_lanesFrom]) hin (fun _ => hdst) (by simp) (by simp) ?_
  rw [hout, release_mem, leaveBulkUnlessOk_mem]
  exact storedAt_writeBytes hw (by rwa [length_lanesFrom])

/-- A scalar encode step whose unit makes the encoding of the bytes read (R216, R217). -/
theorem encodeStep_countsItsOutput {n : Nat} {unit : State → State} {s t : State} (hw : s.mem.wf = true)
    (hop : s.latch.op = opEnc) (hunit : ∀ x : State, ∃ u, unit x = { x with units := u })
    (hout : (unit (feedEncoder (s.mem.readBytes s.srcAddr n) s)).units.seOut.toList =
      encodeList s.config.regs (s.mem.readBytes s.srcAddr n)) (h : encodeStep n unit s = .ok t) :
    CountsItsOutput s t := by
  obtain ⟨u, out, rfl, hmem, hdst, hsrc, rfl⟩ := encodeStep_ok hunit h
  rw [← outputOf_enc hop] at hout
  refine countsItsOutput_of_written (by rw [← hout, Vector.length_toList]) (fun _ => hsrc) (fun _ => hdst) rfl rfl ?_
  rw [← hout]
  exact storedAt_writeBytes hw (by rwa [Vector.length_toList])

theorem encGroup_countsItsOutput {s t : State} (hw : s.mem.wf = true) (hop : s.latch.op = opEnc)
    (h : encGroup s = .ok t) : CountsItsOutput s t := by
  unfold encGroup at h
  split at h
  · exact countsItsOutput_of_ended hw h
  · obtain ⟨a, ha, ht⟩ := andThen_ok_iff.1 h
    injection ht with ht
    have hstep := encodeStep_countsItsOutput hw hop seGroup_onlyUnits (List.append_nil _).symm ha
    exact ht ▸ hstep.congr rfl rfl rfl

theorem encTrail_countsItsOutput {s t : State} (hw : s.mem.wf = true) (hop : s.latch.op = opEnc)
    (h : encTrail s = .ok t) : CountsItsOutput s t := by
  unfold encTrail at h
  split at h
  · exact countsItsOutput_of_ended hw h
  split at h
  · exact countsItsOutput_of_ended hw h
  split at h
  · exact countsItsOutput_of_ended hw h
  split at h
  · obtain ⟨a, ha, ht⟩ := andThen_ok_iff.1 h
    injection ht with ht
    exact ht ▸ (encodeStep_countsItsOutput hw hop seTail2_onlyUnits rfl ha).congr rfl rfl rfl
  · obtain ⟨a, ha, ht⟩ := andThen_ok_iff.1 h
    injection ht with ht
    exact ht ▸ (encodeStep_countsItsOutput hw hop seTail1_onlyUnits rfl ha).congr rfl rfl rfl

/-! ## The steps of DEC -/

theorem decBulk_countsItsOutput {s t : State} (hw : s.mem.wf = true) (hop : s.latch.op = opDec)
    (h : decBulk s = .ok t) : CountsItsOutput s t := by
  obtain ⟨a, ha, ht⟩ := andThen_ok_iff.1 h
  injection ht with ht
  obtain ⟨hsrc, ⟨hbad, u, rfl⟩ | ⟨hgood, hvalued, hdst, u, m, rfl, hm⟩⟩ := vdIter_writes hw ha
  · rw [if_pos hbad] at ht
    exact ht ▸ countsItsOutput_of_unchanged hw rfl rfl rfl
  · rw [if_neg (Bool.eq_false_iff.1 hgood)] at ht
    obtain ⟨n, hl, hn⟩ := exists_groups s
    have hroom : 3 * n ≤ s.room := by
      by_cases h0 : s.window = 0
      · omega
      · have := insideDestination_iff.1 (hdst h0)
        unfold State.dstAddr at this
        unfold State.room
        omega
    have hout : s.outputOf s.lanes = lanesFrom s.window (rawByteAt s.config.regs s.mem s.srcAddr) := by
      rw [outputOf_dec hop, hn, hl]
      exact decodeResult_readBytes s.config _ s.mem n _ _ (hl ▸ hvalued) hroom
    subst ht
    refine countsItsOutput_of_written (by rw [hout, length_lanesFrom]) (fun _ => hsrc) hdst (by simp) (by simp) ?_
    rw [hout, release_mem, leaveBulkUnlessOk_mem]
    exact hm

/-- A decoder's answer is at most three bytes (R144). -/
theorem decodeAnswer_length {c : Configuration} {last : Bool} {symbols : List Byte} {w : GroupWord} {bytes : List Byte}
    (h : decodeAnswer c last symbols = some (w, bytes)) : bytes.length ≤ 3 := by
  cases last with
  | false => exact (decodeGroup_length h).le
  | true => exact (decodeFinal_length h).2

/-- What a `DEC` makes of four symbols that the decoder answers and whose bytes fit (R220, R226). -/
theorem outputOf_four {s : State} (hop : s.latch.op = opDec) {w : GroupWord} {bytes : List Byte}
    (h : decodeAnswer s.config.regs (isLastGroup s) (s.mem.readBytes s.srcAddr 4) = some (w, bytes))
    (hroom : bytes.length ≤ s.room) : s.outputOf 4 = bytes := by
  have hsymbols : s.mem.readBytes s.srcAddr 4 = [s.nextByte 0, s.nextByte 1, s.nextByte 2, s.nextByte 3] := rfl
  rw [hsymbols, ← Bool.and_true (isLastGroup s)] at h
  rw [outputOf_dec hop, hsymbols, decodeResult_cons h hroom]
  simp [decodeResult]

/-- The decoder's unit in step DecGroup, with the answer it gives (R144, R220). -/
theorem decoder_answer_cases (c : Configuration) (last : Bool) (symbols : List Byte) (s : State) :
    ∃ u n, setDecoder (decodeAnswer c last symbols) (feedDecoder symbols s) = { s with units := u, tick := n } ∧
      (u.sdOk = false ∨ u.sdOk = true ∧ u.sdK.toNat = u.sdOut.length ∧
        ∃ w, decodeAnswer c last symbols = some (w, u.sdOut)) :=
  setDecoder_cases _ (feedDecoder symbols s) fun _ _ h => decodeAnswer_length h

theorem decGroup_countsItsOutput {s t : State} (hw : s.mem.wf = true) (hop : s.latch.op = opDec)
    (h : decGroup s = .ok t) : CountsItsOutput s t := by
  rw [decGroup_eq] at h
  obtain ⟨symbols, hr, h⟩ := andThen_ok_iff.1 h
  obtain ⟨hsrc, -, rfl⟩ := memRead_ok hr
  obtain ⟨u, n, hx, hu⟩ := decoder_answer_cases s.config.regs (isLastGroup s) (s.mem.readBytes s.srcAddr 4) s
  rw [hx, decGroupEnd] at h
  rcases hu with hbad | ⟨hok, hk, w, hans⟩
  · rw [if_pos hbad] at h
    exact countsItsOutput_of_ended hw h
  · rw [if_neg (by simp [hok])] at h
    split at h
    · exact countsItsOutput_of_ended hw h
    · rename_i hroom
      obtain ⟨a, ha, ht⟩ := andThen_ok_iff.1 h
      injection ht with ht
      obtain ⟨hdst, hmem, rfl⟩ := memWrite_ok ha
      have hout : s.outputOf 4 = u.sdOut := outputOf_four hop hans (hk ▸ Nat.le_of_not_lt hroom)
      subst ht
      refine countsItsOutput_of_written (by rw [hout, ← hk]) (fun _ => hsrc) (fun _ => hk ▸ hdst) rfl rfl ?_
      rw [hout]
      exact storedAt_writeBytes hw hmem

theorem decTrail_countsItsOutput {s t : State} (hw : s.mem.wf = true) (h : decTrail s = .ok t) :
    CountsItsOutput s t := by
  unfold decTrail at h
  split at h
  · exact countsItsOutput_of_ended hw h
  · split at h <;> exact countsItsOutput_of_ended hw h

/-! ## Every step -/

theorem bulkStep_countsItsOutput {s t : State} (hw : s.mem.wf = true) (h : bulkStep s = .ok t) :
    CountsItsOutput s t := by
  unfold bulkStep at h
  split at h
  · rename_i hop; exact encBulk_countsItsOutput hw hop h
  · split at h
    · rename_i hop; exact decBulk_countsItsOutput hw hop h
    · cases h

theorem tailStep_countsItsOutput {s t : State} (hw : s.mem.wf = true) (h : tailStep s = .ok t) :
    CountsItsOutput s t := by
  unfold tailStep at h
  split at h
  · rename_i hop
    split at h
    · exact encGroup_countsItsOutput hw hop h
    · exact encTrail_countsItsOutput hw hop h
  · split at h
    · rename_i hop
      split at h
      · exact decGroup_countsItsOutput hw hop h
      · exact decTrail_countsItsOutput hw h
    · cases h

theorem Accepted.mem_eq {s t : State} (h : Accepted s t) : t.mem = s.mem := by
  rcases h with ⟨l, f, rfl⟩ | ⟨l, v, n, -, rfl⟩ | ⟨l, -, -, rfl⟩ <;> rfl

/-- A step outside the two transform phases writes no memory (R81). -/
theorem sequencerStep_mem_eq {s t : State} (hb : s.phase ≠ .bulkTransform) (ht : s.phase ≠ .tailTransform)
    (h : sequencerStep s = .next t) : t.mem = s.mem := by
  cases hp : s.phase with
  | bulkTransform => exact absurd hp hb
  | tailTransform => exact absurd hp ht
  | idle =>
    rw [sequencerStep_idle hp] at h
    rcases idleStep_ok hp h with ⟨-, rfl⟩ | ⟨d, rest, -, ha⟩
    · rfl
    · exact ha.mem_eq
  | scanning =>
    rw [sequencerStep_scanning hp] at h
    injection h with h
    rw [← h, scan_mem]
  | done =>
    rw [sequencerStep_done hp, doneStep] at h
    injection h with h
    rw [← h]
    split <;> rfl

end Sys2Proof.Machine

open Sys2Proof Sys2Proof.Machine

/-- Settles O50, by cases on the step: each group and each iteration writes the bytes that the source bytes it counts
give, and no other step writes. -/
theorem stepsWriteWhatTheyCount : Obligations.StepsWriteWhatTheyCount := by
  intro s t ⟨hr, hu⟩ hw h
  rw [step_of_quiet hr hu] at h
  refine ⟨fun hp => ?_, fun hb ht => sequencerStep_mem_eq hb ht h⟩
  have hcounts : CountsItsOutput s t := by
    rcases hp with hp | hp
    · rw [sequencerStep_bulk hp, outcome_next_iff] at h
      exact bulkStep_countsItsOutput hw h
    · rw [sequencerStep_tail hp, outcome_next_iff] at h
      exact tailStep_countsItsOutput hw h
  obtain ⟨r, hc, hwritten, hbound, hm⟩ := hcounts
  rw [show t.consumed.toNat - s.consumed.toNat = r by omega]
  exact ⟨hwritten, hbound, hm⟩

end

section
/-! SUPPORT. The decoder and the encoder against each other (30_encoding.md R90 to R93, R98, R101): the fields a packed
descriptor reads back as, the command a descriptor is read as, and which descriptors are read as none. -/

namespace Sys2Proof

/-! ## Decoding what the encoder writes -/

/-- The fields of a packed descriptor, as rewriting rules. -/
@[simp] theorem packDescriptor_reads_back (op : BitVec 4) (f e : Bool) (srcLen : Len) (srcBase : Addr) (dstCap : Len)
    (dstBase : Addr) :
    let d := packDescriptor op f e srcLen srcBase dstCap dstBase
    descOp d = op ∧ descFinal d = f ∧ descElem d = e ∧ descRsv0 d = 0#26 ∧ descSrcLen d = srcLen ∧
      descSrcBase d = srcBase ∧ descRsv1 d = 0#32 ∧ descDstCap d = dstCap ∧ descDstBase d = dstBase :=
  packDescriptor_fields op f e srcLen srcBase dstCap dstBase _ rfl

theorem decode_encode (i : Instr) : decode (encode i) = .ok i := by
  cases i with
  | enc | dec | enclen | declen => simp [encode, decode, decodeCmd]
  | _ => rfl

/-! ## The command a descriptor is read as -/

/-- The table of R92, with the fields each command leaves unused at 0 (R91): the command a descriptor without reserved
bits is read as. -/
inductive ReadAs (d : Descriptor) : Instr → Prop
  | enc (op : descOp d = 1#4) :
    ReadAs d (.enc (descFinal d) (descElem d) (descSrcLen d) (descSrcBase d) (descDstCap d) (descDstBase d))
  | dec (op : descOp d = 2#4) :
    ReadAs d (.dec (descFinal d) (descElem d) (descSrcLen d) (descSrcBase d) (descDstCap d) (descDstBase d))
  | enclen (op : descOp d = 3#4) (final : descFinal d = false) (elem : descElem d = false)
    (srcBase : descSrcBase d = 0#64) (dstCap : descDstCap d = 0#32) (dstBase : descDstBase d = 0#64) :
    ReadAs d (.enclen (descSrcLen d))
  | declen (op : descOp d = 4#4) (final : descFinal d = false) (dstCap : descDstCap d = 0#32)
    (dstBase : descDstBase d = 0#64) : ReadAs d (.declen (descElem d) (descSrcLen d) (descSrcBase d))

/-- Everything the decoder can answer a command for (R97 check 1). -/
theorem decodeCmd_ok_iff {d : Descriptor} {i : Instr} :
    decodeCmd d = .ok i ↔ descRsv0 d = 0#26 ∧ descRsv1 d = 0#32 ∧ ReadAs d i := by
  constructor
  · intro h
    have op {n : Nat} (hn : (descOp d).toNat = n) : descOp d = BitVec.ofNat 4 n := by
      rw [← hn, BitVec.ofNat_toNat, BitVec.setWidth_eq]
    unfold decodeCmd at h
    split at h
    · cases h
    · rename_i hrsv
      push Not at hrsv
      refine ⟨hrsv.1, hrsv.2, ?_⟩
      split at h
      · rename_i hop; cases h; exact .enc (op hop)
      · rename_i hop; cases h; exact .dec (op hop)
      · rename_i hop
        split at h
        · cases h
        · rename_i hunused
          simp only [not_or, not_not, Bool.not_eq_true] at hunused
          obtain ⟨hfinal, helem, hsrc, hcap, hdst⟩ := hunused
          cases h
          exact .enclen (op hop) hfinal helem hsrc hcap hdst
      · rename_i hop
        split at h
        · cases h
        · rename_i hunused
          simp only [not_or, not_not, Bool.not_eq_true] at hunused
          obtain ⟨hfinal, hcap, hdst⟩ := hunused
          cases h
          exact .declen (op hop) hfinal hcap hdst
      · cases h
  · rintro ⟨h0, h1, hread⟩
    cases hread <;> simp [decodeCmd, *]

/-! ## Encoding what the decoder reads -/

theorem encode_of_decodeCmd {d : Descriptor} {i : Instr} (h : decodeCmd d = .ok i) : encode i = .cmd d := by
  obtain ⟨h0, h1, hread⟩ := decodeCmd_ok_iff.1 h
  rw [← packDescriptor_of_fields d h0 h1]
  cases hread <;> simp [encode, *]

theorem encode_of_decodeUop {c : UopCode} {i : Instr} (h : decodeUop c = .ok i) : encode i = .uop c := by
  unfold decodeUop at h
  split at h
  case h_19 => cases h
  all_goals
    rename_i hc
    cases h
    exact congrArg MachineWord.uop (BitVec.eq_of_toNat_eq hc.symm)

end Sys2Proof

namespace Sys2Proof.Machine

/-! ## The illegal descriptors -/

/-- The list of R98 in the terms of the fields of R90. -/
theorem illegalDescriptor_iff {d : Descriptor} : IllegalDescriptor d ↔
    (descOp d = 0#4 ∨ 5 ≤ (descOp d).toNat) ∨ descRsv0 d ≠ 0#26 ∨ descRsv1 d ≠ 0#32 ∨
    ((descOp d = 3#4 ∨ descOp d = 4#4) ∧ (descFinal d = true ∨ descDstCap d ≠ 0#32 ∨ descDstBase d ≠ 0#64)) ∨
    (descOp d = 3#4 ∧ (descElem d = true ∨ descSrcBase d ≠ 0#64)) := Iff.rfl

theorem not_illegalDescriptor_of_decodeCmd {d : Descriptor} {i : Instr} (h : decodeCmd d = .ok i) :
    ¬IllegalDescriptor d := by
  obtain ⟨h0, h1, hread⟩ := decodeCmd_ok_iff.1 h
  rw [illegalDescriptor_iff]
  cases hread <;> simp [*]

theorem decodeCmd_of_not_illegalDescriptor {d : Descriptor} (h : ¬IllegalDescriptor d) : ∃ i, decodeCmd d = .ok i := by
  simp only [illegalDescriptor_iff, not_or, not_and, not_not, Bool.not_eq_true] at h
  obtain ⟨⟨hne, hlt⟩, h0, h1, hlength, henclen⟩ := h
  have hop : descOp d = 1#4 ∨ descOp d = 2#4 ∨ descOp d = 3#4 ∨ descOp d = 4#4 := by bv_omega
  rcases hop with hop | hop | hop | hop
  · exact ⟨_, decodeCmd_ok_iff.2 ⟨h0, h1, .enc hop⟩⟩
  · exact ⟨_, decodeCmd_ok_iff.2 ⟨h0, h1, .dec hop⟩⟩
  · obtain ⟨hfinal, hcap, hdst⟩ := hlength (.inl hop)
    obtain ⟨helem, hsrc⟩ := henclen hop
    exact ⟨_, decodeCmd_ok_iff.2 ⟨h0, h1, .enclen hop hfinal helem hsrc hcap hdst⟩⟩
  · obtain ⟨hfinal, hcap, hdst⟩ := hlength (.inr hop)
    exact ⟨_, decodeCmd_ok_iff.2 ⟨h0, h1, .declen hop hfinal hcap hdst⟩⟩

/-! ## What a word that stands for no instruction does -/

/-- Accept of a descriptor that is no command (R98, R211). -/
theorem idleStep_of_undecodable {s : State} {d : Descriptor} {rest : List Descriptor} (ho : s.offers = d :: rest)
    (hd : ∀ i, decode (.cmd d) ≠ .ok i) : idleStep s = .next (acceptIllegal d { s with offers := rest }) := by
  cases h : decode (.cmd d) with
  | ok i => exact absurd h (hd i)
  | error r => simp [idleStep, ho, h]

theorem acceptIllegal_eq_afterAccept (d : Descriptor) (s : State) :
    acceptIllegal d s = afterAccept (latchOfDescriptor d) 1#4 0#32 .done s := rfl

theorem uopStep_of_decode {s : State} {c : UopCode} {i : Instr} (h : decode (.uop c) = .ok i) :
    uopStep c s = exec i { s with uopSel := none } := by simp [uopStep, h]

/-- A select code without a row is refused (log 13). -/
theorem uopStep_of_undecodable {s : State} {c : UopCode} (hc : ∀ i, decode (.uop c) ≠ .ok i) :
    uopStep c s = .refused .unassignedMicroOp := by
  cases h : decode (.uop c) with
  | ok i => exact absurd h (hc i)
  | error r => simp [uopStep, h]

end Sys2Proof.Machine

open Sys2Proof Sys2Proof.Machine

/-- Settles O6, by cases on the instruction: a descriptor's fields read back as packed, a select code has its own row. -/
theorem decodeOfEncode : Obligations.DecodeOfEncode := decode_encode

/-- Settles O7, by cases on the word: a descriptor without reserved bits is the packing of its fields, a select code is
the number of its row. -/
theorem encodeOfDecode : Obligations.EncodeOfDecode := by
  intro w i h
  cases w with
  | cmd d => exact encode_of_decodeCmd h
  | uop c => exact encode_of_decodeUop h

/-- Settles O8: the decoder answers a command exactly for the descriptors outside the list of R98. -/
theorem illegalDescriptorsFault : Obligations.IllegalDescriptorsFault := by
  intro s d rest ⟨hr, hu⟩ hp ho
  constructor
  · intro hill
    have hd : ∀ i, decode (.cmd d) ≠ .ok i := fun i hi => not_illegalDescriptor_of_decodeCmd hi hill
    refine ⟨latchOfDescriptor d, ?_⟩
    rw [step_of_quiet hr hu, sequencerStep_idle hp, idleStep_of_undecodable ho hd, acceptIllegal_eq_afterAccept]
  · intro hlegal
    obtain ⟨i, hi⟩ := decodeCmd_of_not_illegalDescriptor hlegal
    exact ⟨i, hi, decode_cmd_isMicroOp hi⟩

/-- Settles O9: each word decoded. -/
theorem tableWordsDecode : Obligations.TableWordsDecode := by
  unfold Obligations.TableWordsDecode
  decide +kernel

/-- Settles O11, by whether the code on the select lines has a row. -/
theorem stepRunsSelectedMicroOp : Obligations.StepRunsSelectedMicroOp := by
  intro s c hr hu
  rw [step_of_select hr hu]
  exact ⟨fun i hi => uopStep_of_decode hi, uopStep_of_undecodable⟩

end

section
/-! SUPPORT. The length calculator's values, and what its two commands and its two micro-operations leave
(40_length_calculator.md R120 to R125). -/

namespace Sys2Proof.Machine

/-! ## The values -/

/-- Within its range `EncodedLength` stays three below `LEN_MAX`, so no intermediate wraps (R121, R122). -/
theorem encodedLength_le {n : Nat} (hn : n ≤ Config.encMax) : encodedLength n ≤ Config.lenMax - 3 := by
  simp only [encodedLength, Config.encMax, Config.lenMax] at hn ⊢
  omega

/-- The encoded length is written as it is, without wrap (R121, R122). -/
theorem toNat_ofInt_encodedLength {n : Nat} (hn : n ≤ Config.encMax) :
    (BitVec.ofInt 32 (encodedLength n : Nat)).toNat = encodedLength n := by
  have hle := encodedLength_le hn
  rw [BitVec.ofInt_natCast, BitVec.toNat_ofNat, Nat.mod_eq_of_lt (by simp only [Config.lenMax] at hle; omega)]

/-- The decoded length of a legal source fits a signed word, below zero too (R125). -/
theorem toInt_ofInt_decodedLength {len p : Nat} (hlen : len ≤ Config.lenMax) (hp : p ≤ 2) :
    (BitVec.ofInt 32 (decodedLength len p)).toInt = decodedLength len p := by
  simp only [Config.lenMax] at hlen
  apply BitVec.toInt_ofInt_eq_self (by decide) <;> simp only [decodedLength] <;> omega

/-! ## The commands -/

/-- The only check of R97 an `ENCLEN` can fail is that of its length (R120). -/
theorem firstFailingCheck_enclen (n : Len) : firstFailingCheck ⟨opEnclen, false, false, 0, n, 0, 0⟩ =
    if n.toNat ≤ Config.encMax then none else some .rangeError := rfl

/-- `ENCLEN` up to `ENC_MAX` answers the encoded length (R120, R121). -/
theorem execEnclen_answers {s : State} {n : Len} (hp : s.phase = .idle) (hn : n.toNat ≤ Config.encMax) :
    execEnclen n s = .next (afterAccept ⟨opEnclen, false, false, 0, n, 0, 0⟩ 0#4
      (BitVec.ofInt 32 (encodedLength n.toNat : Nat)) .done s) := by
  have hf := (firstFailingCheck_enclen n).trans (if_pos hn)
  exact (accept_start hp hf).trans (startEnclen_eq s hf)

/-- `ENCLEN` beyond `ENC_MAX` is a `RangeError` (R120). -/
theorem execEnclen_rangeError {s : State} {n : Len} (hp : s.phase = .idle) (hn : ¬n.toNat ≤ Config.encMax) :
    execEnclen n s = .next (afterAccept ⟨opEnclen, false, false, 0, n, 0, 0⟩ (faultCode .rangeError) 0#32 .done s) :=
  accept_fault hp ((firstFailingCheck_enclen n).trans (if_neg hn))

/-- `DECLEN` over a legal, readable source answers its decoded length (R123, R124). -/
theorem execDeclen_answers {s : State} {n : Len} {base : Addr} (hp : s.phase = .idle) (hsrc : RegionInRange base n)
    (hm : readableMem s.memMap base.toNat n.toNat = true) :
    execDeclen false n base s = .next (afterAccept ⟨opDeclen, false, false, base, n, 0, 0⟩ 0#4
      (BitVec.ofInt 32 (decodedLength n.toNat (paddingCount s.config.regs.pad (s.mem.readBytes base.toNat n.toNat))))
      .done s) :=
  (accept_declen_eq hp hsrc).trans (startDeclen_eq hsrc.1 hm)

/-! ## The micro-operations -/

/-- `LC.ENCLEN` within the range of its function (R121). -/
theorem lcEnclen_eq {s : State} (hn : s.latch.srcLen.toNat ≤ Config.encMax) :
    lcEnclen s = setValue (encodedLength s.latch.srcLen.toNat : Nat) s := if_pos hn

/-- `LC.ENCLEN` beyond the range of its function (log 17). -/
theorem lcEnclen_open {s : State} (hn : ¬s.latch.srcLen.toNat ≤ Config.encMax) : lcEnclen s = openValue s :=
  if_neg hn

/-- `LC.DECLEN` over a readable source beyond the range of its function (log 17). -/
theorem lcDeclen_open {s : State} (hn : ¬s.latch.srcLen.toNat ≤ Config.lenMax)
    (hm : readableMem s.memMap s.latch.srcBase.toNat s.latch.srcLen.toNat = true) :
    lcDeclen s = .ok (openValue s) := by
  rw [lcDeclen, decodedLengthOf, paddingRun_eq hm, andThen_ok, andThen_ok, if_neg hn]

end Sys2Proof.Machine

open Sys2Proof Sys2Proof.Machine

/-- Settles O14, by the check of R97 on the length: the encoded length up to `ENC_MAX`, the fault above. -/
theorem enclenAnswers : Obligations.EnclenAnswers := by
  intro s n hp
  refine ⟨fun hn => ⟨_, execEnclen_answers hp hn, ?_, ?_⟩, fun hn => execEnclen_rangeError hp (Nat.not_le.2 hn)⟩
  · exact (toNat_ofInt_encodedLength hn).trans (Nat.mul_comm _ _)
  · exact (toNat_ofInt_encodedLength hn).trans_le (encodedLength_le hn)

/-- Settles O15: the padding count is at most 2, so the decoded length fits the signed word that holds it. -/
theorem declenAnswers : Obligations.DeclenAnswers := by
  intro s srcLen srcBase hp hsrc hm
  exact ⟨_, execDeclen_answers hp hsrc hm, toInt_ofInt_decodedLength hsrc.1 (paddingCount_le _ _)⟩

/-- Settles O38, by whether the latched length is in the range of the operation's function. -/
theorem lengthMicroOps : Obligations.LengthMicroOps := by
  intro s
  refine ⟨fun hn => ?_, fun hn => ⟨_, _, congrArg Host.Outcome.next (lcEnclen_open (Nat.not_le.2 hn))⟩, fun hm =>
    ⟨fun hn => congrArg outcome (lcDeclen_eq hn hm),
      fun hn => ⟨_, _, congrArg outcome (lcDeclen_open (Nat.not_le.2 hn) hm)⟩⟩⟩
  refine congrArg Host.Outcome.next ((lcEnclen_eq hn).trans ?_)
  rw [setValue, BitVec.ofInt_natCast, encodedLength]

end

section
/-! SUPPORT. The scalar core in the terms of its rules: the group words as numbers (R141, R145, R148), what the decoder
answers in each of its cases (R145 to R147), and that it puts the encoder's fields back where they were (R149). -/

namespace Sys2Proof.Machine

/-! ## Fields of a word given as a number -/

/-- A bit field of a number's word is the number shifted right and cut to the field's width. -/
theorem extractLsb'_ofNat {m lo k : Nat} (n : Nat) (h : lo + k ≤ m) :
    (BitVec.ofNat m n).extractLsb' lo k = BitVec.ofNat k (n >>> lo) := by
  apply BitVec.eq_of_getLsbD_eq
  intro i hi
  have hm : lo + i < m := by omega
  simp only [BitVec.getLsbD_extractLsb', BitVec.getLsbD_ofNat, Nat.testBit_shiftRight, hm, decide_true, Bool.true_and]

/-- A 6-bit field of the group word, as R141 shifts it out. -/
theorem sixBits_ofNat {lo : Nat} (n : Nat) (h : lo + 6 ≤ 24) :
    sixBits (BitVec.ofNat 24 n) lo = BitVec.ofNat 6 (n >>> lo) := extractLsb'_ofNat n h

/-- The mask of R141 is the width of the field. -/
theorem ofNat_and_mask (n : Nat) : BitVec.ofNat 6 (n &&& 0x3F) = BitVec.ofNat 6 n := by
  rw [BitVec.ofNat_and]
  exact BitVec.and_allOnes

/-- Byte 0 of the group word, as R145 takes it out. -/
theorem wordByte0_ofNat (n : Nat) : wordByte0 (BitVec.ofNat 24 n) = BitVec.ofNat 8 (n >>> 16) :=
  extractLsb'_ofNat n (by decide)

/-- Byte 1 of the group word, as R145 takes it out. -/
theorem wordByte1_ofNat (n : Nat) : wordByte1 (BitVec.ofNat 24 n) = BitVec.ofNat 8 (n >>> 8) :=
  extractLsb'_ofNat n (by decide)

/-- Byte 2 of the group word, as R145 takes it out. -/
theorem wordByte2_ofNat (n : Nat) : wordByte2 (BitVec.ofNat 24 n) = BitVec.ofNat 8 n :=
  extractLsb'_ofNat n (by decide)

/-! ## The group words -/

/-- `SE.W`, as R141 writes it. -/
theorem rawWord_eq_ofNat (b0 b1 b2 : Byte) :
    rawWord b0 b1 b2 = BitVec.ofNat 24 (b0.toNat <<< 16 ||| b1.toNat <<< 8 ||| b2.toNat) := by
  have h : (rawWord b0 b1 b2).toNat = b0.toNat <<< 16 ||| b1.toNat <<< 8 ||| b2.toNat := by
    refine (BitVec.toNat_append _ _).trans ?_
    rw [BitVec.toNat_append, Nat.shiftLeft_or_distrib, ← Nat.shiftLeft_add]
  rw [← h, BitVec.ofNat_toNat, BitVec.setWidth_eq]

/-- `SE.W` of two bytes, as R142 writes it. -/
theorem rawWord_two (b0 b1 : Byte) : rawWord b0 b1 0 = BitVec.ofNat 24 (b0.toNat <<< 16 ||| b1.toNat <<< 8) :=
  (rawWord_eq_ofNat b0 b1 0).trans (congrArg _ (Nat.or_zero _))

/-- `SE.W` of one byte, as R143 writes it. -/
theorem rawWord_one (b0 : Byte) : rawWord b0 0 0 = BitVec.ofNat 24 (b0.toNat <<< 16) :=
  (rawWord_two b0 0).trans (congrArg _ (Nat.or_zero _))

/-- A value shifted to its place in `SD.W`. -/
theorem setWidth_shiftLeft_eq_ofNat (v : Byte) (k : Nat) :
    v.setWidth 24 <<< k = BitVec.ofNat 24 (v.toNat <<< k) := by
  apply BitVec.eq_of_toNat_eq
  have hv : v.toNat % 2 ^ 24 = v.toNat := Nat.mod_eq_of_lt (by omega)
  rw [BitVec.toNat_shiftLeft, BitVec.toNat_setWidth, BitVec.toNat_ofNat, hv]

/-- `SD.W`, as R145 writes it. -/
theorem valueWord_eq_ofNat (v0 v1 v2 v3 : Byte) : valueWord v0 v1 v2 v3 =
    BitVec.ofNat 24 (v0.toNat <<< 18 ||| v1.toNat <<< 12 ||| v2.toNat <<< 6 ||| v3.toNat) := by
  simp only [valueWord, setWidth_shiftLeft_eq_ofNat, BitVec.ofNat_or, BitVec.ofNat_toNat]

/-- `SD.W` of three values, as R146 writes it. -/
theorem valueWord_three (v0 v1 v2 : Byte) :
    valueWord v0 v1 v2 0 = BitVec.ofNat 24 (v0.toNat <<< 18 ||| v1.toNat <<< 12 ||| v2.toNat <<< 6) :=
  (valueWord_eq_ofNat v0 v1 v2 0).trans (congrArg _ (Nat.or_zero _))

/-- `SD.W` of two values, as R146 writes it. -/
theorem valueWord_two (v0 v1 : Byte) :
    valueWord v0 v1 0 0 = BitVec.ofNat 24 (v0.toNat <<< 18 ||| v1.toNat <<< 12) :=
  (valueWord_three v0 v1 0).trans (congrArg _ (Nat.or_zero _))

/-! ## What the decoder answers -/

/-- With `ok = 0` only the decoder's outputs change, to free values (R144; log 16). -/
theorem setDecoder_none_eq (s : State) : ∃ k bytes n, setDecoder none s =
    { s with units := { s.units with sdOk := false, sdK := k, sdOut := bytes }, tick := n } := ⟨_, _, _, rfl⟩

section
variable {c : Configuration} {c0 c1 c2 c3 : Byte}

/-- `SD.GROUP` on a symbol with the sentinel (R145). -/
theorem decodeGroup_of_sentinel (h : valueOf c c0 = sentinel ∨ valueOf c c1 = sentinel ∨ valueOf c c2 = sentinel ∨
    valueOf c c3 = sentinel) : decodeGroup c c0 c1 c2 c3 = none := if_pos h

/-- `SD.FINAL` without padding is `SD.GROUP` (R146). -/
theorem decodeFinal_unpadded (h3 : c3 ≠ c.pad) : decodeFinal c c0 c1 c2 c3 = decodeGroup c c0 c1 c2 c3 := if_pos h3

/-- `SD.FINAL` with one `PAD` looks three symbols up (R146). -/
theorem decodeFinal_onePad (h3 : c3 = c.pad) (h2 : c2 ≠ c.pad) : decodeFinal c c0 c1 c2 c3 =
    if valueOf c c0 = sentinel ∨ valueOf c c1 = sentinel ∨ valueOf c c2 = sentinel then none
    else
      let w := valueWord (valueOf c c0) (valueOf c c1) (valueOf c c2) 0
      some (w, [wordByte0 w, wordByte1 w]) :=
  (if_neg (not_not_intro h3)).trans (if_pos h2)

/-- `SD.FINAL` with two `PAD` looks two symbols up (R146). -/
theorem decodeFinal_twoPad (h3 : c3 = c.pad) (h2 : c2 = c.pad) : decodeFinal c c0 c1 c2 c3 =
    if valueOf c c0 = sentinel ∨ valueOf c c1 = sentinel then none
    else
      let w := valueWord (valueOf c c0) (valueOf c c1) 0 0
      some (w, [wordByte0 w]) :=
  (if_neg (not_not_intro h3)).trans (if_neg (not_not_intro h2))

end

/-- The step of `SD.GROUP` on the symbols at the decoder's inputs (R145). -/
theorem exec_sdGroup {s : State} {r : Option (GroupWord × List Byte)} (h : decodeGroup s.config.regs
    s.units.sdIn[0] s.units.sdIn[1] s.units.sdIn[2] s.units.sdIn[3] = r) : exec .sdGroup s = .next (setDecoder r s) :=
  h ▸ rfl

/-- The step of `SD.FINAL` on the symbols at the decoder's inputs (R146). -/
theorem exec_sdFinal {s : State} {r : Option (GroupWord × List Byte)} (h : decodeFinal s.config.regs
    s.units.sdIn[0] s.units.sdIn[1] s.units.sdIn[2] s.units.sdIn[3] = r) : exec .sdFinal s = .next (setDecoder r s) :=
  h ▸ rfl

/-! ## The decoder after the encoder -/

/-- The value of a symbol is the field it stands for (R23). -/
theorem valueOf_symbolOf (c : WfConfiguration) (i : BitVec 6) :
    valueOf c.regs (symbolOf c.regs i) = i.setWidth 8 := c.ok.decmapInverts i

/-- A symbol of the alphabet has a value (R23). -/
theorem valueOf_symbolOf_ne_sentinel (c : WfConfiguration) (i : BitVec 6) :
    valueOf c.regs (symbolOf c.regs i) ≠ sentinel := by
  rw [valueOf_symbolOf]
  revert i
  decide

/-- `SD.W = SE.W`: the four fields are put back where they were taken from (R149). -/
theorem valueWord_sixBits (w : GroupWord) : valueWord ((sixBits w 18).setWidth 8) ((sixBits w 12).setWidth 8)
    ((sixBits w 6).setWidth 8) ((sixBits w 0).setWidth 8) = w := by
  have field (lo : Nat) : ((sixBits w lo).setWidth 8).toNat = w.toNat / 2 ^ lo % 64 := by
    rw [BitVec.toNat_setWidth, sixBits_toNat]; omega
  apply BitVec.eq_of_toNat_eq
  rw [valueWord_toNat] <;> simp only [field] <;> omega

/-- The low field of a word whose last byte is not there (R142). -/
theorem sixBits_zero_tail2 (b0 b1 : Byte) : sixBits (rawWord b0 b1 0) 0 = 0 := by
  apply BitVec.eq_of_toNat_eq
  rw [sixBits_toNat, rawWord_toNat]
  simp only [BitVec.ofNat_eq_ofNat, BitVec.toNat_ofNat]
  omega

/-- The second-lowest field of a word whose last two bytes are not there (R143). -/
theorem sixBits_six_tail1 (b0 : Byte) : sixBits (rawWord b0 0 0) 6 = 0 := by
  apply BitVec.eq_of_toNat_eq
  rw [sixBits_toNat, rawWord_toNat]
  simp only [BitVec.ofNat_eq_ofNat, BitVec.toNat_ofNat]
  omega

/-- `SD.W = SE.W` for a group of two bytes, of which three fields are sent (R149). -/
theorem valueWord_sixBits_tail2 (b0 b1 : Byte) : valueWord ((sixBits (rawWord b0 b1 0) 18).setWidth 8)
    ((sixBits (rawWord b0 b1 0) 12).setWidth 8) ((sixBits (rawWord b0 b1 0) 6).setWidth 8) 0 = rawWord b0 b1 0 := by
  have h := valueWord_sixBits (rawWord b0 b1 0)
  rw [sixBits_zero_tail2] at h
  exact h

/-- `SD.W = SE.W` for a group of one byte, of which two fields are sent (R149). -/
theorem valueWord_sixBits_tail1 (b0 : Byte) : valueWord ((sixBits (rawWord b0 0 0) 18).setWidth 8)
    ((sixBits (rawWord b0 0 0) 12).setWidth 8) 0 0 = rawWord b0 0 0 := by
  have h := valueWord_sixBits_tail2 b0 0
  rw [sixBits_six_tail1] at h
  exact h

/-- The bytes of `SE.W` are the three bytes packed into it (R141, R145). -/
theorem wordBytes_rawWord (b0 b1 b2 : Byte) : wordByte0 (rawWord b0 b1 b2) = b0 ∧
    wordByte1 (rawWord b0 b1 b2) = b1 ∧ wordByte2 (rawWord b0 b1 b2) = b2 := by
  have field (lo : Nat) : ((rawWord b0 b1 b2).extractLsb' lo 8).toNat =
      (b0.toNat * 65536 + b1.toNat * 256 + b2.toNat) / 2 ^ lo % 2 ^ 8 := by
    rw [BitVec.extractLsb'_toNat, rawWord_toNat, Nat.shiftRight_eq_div_pow]
  refine ⟨BitVec.eq_of_toNat_eq ?_, BitVec.eq_of_toNat_eq ?_, BitVec.eq_of_toNat_eq ?_⟩
  · exact (field 16).trans (by omega)
  · exact (field 8).trans (by omega)
  · exact (field 0).trans (by omega)

/-- A whole group decodes to its three bytes, last group or not (R149). -/
theorem decodeAnswer_encodeGroup (c : WfConfiguration) (last : Bool) (b0 b1 b2 : Byte) :
    decodeAnswer c.regs last (encodeGroup c.regs b0 b1 b2).toList = some (rawWord b0 b1 b2, [b0, b1, b2]) := by
  have valued := valueOf_symbolOf_ne_sentinel c
  obtain ⟨h0, h1, h2⟩ := wordBytes_rawWord b0 b1 b2
  refine (decodeAnswer_of_valued last (valued _) (valued _) (valued _) (valued _)).trans ?_
  simp only [valueOf_symbolOf, valueWord_sixBits, h0, h1, h2]

/-- A two-byte group decodes to its two bytes (R149). -/
theorem decodeAnswer_encodeTail2 (c : WfConfiguration) (b0 b1 : Byte) :
    decodeAnswer c.regs true (encodeTail2 c.regs b0 b1).toList = some (rawWord b0 b1 0, [b0, b1]) := by
  have valued := valueOf_symbolOf_ne_sentinel c
  obtain ⟨h0, h1, -⟩ := wordBytes_rawWord b0 b1 0
  change decodeFinal c.regs (symbolOf c.regs (sixBits _ 18)) (symbolOf c.regs (sixBits _ 12))
    (symbolOf c.regs (sixBits _ 6)) c.regs.pad = _
  rw [decodeFinal_onePad rfl (c.ok.padOutside _), if_neg (not_or.2 ⟨valued _, not_or.2 ⟨valued _, valued _⟩⟩)]
  simp only [valueOf_symbolOf, valueWord_sixBits_tail2, h0, h1]

/-- A one-byte group decodes to its byte (R149). -/
theorem decodeAnswer_encodeTail1 (c : WfConfiguration) (b0 : Byte) :
    decodeAnswer c.regs true (encodeTail1 c.regs b0).toList = some (rawWord b0 0 0, [b0]) := by
  have valued := valueOf_symbolOf_ne_sentinel c
  obtain ⟨h0, -, -⟩ := wordBytes_rawWord b0 0 0
  change decodeFinal c.regs (symbolOf c.regs (sixBits _ 18)) (symbolOf c.regs (sixBits _ 12)) c.regs.pad c.regs.pad = _
  rw [decodeFinal_twoPad rfl rfl, if_neg (not_or.2 ⟨valued _, valued _⟩)]
  simp only [valueOf_symbolOf, valueWord_sixBits_tail1, h0]

/-- The outputs of a decoder that answers `bytes` (R144). -/
theorem setDecoder_answers {r : Option (GroupWord × List Byte)} {w : GroupWord} {bytes : List Byte} (s : State)
    (h : r = some (w, bytes)) (hlen : bytes.length < 4) : (setDecoder r s).units.sdOk = true ∧
    (setDecoder r s).units.sdK.toNat = bytes.length ∧ (setDecoder r s).units.sdOut = bytes := by
  subst h
  rw [setDecoder_some]
  exact ⟨rfl, (BitVec.toNat_ofNat _ _).trans (Nat.mod_eq_of_lt hlen), rfl⟩

end Sys2Proof.Machine

open Sys2Proof Sys2Proof.Machine

/-- Settles O20, by reading the word and its fields as numbers. -/
theorem seGroupSymbols : Obligations.SeGroupSymbols := by
  intro s
  simp only [ofNat_and_mask]
  refine congrArg Host.Outcome.next ?_
  simp only [seGroup, setEncoder, encodeGroup, rawWord_eq_ofNat, sixBits_ofNat, Nat.reduceAdd, Nat.reduceLeDiff,
    Nat.shiftRight_zero]

/-- Settles O21, as O20, with the missing bytes 0. -/
theorem seTailSymbols : Obligations.SeTailSymbols := by
  intro s
  simp only [ofNat_and_mask]
  refine ⟨congrArg Host.Outcome.next ?_, congrArg Host.Outcome.next ?_⟩
  · simp only [seTail2, setEncoder, encodeTail2, rawWord_two, sixBits_ofNat, Nat.reduceAdd, Nat.reduceLeDiff]
  · simp only [seTail1, setEncoder, encodeTail1, rawWord_one, sixBits_ofNat, Nat.reduceAdd, Nat.reduceLeDiff]

/-- Settles O22, by whether a symbol has the sentinel. -/
theorem sdGroupBytes : Obligations.SdGroupBytes := by
  intro s v w
  constructor
  · rintro ⟨i, hi⟩
    have hbad : v 0 = sentinel ∨ v 1 = sentinel ∨ v 2 = sentinel ∨ v 3 = sentinel :=
      match i, hi with
      | 0, h => .inl h
      | 1, h => .inr (.inl h)
      | 2, h => .inr (.inr (.inl h))
      | 3, h => .inr (.inr (.inr h))
    obtain ⟨k, bytes, n, hnone⟩ := setDecoder_none_eq s
    exact ⟨k, bytes, n, (exec_sdGroup (decodeGroup_of_sentinel hbad)).trans (congrArg _ hnone)⟩
  · intro h
    rw [exec_sdGroup (decodeAnswer_of_valued false (h 0) (h 1) (h 2) (h 3))]
    simp only [setDecoder_some, valueWord_eq_ofNat, wordByte0_ofNat, wordByte1_ofNat, wordByte2_ofNat]
    rfl

/-- Settles O23, by the three cases of padding, and in each by whether a symbol looked up has the sentinel. -/
theorem sdFinalBytes : Obligations.SdFinalBytes := by
  intro s v
  obtain ⟨k, bytes, n, hnone⟩ := setDecoder_none_eq s
  refine ⟨fun h3 => exec_sdFinal (decodeFinal_unpadded h3), fun h3 h2 => ?_, fun h3 h2 => ?_⟩
  · refine ⟨fun hbad => ⟨k, bytes, n, ?_⟩, fun h0 h1 h2' => ?_⟩
    · rw [exec_sdFinal ((decodeFinal_onePad h3 h2).trans (if_pos hbad)), hnone]
    · rw [exec_sdFinal ((decodeFinal_onePad h3 h2).trans (if_neg (not_or.2 ⟨h0, not_or.2 ⟨h1, h2'⟩⟩)))]
      simp only [setDecoder_some, valueWord_three, wordByte0_ofNat, wordByte1_ofNat]
      rfl
  · refine ⟨fun hbad => ⟨k, bytes, n, ?_⟩, fun h0 h1 => ?_⟩
    · rw [exec_sdFinal ((decodeFinal_twoPad h3 h2).trans (if_pos hbad)), hnone]
    · rw [exec_sdFinal ((decodeFinal_twoPad h3 h2).trans (if_neg (not_or.2 ⟨h0, h1⟩)))]
      simp only [setDecoder_some, valueWord_two, wordByte0_ofNat]
      rfl

/-- Settles O24, from the inverse of each of the encoder's groups. -/
theorem scalarInverse : Obligations.ScalarInverse := by
  intro s gives
  refine ⟨⟨_, _, rfl, rfl, ?_⟩, ⟨_, _, rfl, rfl, ?_⟩, ⟨_, _, rfl, rfl, ?_⟩, ⟨_, _, rfl, rfl, ?_⟩⟩
  · exact setDecoder_answers _ (decodeAnswer_encodeGroup s.config false _ _ _) (by simp)
  · exact setDecoder_answers _ (decodeAnswer_encodeTail2 s.config _ _) (by simp)
  · exact setDecoder_answers _ (decodeAnswer_encodeTail1 s.config _) (by simp)
  · exact setDecoder_answers _ (decodeAnswer_encodeGroup s.config true _ _ _) (by simp)

end

section
/-! SUPPORT. The shared vector units in the terms of their rules (42_vector_units.md R161 to R167): a control byte as a
number, the lane function as a search for the lowest entry that hits, and the lanes of `RCU.ENC` beyond the alphabet. -/

namespace Sys2Proof.Machine

/-! ## The shuffle -/

/-- Bit 7 of a control byte, as a digit of its value (R161). -/
theorem getLsbD_seven_iff (ctl : Byte) : ctl.getLsbD 7 = true ↔ ctl.toNat / 128 = 1 := by
  have := ctl.isLt
  rw [BitVec.getLsbD, Nat.testBit_eq_decide_div_mod_eq, decide_eq_true_iff]
  omega

/-- The low four bits of a control byte, as a remainder of its value (R161). -/
theorem toNat_extractLsb'_zero_four (ctl : Byte) : (ctl.extractLsb' 0 4).toNat = ctl.toNat % 16 := by
  rw [BitVec.extractLsb'_toNat, Nat.shiftRight_zero]

/-- Lane `i` of half `h` of the shuffle, by the value of its control byte (R161). -/
theorem lane_shuffle_half {n h : Nat} (v : List Byte) (ctls : Vector Byte 16) (i : Fin 16) (hn : 16 * h + i < n) :
    lane (shuffle n v ctls) (16 * h + i) =
      if ctls[i].toNat / 128 = 1 then 0#8 else lane v (16 * h + ctls[i].toNat % 16) := by
  have hm : (16 * h + i.val) % 16 = i := by omega
  have hd : (16 * h + i.val) / 16 = h := by omega
  simp only [lane_shuffle v ctls hn, hm, hd, getLsbD_seven_iff, toNat_extractLsb'_zero_four, Fin.getElem_fin]

/-! ## The lane function -/

/-- An entry hits when it holds a range that contains the byte (R164). -/
theorem entryHits_iff {e : RangeEntry} {x : Byte} :
    entryHits e x = true ↔ e.valid = true ∧ e.lo.toNat ≤ x.toNat ∧ x.toNat ≤ e.hi.toNat := by
  rw [entryHits, Bool.and_eq_true, inrange8_iff]

/-- The answer of a list of entries is that of the entry the library's search finds (R164). -/
theorem firstHit_eq_map_find? (x : Byte) (t : List RangeEntry) :
    firstHit x t = (t.find? (entryHits · x)).map fun e => add8 x e.off := by
  induction t with
  | nil => rfl
  | cons e rest ih =>
    by_cases he : entryHits e x = true
    · simp [firstHit, he]
    · simp [firstHit, he, ih]

/-- A table none of whose entries hits has no hit (R164). -/
theorem rangeCompare_eq_none {x : Byte} {t : Vector RangeEntry 8} (h : ∀ j : Fin 8, ¬entryHits t[j] x = true) :
    rangeCompare x t = none := by
  refine firstHit_none fun e he => ?_
  obtain ⟨j, rfl⟩ := mem_toList_iff.1 he
  exact Bool.eq_false_iff.2 (h j)

/-- The lowest entry that hits gives the answer of the table (R164). -/
theorem rangeCompare_of_lowest {x : Byte} {t : Vector RangeEntry 8} {j : Fin 8} (hj : entryHits t[j] x = true)
    (hlow : ∀ k, k < j → ¬entryHits t[k] x = true) : rangeCompare x t = some (add8 x t[j].off) := by
  have hfind : t.toList.find? (entryHits · x) = some t[j] := by
    refine List.find?_eq_some_iff_getElem.2 ⟨hj, j, by simp, by simp, fun k hk => ?_⟩
    simpa using hlow ⟨k, hk.trans j.isLt⟩ hk
  rw [rangeCompare, firstHit_eq_map_find?, hfind, Option.map_some]

/-- `add8` reduces the sum modulo 256 (R16). -/
theorem add8_eq_ofNat_mod (a b : Byte) : add8 a b = BitVec.ofNat 8 ((a.toNat + b.toNat) % 256) :=
  BitVec.eq_of_toNat_eq (by simp [add8])

/-! ## The lanes of `RCU.ENC` and `RCU.DEC` -/

/-- No entry of `RC_ENC` holds a byte of 64 or more (R27). -/
theorem not_entryHits_rcEnc (c : WfConfiguration) {x : Byte} (hx : 64 ≤ x.toNat) (j : Fin 8) :
    ¬entryHits c.regs.rcEnc[j] x = true := by
  intro h
  obtain ⟨hv, -, hhi⟩ := entryHits_iff.1 h
  have hle : c.regs.rcEnc[j].hi.toNat ≤ 63 := (c.ok.rcEncBounds j hv).2
  omega

/-- A lane of `RCU.ENC` that holds no 6-bit value is zero (R165, R167). -/
theorem encodeLane_of_ge (c : WfConfiguration) {x : Byte} (hx : 64 ≤ x.toNat) : encodeLane c.regs x = 0x00#8 := by
  rw [encodeLane, rangeCompare_eq_none (not_entryHits_rcEnc c hx)]

/-- A lane of `RCU.ENC` below 64 is the symbol of its low six bits, which are all of it (R165, R167). -/
theorem encodeLane_of_lt (c : WfConfiguration) {x : Byte} (hx : x.toNat < 64) :
    encodeLane c.regs x = symbolOf c.regs (x.setWidth 6) := by
  have hlow : (x.setWidth 6).setWidth 8 = x := BitVec.eq_of_toNat_eq (by simp; omega)
  rw [← encodeLane_eq_symbolOf, hlow]

/-- Lane `i` of `RCU.ENC` (R165). -/
theorem lane_rcuEnc {s : State} {i : Nat} (hi : i < s.lanes) :
    lane (rcuEnc s).units.rcuOut i = encodeLane s.config.regs (lane s.units.rcuV i) := lane_lanesFrom _ hi

/-- Lane `i` of `RCU.DEC` is the entry of the decode map (R166, R167). -/
theorem lane_rcuDec {s : State} {i : Nat} (hi : i < s.lanes) :
    lane (rcuDec s).units.rcuOut i = valueOf s.config.regs (lane s.units.rcuV i) :=
  (lane_lanesFrom _ hi).trans (decodeLane_eq_valueOf _ _)

/-- The flag `ANYBAD` after `RCU.DEC`: a lane gave the sentinel (R166, R167). -/
theorem rcuDec_vdAnybad (s : State) : (rcuDec s).units.vdAnybad = true ↔
    ∃ i < s.lanes, lane (rcuDec s).units.rcuOut i = sentinel := by
  rw [rcuDec, List.any_eq_true]
  refine exists_congr fun i => ?_
  rw [List.mem_range]
  refine and_congr_right fun hi => ?_
  rw [badLane_iff, ← lane_rcuDec hi]
  rfl

end Sys2Proof.Machine

open Sys2Proof Sys2Proof.Machine

/-- Settles O25, by reading each control byte as a number. -/
theorem spuShufLanes : Obligations.SpuShufLanes := by
  refine ⟨rfl, fun s => ⟨_, rfl, length_lanesFrom _ _, fun h hh i => ?_⟩⟩
  exact lane_shuffle_half _ _ i (by omega)

/-- Settles O26: the lane function is a search for the first entry that hits. -/
theorem rangeCompareLowestHit : Obligations.RangeCompareLowestHit := by
  intro x t
  simp only [← entryHits_iff, ← add8_eq_ofNat_mod]
  exact ⟨rangeCompare_eq_none, fun _ => rangeCompare_of_lowest⟩

/-- Settles O27: `RC_ENC` covers the values below 64 with the alphabet's symbols, and none of its entries reaches past
63. -/
theorem rcuEncIsAlphabet : Obligations.RcuEncIsAlphabet := by
  intro s
  refine ⟨_, rfl, length_lanesFrom _ _, fun i hi => ⟨fun hlt => ?_, fun hge => ?_⟩⟩
  · exact (lane_rcuEnc hi).trans (encodeLane_of_lt _ hlt)
  · exact (lane_rcuEnc hi).trans (encodeLane_of_ge _ hge)

/-- Settles O28: `RC_DEC` has a hit exactly for the bytes with a value, and answers it. -/
theorem rcuDecIsDecodeMap : Obligations.RcuDecIsDecodeMap :=
  fun s => ⟨_, _, rfl, length_lanesFrom _ _, fun _ hi => lane_rcuDec hi, rcuDec_vdAnybad s⟩

end

section
/-! SUPPORT. The vector engines in the terms of their rules (43_vector_engines.md R191 to R203): word lanes as numbers,
what the two shuffle constants, the split and the merge make of them, and an iteration's bytes group by group. -/

namespace Sys2Proof.Machine

/-! ## Word lanes as numbers -/

/-- The word of a word lane, as R35 puts its byte lanes together. -/
theorem wordLane_toNat_or (v : List Byte) (g : Nat) : (wordLane v g).toNat =
    (lane v (4 * g)).toNat ||| (lane v (4 * g + 1)).toNat <<< 8 ||| (lane v (4 * g + 2)).toNat <<< 16 |||
      (lane v (4 * g + 3)).toNat <<< 24 := by
  have h : (wordLane v g).toNat =
      (lane v (4 * g + 3) ++ lane v (4 * g + 2) ++ lane v (4 * g + 1) ++ lane v (4 * g)).toNat := rfl
  rw [h, BitVec.toNat_append, BitVec.toNat_append, BitVec.toNat_append]
  simp only [Nat.shiftLeft_or_distrib, ← Nat.shiftLeft_add, Nat.reduceAdd]
  rw [Nat.or_comm, Nat.or_comm _ (_ <<< 8), Nat.or_comm _ (_ <<< 16), Nat.or_assoc, Nat.or_assoc]

/-- A byte lane, taken out of its word lane (R35). -/
theorem lane_toNat_eq_shiftRight (v : List Byte) (g : Nat) {k : Nat} (hk : k < 4) :
    (lane v (4 * g + k)).toNat = (wordLane v g).toNat >>> (8 * k) % 256 := by
  have h0 := (lane v (4 * g)).isLt
  have h1 := (lane v (4 * g + 1)).isLt
  have h2 := (lane v (4 * g + 2)).isLt
  have h3 := (lane v (4 * g + 3)).isLt
  rw [wordLane_toNat, Nat.shiftRight_eq_div_pow]
  match k, hk with
  | 0, _ | 1, _ | 2, _ | 3, _ => simp only [Nat.add_zero, Nat.mul_zero, Nat.reduceMul, Nat.reducePow]; omega

/-! ## The shuffle constants -/

/-- A word lane of the shuffle with `ENC_SHUF`: the word of the three bytes of its group (R192). -/
theorem wordLane_shuffle_encShuf (c : WfConfiguration) {n h g : Nat} (v : List Byte) (hg : g < 4)
    (hn : 16 * h + 16 ≤ n) : (wordLane (shuffle n v c.regs.encShuf) (4 * h + g)).toNat =
      (lane v (16 * h + 3 * g)).toNat <<< 16 ||| (lane v (16 * h + 3 * g + 1)).toNat <<< 8 |||
        (lane v (16 * h + 3 * g + 2)).toNat := by
  have hd : (4 * h + g) / 4 = h := by omega
  have hm : (4 * h + g) % 4 = g := by omega
  have place (k : Nat) (hk : k < 4) : lane (shuffle n v c.regs.encShuf) (4 * (4 * h + g) + k) =
      if k = 3 then 0#8 else lane v (16 * h + 3 * g + (2 - k)) := by
    rw [lane_shuffle_encShuf c v hk (by omega), hd, hm]
  have low : lane (shuffle n v c.regs.encShuf) (4 * (4 * h + g)) = lane v (16 * h + 3 * g + 2) := place 0 (by decide)
  have middle : lane (shuffle n v c.regs.encShuf) (4 * (4 * h + g) + 1) = lane v (16 * h + 3 * g + 1) :=
    place 1 (by decide)
  have high : lane (shuffle n v c.regs.encShuf) (4 * (4 * h + g) + 2) = lane v (16 * h + 3 * g) := place 2 (by decide)
  have top : lane (shuffle n v c.regs.encShuf) (4 * (4 * h + g) + 3) = 0#8 := place 3 (by decide)
  rw [wordLane_toNat_or, low, middle, high, top, BitVec.toNat_zero, Nat.zero_shiftLeft, Nat.or_zero, Nat.or_comm,
    Nat.or_comm _ (_ <<< 8), Nat.or_assoc]

/-- Lane `3g + k` of a half of the shuffle with `DEC_SHUF`: byte `k` of word lane `g`, the most significant of the three
useful ones first (R200). -/
theorem lane_shuffle_decShuf_group (c : WfConfiguration) {n h g k : Nat} (v : List Byte) (hg : g < 4) (hk : k < 3)
    (hn : 16 * h + 16 ≤ n) : (lane (shuffle n v c.regs.decShuf) (16 * h + 3 * g + k)).toNat =
      (wordLane v (4 * h + g)).toNat >>> (8 * (2 - k)) % 256 := by
  have hsrc : 16 * h + 4 * ((3 * g + k) / 3) + (2 - (3 * g + k) % 3) = 4 * (4 * h + g) + (2 - k) := by omega
  rw [Nat.add_assoc, lane_shuffle_decShuf c v (by omega) (by omega), hsrc, lane_toNat_eq_shiftRight _ _ (by omega)]

/-- The last four control bytes of `DEC_SHUF` have bit 7 set (R25, R200). -/
theorem decShuf_control_slack (c : WfConfiguration) (r : Fin 16) (hr : 12 ≤ r.val) :
    c.regs.decShuf[r].toNat / 128 = 1 := by
  rw [show c.regs.decShuf = _ from c.ok.decShufFixed]
  revert r
  decide

/-- Lanes 12 to 15 of a half of the shuffle with `DEC_SHUF` are zero (R200). -/
theorem lane_shuffle_decShuf_slack (c : WfConfiguration) {n h i : Nat} (v : List Byte) (hi : 12 ≤ i) (hi' : i < 16)
    (hn : 16 * h + 16 ≤ n) : lane (shuffle n v c.regs.decShuf) (16 * h + i) = 0#8 := by
  rw [lane_shuffle_half v _ ⟨i, hi'⟩ (show 16 * h + i < n by omega), if_pos (decShuf_control_slack c ⟨i, hi'⟩ hi)]

/-! ## The split and the merge -/

/-- Byte lane `4g + k` of the split: field `k` of word lane `g`, as R193 shifts and masks it out. -/
theorem splitLane_toNat (v : List Byte) (g : Nat) {k : Nat} (hk : k < 4) :
    (splitLane v (4 * g + k)).toNat = (wordLane v g).toNat >>> (18 - 6 * k) &&& 0x3F := by
  have hd : (4 * g + k) / 4 = g := by omega
  have hm : (4 * g + k) % 4 = k := by omega
  have mask (n : Nat) : n &&& 0x3F = n % 64 := Nat.and_two_pow_sub_one_eq_mod n 6
  rw [splitLane, hd, hm, BitVec.toNat_and, BitVec.toNat_setWidth, BitVec.toNat_ushiftRight, BitVec.toNat_ofNat]
  exact (mask _).trans ((Nat.mod_mod_of_dvd _ (by decide)).trans (mask _).symm)

/-- The word `w` of the four values of group `g`, as R199 puts them together. -/
def mergedValue (v : List Byte) (g : Nat) : Nat :=
  (lane v (4 * g)).toNat <<< 18 ||| (lane v (4 * g + 1)).toNat <<< 12 ||| (lane v (4 * g + 2)).toNat <<< 6 |||
    (lane v (4 * g + 3)).toNat

/-- Byte lane `4g + k` of the merge below the top one: byte `k` of the word (R199). -/
theorem mergeLane_toNat (v : List Byte) (g : Nat) {k : Nat} (hk : k < 3) :
    (mergeLane v (4 * g + k)).toNat = mergedValue v g >>> (8 * k) % 256 := by
  rw [mergeLane_eq v g hk, valueWord_eq_ofNat, extractLsb'_ofNat _ (by omega), BitVec.toNat_ofNat]
  rfl

/-- The top byte lane of each word lane of the merge is zero (R199). -/
theorem mergeLane_top (v : List Byte) (g : Nat) : mergeLane v (4 * g + 3) = 0#8 := if_pos (by omega)

/-- Four 6-bit values make a word of 24 bits (R199). -/
theorem mergedValue_lt {v : List Byte} {g : Nat} (hv : ∀ k < 4, (lane v (4 * g + k)).toNat < 64) :
    mergedValue v g < 2 ^ 24 := by
  have h0 : (lane v (4 * g)).toNat < 64 := hv 0 (by decide)
  have h1 := hv 1 (by decide)
  have h2 := hv 2 (by decide)
  have h3 := hv 3 (by decide)
  simp only [mergedValue, Nat.shiftLeft_eq]
  exact Nat.or_lt_two_pow (Nat.or_lt_two_pow (Nat.or_lt_two_pow (by omega) (by omega)) (by omega)) (by omega)

/-- A word lane whose three low byte lanes are those of a 24-bit number, and whose top one is zero, is that number. -/
theorem wordLane_toNat_of_bytes {v : List Byte} {g w : Nat} (hw : w < 2 ^ 24)
    (hlow : ∀ k < 3, (lane v (4 * g + k)).toNat = w >>> (8 * k) % 256) (htop : lane v (4 * g + 3) = 0#8) :
    (wordLane v g).toNat = w := by
  have h0 : (lane v (4 * g)).toNat = w % 256 := hlow 0 (by decide)
  rw [wordLane_toNat, htop, hlow 2 (by decide), hlow 1 (by decide), h0]
  simp only [BitVec.toNat_ofNat, Nat.shiftRight_eq_div_pow, Nat.reduceMul, Nat.reducePow]
  omega

/-! ## The iterations, group by group -/

/-- The symbols of group `t` of a window are those of `SE.GROUP` on its three bytes (R195). -/
theorem symbolAt_group (c : Configuration) (m : Memory) (a t : Nat) (j : Fin 4) : symbolAt c m a (4 * t + j) =
    (encodeGroup c (m.read (a + 3 * t)) (m.read (a + 3 * t + 1)) (m.read (a + 3 * t + 2)))[j] := by
  have hd : (4 * t + j.val) / 4 = t := by omega
  have hm : (4 * t + j.val) % 4 = j := by omega
  rw [symbolAt, hd, hm]
  match j with
  | 0 | 1 | 2 | 3 => rfl

/-- The bytes of group `t` of a window are those of `SD.GROUP` on the values of its four symbols (R202). -/
theorem rawByteAt_group (c : Configuration) (m : Memory) (a t : Nat) {j : Nat} (hj : j < 3) :
    let w := valueWord (valueOf c (m.read (a + 4 * t))) (valueOf c (m.read (a + 4 * t + 1)))
      (valueOf c (m.read (a + 4 * t + 2))) (valueOf c (m.read (a + 4 * t + 3)))
    rawByteAt c m a (3 * t + j) = [wordByte0 w, wordByte1 w, wordByte2 w].getD j 0#8 := by
  have hd : (3 * t + j) / 3 = t := by omega
  have hm : (3 * t + j) % 3 = j := by omega
  rw [rawByteAt, hd, hm]
  match j, hj with
  | 0, _ | 1, _ | 2, _ => rfl

/-- Byte `i` of lanes that have been stored (R64). -/
theorem StoredAt.read_lanesFrom {s : State} {m : Memory} {a n : Nat} {f : Nat → Byte}
    (h : StoredAt s m a (lanesFrom n f)) (x : Nat) : m.read x = if a ≤ x ∧ x < a + n then f (x - a) else s.mem.read x := by
  rw [h.2, storedByte, length_lanesFrom]
  refine ite_congr rfl (fun hx => getD_lanesFrom f (by omega) _) fun _ => rfl

/-- The byte at `a + i`, inside the stored range, is lane `i` (R64). -/
theorem StoredAt.read_add {s : State} {m : Memory} {a n i : Nat} {f : Nat → Byte} (h : StoredAt s m a (lanesFrom n f))
    (hi : i < n) : m.read (a + i) = f i := by
  rw [h.read_lanesFrom, if_pos (by omega), Nat.add_sub_cancel_left]

/-- A decode load whose bytes are there (R197). -/
theorem vdLoad_of_sourceHolds {s : State} (hs : s.SourceHolds s.lanes) :
    vdLoad s = .ok (setVd (s.mem.readBytes s.srcAddr s.lanes) s) := by
  rw [vdLoad, memRead_of_inside hs.1 hs.2, andThen_ok]

/-- A decode iteration one of whose symbols has no value ends after its translation (R203). -/
theorem vdIter_abandoned {s : State} (hs : s.SourceHolds s.lanes)
    (hbad : ∃ i < s.lanes, valueOf s.config.regs (s.nextByte i) = sentinel) :
    vdIter s = .ok (vdTranslate (setVd (s.mem.readBytes s.srcAddr s.lanes) s)) := by
  rw [vdIter, vdLoad_of_sourceHolds hs, andThen_ok]
  exact if_pos ((vdTranslate_load_vdAnybad s).2 hbad)

/-- A decode iteration whose symbols all have values is not abandoned (R202). -/
theorem vdIter_vdAnybad_of_valued {s t : State} (hs : s.SourceHolds s.lanes)
    (hgood : ∀ i < s.lanes, valueOf s.config.regs (s.nextByte i) ≠ sentinel) (h : vdIter s = .ok t) :
    t.units.vdAnybad = false := by
  have hno : ¬(vdTranslate (setVd (s.mem.readBytes s.srcAddr s.lanes) s)).units.vdAnybad = true := fun hyes => by
    obtain ⟨i, hi, hv⟩ := (vdTranslate_load_vdAnybad s).1 hyes
    exact hgood i hi hv
  rw [vdIter, vdLoad_of_sourceHolds hs, andThen_ok] at h
  obtain ⟨m, rfl, -⟩ := storeHalves_ok ((if_neg hno).symm.trans h)
  exact Bool.eq_false_iff.2 hno

end Sys2Proof.Machine

open Sys2Proof Sys2Proof.Machine

/-- Settles O29: the halves of the load, one after the other, are the whole vector. -/
theorem veLoadLanes : Obligations.VeLoadLanes := by
  intro s hs
  obtain ⟨v, hv⟩ := loadHalves_of_sourceHolds hs
  obtain ⟨hlen, hlane⟩ := loadHalves_ok hv
  have hfull : 16 * (s.lanes / 16) = s.lanes := by rcases lanes_cases s with h | h | h <;> omega
  refine ⟨v, outcome_next_iff.2 (by rw [veLoad, hv, andThen_ok]; rfl), hlen.trans hfull, fun h hh i hi => ?_⟩
  rw [hlane h hh i hi, State.nextByte, Nat.add_assoc]

/-- Settles O30: each word lane of the output with `ENC_SHUF`, and each lane of it with `DEC_SHUF`, on its own. -/
theorem shuffleConstants : Obligations.ShuffleConstants := by
  refine fun s => ⟨_, rfl, length_lanesFrom _ _, fun hc h hh g hg => ?_,
    fun hc h hh => ⟨fun g hg => ?_, fun i hi hi' => ?_⟩⟩
  · rw [hc]
    exact wordLane_shuffle_encShuf s.config _ hg (by omega)
  · rw [hc]
    have group (k : Nat) (hk : k < 3) :=
      lane_shuffle_decShuf_group s.config s.units.spuV hg hk (show 16 * h + 16 ≤ s.lanes by omega)
    exact ⟨group 0 (by decide), group 1 (by decide), group 2 (by decide)⟩
  · rw [hc]
    exact lane_shuffle_decShuf_slack s.config _ hi hi' (by omega)

/-- Settles O31, field by field. -/
theorem veSplitFields : Obligations.VeSplitFields := by
  refine ⟨rfl, fun s => ⟨_, rfl, length_lanesFrom _ _, fun g hg => ?_⟩⟩
  have field (k : Nat) (hk : k < 4) : (lane (lanesFrom s.lanes (splitLane s.units.veV)) (4 * g + k)).toNat = _ :=
    (congrArg BitVec.toNat (lane_lanesFrom _ (by omega))).trans (splitLane_toNat s.units.veV g hk)
  simp only [wordLane_toNat_or] at field
  exact ⟨field 0 (by decide), field 1 (by decide), field 2 (by decide), field 3 (by decide)⟩

/-- Settles O32: one write of all the lanes. -/
theorem veStoreBytes : Obligations.VeStoreBytes := by
  intro s hw hd
  obtain ⟨t, ht⟩ := veStore_completes hd
  obtain ⟨-, hm, rfl⟩ := veStore_ok ht
  have hstored := storedAt_writeBytes (bytes := lanesFrom s.lanes (lane s.units.veV)) hw (by simpa using hm)
  exact ⟨_, outcome_next_iff.2 ht, hstored.1, hstored.read_lanesFrom⟩

/-- Settles O33: the symbols an iteration writes, taken four at a time, are those of the scalar groups. -/
theorem veIterEqualsScalarGroups : Obligations.VeIterEqualsScalarGroups := by
  intro s hw hs hd
  obtain ⟨t, ht⟩ := veIter_completes hs hd
  obtain ⟨-, -, hm, u, rfl⟩ := veIter_writes ht
  have hstored := storedAt_writeBytes (bytes := lanesFrom s.lanes (symbolAt s.config.regs s.mem s.srcAddr)) hw
    (by simpa using hm)
  refine ⟨u, _, outcome_next_iff.2 ht, hstored.1, fun g hg => ⟨_, rfl, fun j => ?_⟩, fun a ha => ?_⟩
  · rw [window_eq] at hg
    rw [Nat.add_assoc, hstored.read_add (by omega)]
    exact symbolAt_group _ _ _ _ j
  · rw [hstored.read_lanesFrom, if_neg ha]

/-- Settles O34: the load is one read of the vector. -/
theorem vdLoadLanes : Obligations.VdLoadLanes := fun _ hs =>
  ⟨_, outcome_next_iff.2 (vdLoad_of_sourceHolds hs), Memory.length_readBytes _ _ _, fun _ hi => lane_readBytes _ _ hi⟩

/-- Settles O35: byte lane by byte lane, which together are the word when it has 24 bits. -/
theorem vdMergeWords : Obligations.VdMergeWords := by
  refine ⟨rfl, fun s => ⟨_, rfl, length_lanesFrom _ _, fun g hg => ?_⟩⟩
  have byte (k : Nat) (hk : k < 3) : (lane (lanesFrom s.lanes (mergeLane s.units.vdV)) (4 * g + k)).toNat =
      mergedValue s.units.vdV g >>> (8 * k) % 256 :=
    (congrArg BitVec.toNat (lane_lanesFrom _ (by omega))).trans (mergeLane_toNat s.units.vdV g hk)
  have top : lane (lanesFrom s.lanes (mergeLane s.units.vdV)) (4 * g + 3) = 0#8 :=
    (lane_lanesFrom _ (by omega)).trans (mergeLane_top _ _)
  exact ⟨byte 0 (by decide), byte 1 (by decide), byte 2 (by decide), top,
    fun hv => wordLane_toNat_of_bytes (mergedValue_lt hv) byte top⟩

/-- Settles O36, half by half. -/
theorem vdStoreBytes : Obligations.VdStoreBytes := by
  intro s hw hd
  obtain ⟨t, ht⟩ := vdStore_completes hd
  obtain ⟨-, m, rfl, hstored⟩ := vdStore_writes hw ht
  exact ⟨m, outcome_next_iff.2 ht, hstored.1, hstored.read_lanesFrom⟩

/-- Settles O37: the flag decides which end the iteration takes, and the bytes a whole one writes, taken three at a time,
are those of the scalar groups. -/
theorem vdIterEqualsScalarGroups : Obligations.VdIterEqualsScalarGroups := by
  refine fun s hs => ⟨fun hbad => ?_, fun hgood hw hd => ?_⟩
  · exact ⟨_, outcome_next_iff.2 (vdIter_abandoned hs hbad), (vdTranslate_load_vdAnybad s).2 hbad⟩
  · obtain ⟨t, ht⟩ := vdIter_completes hs hd
    have hno := vdIter_vdAnybad_of_valued hs hgood ht
    obtain ⟨-, ⟨hyes, -⟩ | ⟨-, -, -, u, m, rfl, hstored⟩⟩ := vdIter_writes hw ht
    · exact absurd (hyes.symm.trans hno) (by decide)
    refine ⟨u, m, outcome_next_iff.2 ht, hno, hstored.1, fun g hg => ?_, fun a ha => ?_⟩
    · have valued (k : Nat) (hk : k < 4) := hgood (4 * g + k) (by omega)
      have hgroup := decodeAnswer_of_valued false (valued 0 (by decide)) (valued 1 (by decide)) (valued 2 (by decide))
        (valued 3 (by decide))
      refine ⟨_, exec_sdGroup hgroup, rfl, fun j hj => ?_⟩
      rw [Nat.add_assoc, hstored.read_add (by rw [window_eq]; omega)]
      exact rawByteAt_group _ _ _ _ hj
    · rw [hstored.read_lanesFrom, if_neg ha]

end

section
/-! SUPPORT. The steps of the sequencer as equations (44_chunk_driver.md R212 to R222): which of its ends each step comes
to, and the state it leaves there. -/

namespace Sys2Proof.Machine

/-! ## What is left of the regions, by the cursors -/

/-- The next `n` source bytes lie in the source region (R63). -/
theorem insideSource_srcAddr {s : State} {n : Nat} (h : s.consumed.toNat + n ≤ s.latch.srcLen.toNat) :
    insideSource s.latch s.srcAddr n = true := by
  rw [insideSource_iff, State.srcAddr]
  omega

/-- The next `n` destination bytes lie in the destination region (R64). -/
theorem insideDestination_dstAddr {s : State} {n : Nat} (h : s.written.toNat + n ≤ s.latch.dstCap.toNat) :
    insideDestination s.latch s.dstAddr n = true := by
  rw [insideDestination_iff, State.dstAddr]
  omega

/-- The guard of the bulk loop, by the cursors (R213). -/
theorem bulkOk_iff {s : State} (hop : s.latch.op = opEnc ∨ s.latch.op = opDec)
    (h : s.lanes ≠ 0 ∨ s.consumed.toNat ≤ s.latch.srcLen.toNat ∧ s.written.toNat ≤ s.latch.dstCap.toNat) :
    bulkOk s = true ↔ s.consumed.toNat + s.lanes ≤ s.latch.srcLen.toNat ∧
      s.written.toNat + (if s.latch.op = opEnc then s.lanes else s.window) ≤ s.latch.dstCap.toNat := by
  have hl := lanes_cases s
  have hw := window_eq s
  rcases hop with hop | hop
  · rw [bulkOk, if_pos hop, if_pos hop, decide_eq_true_iff, State.remaining, State.room]
    omega
  · have hne : s.latch.op ≠ opEnc := by rw [hop]; decide
    rw [bulkOk, if_neg hne, if_neg hne, if_pos hop, decide_eq_true_iff, State.remaining, State.room]
    omega

/-- The guard after an iteration that counts `r` source and `w` destination bytes (R213, R215, R219). -/
theorem bulkOk_advance_iff {s : State} {r w : Nat} (hop : s.latch.op = opEnc ∨ s.latch.op = opDec)
    (hr : s.consumed.toNat + r ≤ s.latch.srcLen.toNat) (hw : s.written.toNat + w ≤ s.latch.dstCap.toNat) :
    bulkOk (advance r w s) = true ↔ s.consumed.toNat + r + s.lanes ≤ s.latch.srcLen.toNat ∧
      s.written.toNat + w + (if s.latch.op = opEnc then s.lanes else s.window) ≤ s.latch.dstCap.toNat := by
  have hc := toNat_add_ofNat hr
  have hd := toNat_add_ofNat hw
  have h := bulkOk_iff (s := advance r w s) hop (.inr ⟨hc.trans_le hr, hd.trans_le hw⟩)
  rw [advance_consumed, advance_written, hc, hd] at h
  exact h

/-! ## The step enabled in each phase -/

theorem sequencerStep_encBulk {s : State} (hp : s.phase = .bulkTransform) (hop : s.latch.op = opEnc) :
    sequencerStep s = outcome (encBulk s) := by
  rw [sequencerStep_bulk hp, bulkStep, if_pos hop]

theorem sequencerStep_decBulk {s : State} (hp : s.phase = .bulkTransform) (hop : s.latch.op = opDec) :
    sequencerStep s = outcome (decBulk s) := by
  rw [sequencerStep_bulk hp, bulkStep, if_neg (by rw [hop]; decide), if_pos hop]

theorem sequencerStep_encGroup {s : State} (hp : s.phase = .tailTransform) (hop : s.latch.op = opEnc)
    (hr : 3 ≤ s.remaining) : sequencerStep s = outcome (encGroup s) := by
  rw [sequencerStep_tail hp, tailStep, if_pos hop, if_pos hr]

theorem sequencerStep_encTrail {s : State} (hp : s.phase = .tailTransform) (hop : s.latch.op = opEnc)
    (hr : s.remaining < 3) : sequencerStep s = outcome (encTrail s) := by
  rw [sequencerStep_tail hp, tailStep, if_pos hop, if_neg (Nat.not_le.2 hr)]

theorem sequencerStep_decGroup {s : State} (hp : s.phase = .tailTransform) (hop : s.latch.op = opDec)
    (hr : 4 ≤ s.remaining) : sequencerStep s = outcome (decGroup s) := by
  rw [sequencerStep_tail hp, tailStep, if_neg (by rw [hop]; decide), if_pos hop, if_pos hr]

theorem sequencerStep_decTrail {s : State} (hp : s.phase = .tailTransform) (hop : s.latch.op = opDec)
    (hr : s.remaining < 4) : sequencerStep s = outcome (decTrail s) := by
  rw [sequencerStep_tail hp, tailStep, if_neg (by rw [hop]; decide), if_pos hop, if_neg (Nat.not_le.2 hr)]

/-! ## Scan and the bulk loop -/

/-- A choice between two phases. -/
theorem ite_with_phase {P : Prop} [Decidable P] (s : State) (p q : Phase) :
    (if P then { s with phase := p } else { s with phase := q }) = { s with phase := if P then p else q } := by
  split <;> rfl

/-- Step Scan, by the cursors (R212, R213). -/
theorem scan_eq {s : State} (hop : s.latch.op = opEnc ∨ s.latch.op = opDec) : scan s = { s with phase :=
    if s.config.regs.cap ≠ 0#2 ∧ s.consumed.toNat + s.lanes ≤ s.latch.srcLen.toNat ∧
        s.written.toNat + (if s.latch.op = opEnc then s.lanes else s.window) ≤ s.latch.dstCap.toNat
    then .bulkTransform else .tailTransform } := by
  have hguard : s.config.regs.cap ≠ 0#2 ∧ bulkOk s = true ↔ s.config.regs.cap ≠ 0#2 ∧ _ :=
    and_congr_right fun hcap => bulkOk_iff hop (.inl (by have := lanes_of_cap_ne_zero hcap; omega))
  simp only [scan, hguard]
  exact ite_with_phase s _ _

/-- The end of an iteration that counts `r` source and `w` destination bytes, with `k` bytes of room needed for the next
(R213, R215, R219). -/
theorem leaveBulkUnlessOk_advance {s : State} {r w k : Nat} (hp : s.phase = .bulkTransform)
    (hop : s.latch.op = opEnc ∨ s.latch.op = opDec) (hk : (if s.latch.op = opEnc then s.lanes else s.window) = k)
    (hr : s.consumed.toNat + r ≤ s.latch.srcLen.toNat) (hw : s.written.toNat + w ≤ s.latch.dstCap.toNat) :
    leaveBulkUnlessOk (advance r w s) = { advance r w s with phase :=
      if s.consumed.toNat + r + s.lanes ≤ s.latch.srcLen.toNat ∧ s.written.toNat + w + k ≤ s.latch.dstCap.toNat
      then .bulkTransform else .tailTransform } := by
  have hguard := bulkOk_advance_iff hop hr hw
  rw [hk] at hguard
  have hstay : advance r w s = { advance r w s with phase := .bulkTransform } := by rw [← hp]; rfl
  simp only [leaveBulkUnlessOk, hguard]
  rw [← ite_with_phase, ← hstay]

/-- Step EncBulk, from its iteration (R215). -/
theorem encBulk_eq {s t : State} (h : veIter s = .ok t) :
    encBulk s = .ok (release (leaveBulkUnlessOk (advance s.window s.lanes t))) := by
  rw [encBulk, h, andThen_ok]

/-- Step DecBulk, from its iteration (R219). -/
theorem decBulk_eq {s t : State} (h : vdIter s = .ok t) :
    decBulk s = .ok (release (if t.units.vdAnybad then { t with phase := .tailTransform }
      else leaveBulkUnlessOk (advance s.lanes s.window t))) := by
  rw [decBulk, h, andThen_ok]

/-! ## The groups of ENC -/

/-- Step EncGroup without room for a group (R216). -/
theorem encGroup_of_full {s : State} (h : s.room < 4) :
    ∃ u n, encGroup s = .ok (ended .destinationTooSmall u n s) := ⟨_, _, if_pos h⟩

/-- A scalar encode step whose bytes are there, in the terms of what its unit puts out (R216, R217). -/
theorem encodeStep_eq {n : Nat} {unit : State → State} {s : State}
    (hunit : ∀ x : State, ∃ u, unit x = { x with units := u }) (hs : s.SourceHolds n) (hd : s.DestinationHolds 4) :
    ∃ u, encodeStep n unit s = .ok (advance n 4 { s with
      units := u
      mem := s.mem.writeBytes s.dstAddr
        (unit (feedEncoder (s.mem.readBytes s.srcAddr n) s)).units.seOut.toList }) := by
  obtain ⟨t, ht⟩ := encodeStep_completes hunit hs hd
  obtain ⟨u, out, rfl, -, -, -, rfl⟩ := encodeStep_ok hunit ht
  exact ⟨u, ht⟩

/-- Step EncGroup with room for a group (R216). -/
theorem encGroup_of_room {s : State} (hroom : 4 ≤ s.room) (hs : s.SourceHolds 3) (hd : s.DestinationHolds 4) :
    ∃ u n, encGroup s = .ok (advance 3 4 { s with
      units := u
      tick := n
      mem := s.mem.writeBytes s.dstAddr
        (encodeGroup s.config.regs (s.nextByte 0) (s.nextByte 1) (s.nextByte 2)).toList }) := by
  obtain ⟨u, hu⟩ := encodeStep_eq seGroup_onlyUnits hs hd
  refine ⟨freeUnits s.lanes s.tick, s.tick + 1, ?_⟩
  rw [encGroup, if_neg (Nat.not_lt.2 hroom), hu, andThen_ok]
  rfl

/-- Step EncTrail with nothing left (R217). -/
theorem encTrail_of_none {s : State} (h : s.remaining = 0) : ∃ u n, encTrail s = .ok (ended .done u n s) :=
  ⟨_, _, if_pos h⟩

/-- Step EncTrail with bytes left and more to come (R217). -/
theorem encTrail_of_more {s : State} (h : s.remaining ≠ 0) (hf : s.latch.final = false) :
    ∃ u n, encTrail s = .ok (ended .needMoreData u n s) := ⟨_, _, (if_neg h).trans (if_pos hf)⟩

/-- Step EncTrail at the end of a final block without room for a group (R217). -/
theorem encTrail_of_full {s : State} (h : s.remaining ≠ 0) (hf : s.latch.final = true) (hroom : s.room < 4) :
    ∃ u n, encTrail s = .ok (ended .destinationTooSmall u n s) :=
  ⟨_, _, ((if_neg h).trans (if_neg (by simp [hf]))).trans (if_pos hroom)⟩

/-- Step EncTrail with two bytes left of a final block (R142, R217). -/
theorem encTrail_of_two {s : State} (h : s.remaining = 2) (hf : s.latch.final = true) (hroom : 4 ≤ s.room)
    (hs : s.SourceHolds 2) (hd : s.DestinationHolds 4) : ∃ u n, encTrail s = .ok (ended .done u n (advance 2 4 { s with
      mem := s.mem.writeBytes s.dstAddr
        (encodeTail2 s.config.regs (s.nextByte 0) (s.nextByte 1)).toList })) := by
  obtain ⟨u, hu⟩ := encodeStep_eq seTail2_onlyUnits hs hd
  refine ⟨freeUnits s.lanes s.tick, s.tick + 1, ?_⟩
  rw [encTrail, if_neg (by omega), if_neg (by simp [hf]), if_neg (Nat.not_lt.2 hroom), if_pos h, hu, andThen_ok]
  rfl

/-- Step EncTrail with one byte left of a final block (R143, R217). -/
theorem encTrail_of_one {s : State} (h : s.remaining = 1) (hf : s.latch.final = true) (hroom : 4 ≤ s.room)
    (hs : s.SourceHolds 1) (hd : s.DestinationHolds 4) : ∃ u n, encTrail s = .ok (ended .done u n (advance 1 4 { s with
      mem := s.mem.writeBytes s.dstAddr (encodeTail1 s.config.regs (s.nextByte 0)).toList })) := by
  obtain ⟨u, hu⟩ := encodeStep_eq seTail1_onlyUnits hs hd
  refine ⟨freeUnits s.lanes s.tick, s.tick + 1, ?_⟩
  rw [encTrail, if_neg (by omega), if_neg (by simp [hf]), if_neg (Nat.not_lt.2 hroom), if_neg (by omega), hu,
    andThen_ok]
  rfl

/-! ## The groups of DEC -/

/-- The group is the last four symbols of a final block (R220). -/
theorem isLastGroup_iff {s : State} : isLastGroup s = true ↔
    s.latch.final = true ∧ s.latch.srcLen.toNat = s.consumed.toNat + 4 := by
  rw [isLastGroup, Bool.and_eq_true, beq_iff_eq, State.remaining]
  exact and_congr_right fun _ => by omega

theorem isLastGroup_eq_false_iff {s : State} : isLastGroup s = false ↔
    s.latch.final = false ∨ s.latch.srcLen.toNat ≠ s.consumed.toNat + 4 := by
  rw [← Bool.not_eq_true, isLastGroup_iff, not_and_or, Bool.not_eq_true]

/-- The next four symbols of a `DEC` (R220). -/
abbrev State.nextSymbols (s : State) : List Byte := [s.nextByte 0, s.nextByte 1, s.nextByte 2, s.nextByte 3]

/-- What the decoder answers to the next four symbols (R220). -/
def State.nextAnswer (s : State) : Option (GroupWord × List Byte) :=
  decodeAnswer s.config.regs (isLastGroup s) s.nextSymbols

/-- The unit of step DecGroup, run by itself on the next four symbols (R220). -/
theorem exec_nextAnswer (s : State) : exec (if isLastGroup s = true then .sdFinal else .sdGroup)
    (s.withSymbols (s.nextByte 0) (s.nextByte 1) (s.nextByte 2) (s.nextByte 3)) =
      .next (setDecoder s.nextAnswer (feedDecoder s.nextSymbols s)) := by
  unfold State.nextAnswer
  cases isLastGroup s <;> rfl

/-- A decoder's answer is at least one byte (R144). -/
theorem decodeAnswer_length_pos {c : Configuration} {last : Bool} {symbols : List Byte} {w : GroupWord}
    {bytes : List Byte} (h : decodeAnswer c last symbols = some (w, bytes)) : 0 < bytes.length := by
  cases last with
  | false => exact (decodeGroup_length h).symm ▸ Nat.succ_pos 2
  | true => exact (decodeFinal_length h).1

/-- Step DecGroup is what follows the decoder's answer (R220). -/
theorem decGroup_eq_end {s : State} (hs : s.SourceHolds 4) :
    decGroup s = decGroupEnd (setDecoder s.nextAnswer (feedDecoder s.nextSymbols s)) := by
  rw [decGroup_eq, memRead_of_inside hs.1 hs.2]
  rfl

/-- Step DecGroup on an invalid group (R220). -/
theorem decGroup_of_invalid {s : State} (hs : s.SourceHolds 4) (h : s.nextAnswer = none) :
    ∃ u n, decGroup s = .ok (ended .invalidData u n s) := by
  rw [decGroup_eq_end hs, h]
  exact ⟨_, _, rfl⟩

/-- Step DecGroup after a valid answer, in the terms of the bytes answered (R220). -/
theorem decGroup_of_valid {s : State} (hs : s.SourceHolds 4) {w : GroupWord} {bytes : List Byte}
    (h : s.nextAnswer = some (w, bytes)) : ∃ u n, decGroup s =
      if s.room < bytes.length then .ok (release (finish .destinationTooSmall { s with units := u, tick := n }))
      else andThen (memWrite { s with units := u, tick := n } s.dstAddr bytes) fun t =>
        .ok (release (advance 4 bytes.length t)) := by
  have hanswer := setDecoder_answers (feedDecoder s.nextSymbols s) h (Nat.lt_succ_of_le (decodeAnswer_length h))
  obtain ⟨u, n, hx, -⟩ := decoder_answer_cases s.config.regs (isLastGroup s) s.nextSymbols s
  change setDecoder s.nextAnswer _ = _ at hx
  rw [decGroup_eq_end hs]
  rw [hx] at hanswer ⊢
  obtain ⟨hok, hk, hout⟩ := hanswer
  refine ⟨u, n, ?_⟩
  rw [decGroupEnd, if_neg (by rw [hok]; decide), hk, hout]
  rfl

/-- Step DecGroup on a valid group whose bytes do not fit (R220). -/
theorem decGroup_of_full {s : State} (hs : s.SourceHolds 4) {w : GroupWord} {bytes : List Byte}
    (h : s.nextAnswer = some (w, bytes)) (hroom : s.room < bytes.length) :
    ∃ u n, decGroup s = .ok (ended .destinationTooSmall u n s) := by
  obtain ⟨u, n, hu⟩ := decGroup_of_valid hs h
  exact ⟨freeUnits s.lanes n, n + 1, hu.trans (if_pos hroom)⟩

/-- Step DecGroup on a valid group whose bytes fit (R220). -/
theorem decGroup_of_room {s : State} (hs : s.SourceHolds 4) {w : GroupWord} {bytes : List Byte}
    (h : s.nextAnswer = some (w, bytes)) (hroom : bytes.length ≤ s.room) (hd : s.DestinationHolds bytes.length) :
    ∃ u n, decGroup s = .ok (advance 4 bytes.length { s with
      units := u, tick := n, mem := s.mem.writeBytes s.dstAddr bytes }) := by
  obtain ⟨u, n, hu⟩ := decGroup_of_valid hs h
  have hwrite := memWrite_of_inside (s := { s with units := u, tick := n }) hd.1 hd.2
  rw [hu, if_neg (Nat.not_lt.2 hroom), hwrite, andThen_ok]
  exact ⟨freeUnits s.lanes n, n + 1, rfl⟩

/-- How a `DEC` ends with `remaining` symbols left that make no group (R221, R226). -/
def trailStatus (final : Bool) (remaining : Nat) : Status :=
  if remaining = 0 then .done else if final = false then .needMoreData else .invalidData

/-- Step DecTrail (R221). -/
theorem decTrail_eq (s : State) :
    ∃ u n, decTrail s = .ok (ended (trailStatus s.latch.final s.remaining) u n s) := by
  unfold decTrail trailStatus
  split
  · exact ⟨_, _, rfl⟩
  · split <;> exact ⟨_, _, rfl⟩

/-! ## Padding -/

section
variable (c : WfConfiguration) {c0 c1 c2 c3 : Byte}

/-- `PAD` has no value (R23, R24). -/
theorem valueOf_pad : valueOf c.regs c.regs.pad = sentinel := c.ok.decmapSentinel _ c.ok.padOutside

/-- In a group that is not the last of a final block no symbol may be `PAD` (R223). -/
theorem decodeGroup_of_pad (h : c0 = c.regs.pad ∨ c1 = c.regs.pad ∨ c2 = c.regs.pad ∨ c3 = c.regs.pad) :
    decodeGroup c.regs c0 c1 c2 c3 = none := by
  refine decodeGroup_of_sentinel (h.imp ?_ (Or.imp ?_ (Or.imp ?_ ?_))) <;> exact fun e => e ▸ valueOf_pad c

/-- In the last group of a final block `PAD` stands in the last place, or in the last two (R224). -/
theorem decodeFinal_of_pad
    (h : c0 = c.regs.pad ∨ c1 = c.regs.pad ∨ c2 = c.regs.pad ∧ c3 ≠ c.regs.pad) :
    decodeFinal c.regs c0 c1 c2 c3 = none := by
  have first : c0 = c.regs.pad ∨ c1 = c.regs.pad → valueOf c.regs c0 = sentinel ∨ valueOf c.regs c1 = sentinel :=
    Or.imp (fun e => e ▸ valueOf_pad c) fun e => e ▸ valueOf_pad c
  by_cases h3 : c3 = c.regs.pad
  · have h' := first (h.imp_right fun h => h.resolve_right fun h => h.2 h3)
    by_cases h2 : c2 = c.regs.pad
    · rw [decodeFinal_twoPad h3 h2, if_pos h']
    · rw [decodeFinal_onePad h3 h2, if_pos (h'.imp_right .inl)]
  · rw [decodeFinal_unpadded h3]
    exact decodeGroup_of_pad c (h.imp_right fun h => h.imp_right fun h => .inl h.1)

end

/-- Some of the next four symbols is `x`, place by place. -/
theorem nextByte_place {s : State} {x : Byte} (h : ∃ i < 4, s.nextByte i = x) :
    s.nextByte 0 = x ∨ s.nextByte 1 = x ∨ s.nextByte 2 = x ∨ s.nextByte 3 = x := by
  obtain ⟨i, hi, rfl⟩ := h
  match i, hi with
  | 0, _ => exact .inl rfl
  | 1, _ => exact .inr (.inl rfl)
  | 2, _ => exact .inr (.inr (.inl rfl))
  | 3, _ => exact .inr (.inr (.inr rfl))

/-! ## The outcomes a command may end with -/

/-- What R227, R250 and R254 say of a step from `s` that ends a command in `t`. -/
def OutcomeOrigin (s t : State) : Prop :=
  (t.status = .invalidData → t.latch.op = opDec) ∧
  (t.status = .needMoreData → t.latch.final = false ∧ (t.latch.op = opEnc ∨ t.latch.op = opDec)) ∧
  (t.status = .destinationTooSmall → t.latch.op = opEnc ∨ t.latch.op = opDec) ∧
  (t.fault ≠ 0#4 → s.phase = .idle ∧ t.fault.toNat ≤ 3 ∧ t.status = .done ∧ t.consumed = 0#32 ∧ t.written = 0#32 ∧
    t.value = 0#32)

/-- Accept ends a command with a fault, or with the value of a length command (R211, R254). -/
theorem Accepted.outcomeOrigin {s s' t : State} (h : Accepted s t) (hidle : s'.phase = .idle)
    (hdone : t.phase = .done) : OutcomeOrigin s' t := by
  rcases h with ⟨l, f, rfl⟩ | ⟨l, v, n, -, rfl⟩ | ⟨l, -, -, rfl⟩
  · exact ⟨nofun, nofun, nofun, fun _ => ⟨hidle, (faultCode_bounds f).2, rfl, rfl, rfl, rfl⟩⟩
  · exact ⟨nofun, nofun, nofun, fun hf => absurd rfl hf⟩
  · cases hdone

/-- A step of a transfer ends it with a status, never with a fault (R214, R227). -/
theorem TransferStep.outcomeOrigin {s t : State} (h : TransferStep s t) (hdone : t.phase = .done) :
    OutcomeOrigin s t := by
  cases h with
  | toBulk => cases hdone
  | toTail => cases hdone
  | iterated u n m r w hs =>
    simp only [leaveBulkUnlessOk_phase, advance_phase, hs] at hdone
    split at hdone <;> cases hdone
  | grouped u n m r w hs => exact absurd (hs.symm.trans hdone) (by decide)
  | closed => exact ⟨nofun, nofun, nofun, fun hf => absurd rfl hf⟩
  | stopped st u n hs hop _ hinvalid hneed =>
    exact ⟨hinvalid, fun e => ⟨hneed e, hop⟩, fun _ => hop, fun hf => absurd rfl hf⟩

/-! ## Accept -/

/-- Accept of a descriptor that is a command (R211). -/
theorem idleStep_of_decode {s : State} {d : Descriptor} {rest : List Descriptor} {i : Instr}
    (ho : s.offers = d :: rest) (hd : decode (.cmd d) = .ok i) : idleStep s = exec i { s with offers := rest } := by
  simp [idleStep, ho, hd]

/-! ## Deliver -/

/-- The fields of a response record are the registers it is formed from, its reserved bits 0 (R94). -/
theorem responseOf_fields (s : State) :
    let r := responseOf s
    r.extractLsb' 0 2 = statusCode s.status ∧ r.extractLsb' 2 2 = 0#2 ∧ r.extractLsb' 4 4 = s.fault ∧
      r.extractLsb' 8 24 = 0#24 ∧ r.extractLsb' 32 32 = s.consumed ∧ r.extractLsb' 64 32 = s.written ∧
      r.extractLsb' 96 32 = s.value := by
  have hr : (responseOf s).toNat = s.value.toNat * 2 ^ 96 + s.written.toNat * 2 ^ 64 + s.consumed.toNat * 2 ^ 32 +
      s.fault.toNat * 2 ^ 4 + (statusCode s.status).toNat := by
    have h : (responseOf s).toNat = (s.value ++ s.written ++ s.consumed ++ 0#24 ++ s.fault ++ 0#2 ++
      statusCode s.status).toNat := rfl
    rw [h]
    simp only [toNat_append_add, BitVec.toNat_ofNat]
    omega
  have h1 := s.value.isLt
  have h2 := s.written.isLt
  have h3 := s.consumed.isLt
  have h4 := s.fault.isLt
  have h5 := (statusCode s.status).isLt
  have field (lo k : Nat) (x : BitVec k) (hx : (responseOf s).toNat / 2 ^ lo % 2 ^ k = x.toNat) :
      (responseOf s).extractLsb' lo k = x :=
    BitVec.eq_of_toNat_eq (by rw [BitVec.extractLsb'_toNat, Nat.shiftRight_eq_div_pow, hx])
  refine ⟨field _ _ _ ?_, field _ _ _ ?_, field _ _ _ ?_, field _ _ _ ?_, field _ _ _ ?_, field _ _ _ ?_,
    field _ _ _ ?_⟩ <;> simp only [hr, BitVec.toNat_ofNat] <;> omega

end Sys2Proof.Machine

open Sys2Proof Sys2Proof.Machine

/-- Settles O40: the guard of the bulk loop by the cursors. -/
theorem scanChoosesPath : Obligations.ScanChoosesPath := by
  intro s ⟨hr, hu⟩ hp hop
  rw [step_of_quiet hr hu, sequencerStep_scanning hp, scan_eq hop]
  rfl

/-- Settles O41: the iteration moves no cursor, and the step then counts it. -/
theorem encBulkStep : Obligations.EncBulkStep := by
  intro s t ⟨hr, hu⟩ hp hop hsrc hdst h
  have hit := outcome_next_iff.1 h
  obtain ⟨u, bytes, -, -, -, rfl⟩ := veIter_ok hit
  generalize s.mem.writeBytes s.dstAddr bytes = m at hit
  have hwin : s.consumed.toNat + s.window ≤ s.latch.srcLen.toNat := by
    have := window_eq s
    omega
  have hleave := leaveBulkUnlessOk_advance (s := { s with units := u, mem := m }) hp (.inl hop) (if_pos hop) hwin hdst
  rw [step_of_quiet hr hu, sequencerStep_encBulk hp hop, encBulk_eq hit, hleave]
  exact ⟨_, _, rfl⟩

/-- Settles O42, by whether four bytes are free. -/
theorem encGroupStep : Obligations.EncGroupStep := by
  intro s ⟨hr, hu⟩ hp hop hsrc
  rw [step_of_quiet hr hu, sequencerStep_encGroup hp hop (by unfold State.remaining; omega)]
  refine ⟨fun hfull => ?_, fun hroom hw hread hwrite => ?_⟩
  · obtain ⟨u, n, h⟩ := encGroup_of_full (s := s) (by unfold State.room; omega)
    exact ⟨u, n, congrArg outcome h⟩
  · obtain ⟨u, n, h⟩ := encGroup_of_room (s := s) (by unfold State.room; omega) ⟨insideSource_srcAddr hsrc, hread⟩
      ⟨insideDestination_dstAddr hroom, hwrite⟩
    exact ⟨_, u, n, _, rfl, storedAt_writeBytes hw hwrite, congrArg outcome h⟩

/-- Settles O43, by what is left of the source, the final flag and the room. -/
theorem encTrailStep : Obligations.EncTrailStep := by
  intro s ⟨hr, hu⟩ hp hop hle hlt
  have hrem : s.remaining = s.latch.srcLen.toNat - s.consumed.toNat := rfl
  have hroom : s.room = s.latch.dstCap.toNat - s.written.toNat := rfl
  rw [step_of_quiet hr hu, sequencerStep_encTrail hp hop (by omega)]
  refine ⟨fun heq => ?_, fun hne hf => ?_, fun hne hf hfull => ?_, fun hf h4 hw hwrite => ⟨fun h2 hread => ?_,
    fun h1 hread => ?_⟩⟩
  · obtain ⟨u, n, h⟩ := encTrail_of_none (s := s) (by omega)
    exact ⟨u, n, congrArg outcome h⟩
  · obtain ⟨u, n, h⟩ := encTrail_of_more (s := s) (by omega) hf
    exact ⟨u, n, congrArg outcome h⟩
  · obtain ⟨u, n, h⟩ := encTrail_of_full (s := s) (by omega) hf (by omega)
    exact ⟨u, n, congrArg outcome h⟩
  · obtain ⟨u, n, h⟩ := encTrail_of_two (s := s) (by omega) hf (by omega) ⟨insideSource_srcAddr h2.ge, hread⟩
      ⟨insideDestination_dstAddr h4, hwrite⟩
    exact ⟨_, u, n, _, rfl, storedAt_writeBytes hw hwrite, congrArg outcome h⟩
  · obtain ⟨u, n, h⟩ := encTrail_of_one (s := s) (by omega) hf (by omega) ⟨insideSource_srcAddr h1.ge, hread⟩
      ⟨insideDestination_dstAddr h4, hwrite⟩
    exact ⟨_, u, n, _, rfl, storedAt_writeBytes hw hwrite, congrArg outcome h⟩

/-- Settles O44, by the flag that tells the two ends of an iteration apart. -/
theorem decBulkStep : Obligations.DecBulkStep := by
  intro s t ⟨hr, hu⟩ hp hop hsrc hdst h
  have hit := outcome_next_iff.1 h
  obtain ⟨u, m, rfl, -⟩ := vdIter_ok hit
  rw [step_of_quiet hr hu, sequencerStep_decBulk hp hop, decBulk_eq hit]
  refine ⟨fun hbad => ?_, fun hgood => ?_⟩
  · rw [if_pos hbad]
    exact ⟨_, _, rfl⟩
  · have hne : s.latch.op ≠ opEnc := by rw [hop]; decide
    have hleave := leaveBulkUnlessOk_advance (s := { s with units := u, mem := m }) hp (.inr hop) (if_neg hne) hsrc hdst
    rw [if_neg (Bool.eq_false_iff.1 hgood), hleave]
    exact ⟨_, _, rfl⟩

/-- Settles O45, by the decoder's answer and whether its bytes fit. -/
theorem decGroupStep : Obligations.DecGroupStep := by
  intro s ⟨hr, hu⟩ hp hop hsrc hread
  have hs : s.SourceHolds 4 := ⟨insideSource_srcAddr hsrc, hread⟩
  rw [step_of_quiet hr hu, sequencerStep_decGroup hp hop (by unfold State.remaining; omega),
    if_congr isLastGroup_iff.symm rfl rfl]
  refine ⟨_, exec_nextAnswer s, ?_⟩
  cases hans : s.nextAnswer with
  | none =>
    obtain ⟨u, n, h⟩ := decGroup_of_invalid hs hans
    exact ⟨fun _ => ⟨u, n, congrArg outcome h⟩, nofun, nofun⟩
  | some answer =>
    obtain ⟨w, bytes⟩ := answer
    obtain ⟨hok, hk, hout⟩ := setDecoder_answers (feedDecoder s.nextSymbols s) rfl
      (Nat.lt_succ_of_le (decodeAnswer_length hans))
    rw [hok, hout, hk]
    refine ⟨nofun, fun _ hfull => ?_, fun _ hroom hw hwrite => ?_⟩
    · have hpos := decodeAnswer_length_pos hans
      obtain ⟨u, n, h⟩ := decGroup_of_full hs hans (by unfold State.room; omega)
      exact ⟨u, n, congrArg outcome h⟩
    · obtain ⟨u, n, h⟩ := decGroup_of_room hs hans (by unfold State.room; omega)
        ⟨insideDestination_dstAddr hroom, hwrite⟩
      refine ⟨u, n, _, rfl, storedAt_writeBytes hw hwrite, (congrArg outcome h).trans ?_⟩
      rw [← BitVec.ofNat_toNat, hk]
      rfl

/-- Settles O46: how many symbols are left, and the final flag, decide the status. -/
theorem decTrailStep : Obligations.DecTrailStep := by
  intro s ⟨hr, hu⟩ hp hop hle hlt
  obtain ⟨u, n, h⟩ := decTrail_eq s
  have hnone : s.remaining = 0 ↔ s.latch.srcLen.toNat = s.consumed.toNat := by unfold State.remaining; omega
  rw [trailStatus, if_congr hnone rfl rfl] at h
  rw [step_of_quiet hr hu, sequencerStep_decTrail hp hop (by unfold State.remaining; omega)]
  exact ⟨u, n, congrArg outcome h⟩

/-- Settles O47: in each of the places listed a `PAD` makes the decoder answer nothing. -/
theorem paddingOnlyAtTheEnd : Obligations.PaddingOnlyAtTheEnd := by
  intro s ⟨hr, hu⟩ hp hop hsrc hread hpad
  have hans : s.nextAnswer = none := by
    unfold State.nextAnswer
    rcases hpad with ⟨hmore, hsome⟩ | hplace
    · rw [isLastGroup_eq_false_iff.2 (hmore.imp_right fun h => by omega)]
      exact decodeGroup_of_pad s.config (nextByte_place hsome)
    · cases isLastGroup s with
      | true => exact decodeFinal_of_pad s.config hplace
      | false => exact decodeGroup_of_pad s.config (hplace.imp_right fun h => h.imp_right fun h => .inl h.1)
  obtain ⟨u, n, h⟩ := decGroup_of_invalid ⟨insideSource_srcAddr hsrc, hread⟩ hans
  rw [step_of_quiet hr hu, sequencerStep_decGroup hp hop (by unfold State.remaining; omega)]
  exact ⟨u, n, congrArg outcome h⟩

/-- Settles O48, field by field. -/
theorem deliverResponds : Obligations.DeliverResponds := by
  intro s ⟨hr, hu⟩ hp ht
  obtain ⟨hstatus, hfields⟩ := responseOf_fields s
  refine ⟨deliver s, responseOf s, ?_, rfl, rfl, rfl, rfl, rfl, rfl, ?_, hfields⟩
  · rw [step_of_quiet hr hu, sequencerStep_done hp, doneStep, if_pos ht]
  · rw [hstatus]
    cases s.status <;> rfl

/-- Settles O51: Accept ends a command without an error of its data, and a step of a transfer without a fault. -/
theorem outcomeOrigins : Obligations.OutcomeOrigins := by
  intro s t ⟨hr, hu⟩ h hndone hdone
  rw [step_of_quiet hr hu] at h
  by_cases hidle : s.phase = .idle
  · rw [sequencerStep_idle hidle] at h
    rcases idleStep_ok hidle h with ⟨-, rfl⟩ | ⟨d, rest, -, ha⟩
    · exact absurd hdone hndone
    · exact ha.outcomeOrigin hidle hdone
  · exact (sequencerStep_transferStep (inFlight_iff.2 ⟨hidle, hndone⟩) h).outcomeOrigin hdone

/-- Settles O10: the step by its phase and its offer. -/
theorem stepRunsOfferedCommand : Obligations.StepRunsOfferedCommand := by
  intro s d rest i ⟨hr, hu⟩ hp ho hd
  rw [step_of_quiet hr hu, sequencerStep_idle hp, idleStep_of_decode ho hd]

/-- Settles O13: Accept of each command, its preconditions given. -/
theorem transferCommandsStart : Obligations.TransferCommandsStart := fun _ final _ _ _ _ hp h =>
  ⟨exec_transfer false final hp h, exec_transfer true final hp h⟩

end

section
/-! SUPPORT. An `ENC` or `DEC` as a function of its source (44_chunk_driver.md R225, R226): what is left of it once
whole groups have been taken off the front. -/

namespace Sys2Proof.Machine

/-- The status of a transfer, the number of source bytes it consumes, and the bytes it writes. -/
abbrev TransferResult := Status × Nat × List Byte

/-- A result after `r` source bytes have been consumed and `bytes` written. -/
def TransferResult.after (r : Nat) (bytes : List Byte) (x : TransferResult) : TransferResult :=
  (x.1, x.2.1 + r, bytes ++ x.2.2)

theorem TransferResult.after_after (r k : Nat) (bytes more : List Byte) (x : TransferResult) :
    (x.after k more).after r bytes = x.after (r + k) (bytes ++ more) := by
  simp [TransferResult.after, Nat.add_comm r k, Nat.add_assoc]

/-- The result of an `ENC` on a source, with `cap` bytes of room (R225). -/
def encodeTransfer (c : Configuration) (final : Bool) (cap : Nat) (source : List Byte) : TransferResult :=
  let r := encodeResult source.length cap final
  (r.1, r.2.1, encodeList c (source.take r.2.1))

/-- The result of the latched `ENC` or `DEC` on a source, with `cap` bytes of room (R225, R226). -/
def transferResult (c : Configuration) (l : Latch) (cap : Nat) (source : List Byte) : TransferResult :=
  if l.op = opEnc then encodeTransfer c l.final cap source else decodeResult c l.final cap source

theorem transferResult_enc {l : Latch} (hop : l.op = opEnc) (c : Configuration) (cap : Nat) (source : List Byte) :
    transferResult c l cap source = encodeTransfer c l.final cap source := if_pos hop

theorem transferResult_dec {l : Latch} (hop : l.op = opDec) (c : Configuration) (cap : Nat) (source : List Byte) :
    transferResult c l cap source = decodeResult c l.final cap source := if_neg (by rw [hop]; decide)

/-! ## Groups of an `ENC` -/

/-- The number of symbols of an encoding (R121, R225). -/
theorem length_encodeList (c : Configuration) : ∀ b : List Byte, (encodeList c b).length = 4 * ((b.length + 2) / 3)
  | [] => rfl
  | [_] => by simp [encodeList]
  | [_, _] => by simp [encodeList]
  | _ :: _ :: _ :: rest => by
    simp only [encodeList, List.length_append, Vector.length_toList, length_encodeList c rest, List.length_cons]
    omega

/-- Whole groups are encoded on their own (R225). -/
theorem encodeList_append (c : Configuration) (back : List Byte) : ∀ {front : List Byte}, front.length % 3 = 0 →
    encodeList c (front ++ back) = encodeList c front ++ encodeList c back
  | [], _ => rfl
  | _ :: _ :: _ :: rest, h => by
    have ih := encodeList_append c back (front := rest) (by simp only [List.length_cons] at h; omega)
    simp only [List.cons_append, encodeList, ih, List.append_assoc]

/-- The counts of an `ENC` after `k` whole groups (R225). -/
theorem encodeResult_add (n cap k : Nat) (final : Bool) : encodeResult (n + 3 * k) (cap + 4 * k) final =
    ((encodeResult n cap final).1, (encodeResult n cap final).2.1 + 3 * k, (encodeResult n cap final).2.2 + 4 * k) := by
  have hn : (n + 3 * k) / 3 = n / 3 + k := by omega
  have hm : (n + 3 * k) % 3 = n % 3 := by omega
  have hc : (cap + 4 * k) / 4 = cap / 4 + k := by omega
  simp only [encodeResult, hn, hm, hc, Nat.add_lt_add_iff_right, Nat.add_right_comm _ k 1, Nat.add_le_add_iff_right,
    Nat.mul_add]
  split_ifs <;> rfl

/-- An `ENC` whose source begins with whole groups that fit: they are encoded, and it goes on with the rest (R225). -/
theorem encodeTransfer_append {c : Configuration} {final : Bool} {cap : Nat} {front : List Byte} (back : List Byte)
    (h3 : front.length % 3 = 0) (hcap : (encodeList c front).length ≤ cap) :
    encodeTransfer c final cap (front ++ back) =
      (encodeTransfer c final (cap - (encodeList c front).length) back).after front.length (encodeList c front) := by
  obtain ⟨k, hk⟩ : ∃ k, front.length = 3 * k := ⟨front.length / 3, by omega⟩
  have hlen : (encodeList c front).length = 4 * k := by rw [length_encodeList]; omega
  have hr := encodeResult_add back.length (cap - 4 * k) k final
  rw [Nat.sub_add_cancel (hlen ▸ hcap)] at hr
  simp only [encodeTransfer, TransferResult.after, List.length_append, hlen, hk, Nat.add_comm (3 * k), hr]
  rw [Nat.add_comm, List.take_add, ← hk, List.take_left, List.drop_left, encodeList_append c _ h3, hk, Nat.add_comm]

/-- How an `ENC` goes on with fewer than three bytes left (R217, R225). -/
theorem encodeResult_short {n : Nat} (cap : Nat) (final : Bool) (h : n < 3) : encodeResult n cap final =
    if n = 0 then (.done, 0, 0) else if final = false then (.needMoreData, 0, 0)
    else if cap < 4 then (.destinationTooSmall, 0, 0) else (.done, n, 4) := by
  have hn : n / 3 = 0 := by omega
  have hm : n % 3 = n := by omega
  have hc : 1 ≤ cap / 4 ↔ ¬cap < 4 := by omega
  simp only [encodeResult, hn, hm, Nat.not_lt_zero, if_false, Nat.zero_add, hc, ite_not, Nat.mul_zero, Nat.mul_one]
  exact ite_congr rfl (fun h0 => by rw [h0]) fun _ => rfl

/-- How an `ENC` goes on with no room for the group it has (R216, R225). -/
theorem encodeResult_full {n cap : Nat} (final : Bool) (hn : 3 ≤ n) (hcap : cap < 4) :
    encodeResult n cap final = (.destinationTooSmall, 0, 0) := by
  have hc : cap / 4 = 0 := by omega
  rw [encodeResult, if_pos (by omega), hc]

/-- An `ENC` writes the symbols of the bytes it consumes (R225). -/
theorem encodeResult_written (c : Configuration) (final : Bool) (cap : Nat) (source : List Byte) :
    let r := encodeResult source.length cap final
    r.2.1 ≤ source.length ∧ (encodeList c (source.take r.2.1)).length = r.2.2 := by
  simp only [length_encodeList, List.length_take]
  unfold encodeResult
  split_ifs <;> dsimp only <;> omega

/-- A final `ENC` with room for the whole encoding (R225). -/
theorem encodeResult_whole {n cap : Nat} (h : 4 * ((n + 2) / 3) ≤ cap) :
    encodeResult n cap true = (.done, n, 4 * ((n + 2) / 3)) := by
  rw [encodeResult, if_neg (by omega)]
  by_cases hm : n % 3 = 0
  · rw [if_pos hm, show n / 3 = (n + 2) / 3 by omega]
  · rw [if_neg hm, if_neg (by decide), show n / 3 + 1 = (n + 2) / 3 by omega, if_pos (by omega)]

/-- An `ENC` with more to come and room for its whole groups (R225). -/
theorem encodeResult_more {n cap : Nat} (h : 4 * (n / 3) ≤ cap) : encodeResult n cap false =
    (if n % 3 = 0 then .done else .needMoreData, 3 * (n / 3), 4 * (n / 3)) := by
  rw [encodeResult, if_neg (by omega)]
  by_cases hm : n % 3 = 0
  · rw [if_pos hm, if_pos hm, show 3 * (n / 3) = n by omega]
  · rw [if_neg hm, if_neg hm, if_pos rfl]

/-! ## Groups of a `DEC` -/

section
variable {c : Configuration} {final : Bool} {cap : Nat} {c0 c1 c2 c3 : Byte} {rest : List Byte}

/-- The loop of a `DEC` at a group that is not valid (R226). -/
theorem decodeResult_invalid (h : decodeAnswer c (final && rest.isEmpty) [c0, c1, c2, c3] = none) :
    decodeResult c final cap (c0 :: c1 :: c2 :: c3 :: rest) = (.invalidData, 0, []) := by
  change (if final && rest.isEmpty then decodeFinal c c0 c1 c2 c3 else decodeGroup c c0 c1 c2 c3) = _ at h
  rw [decodeResult, h]

/-- The loop of a `DEC` at a group whose bytes do not fit (R226). -/
theorem decodeResult_full {w : GroupWord} {bytes : List Byte}
    (h : decodeAnswer c (final && rest.isEmpty) [c0, c1, c2, c3] = some (w, bytes)) (hcap : cap < bytes.length) :
    decodeResult c final cap (c0 :: c1 :: c2 :: c3 :: rest) = (.destinationTooSmall, 0, []) := by
  change (if final && rest.isEmpty then decodeFinal c c0 c1 c2 c3 else decodeGroup c c0 c1 c2 c3) = _ at h
  rw [decodeResult, h]
  exact if_pos hcap

/-- The loop of a `DEC` at a group whose bytes fit (R226). -/
theorem decodeResult_group {w : GroupWord} {bytes : List Byte}
    (h : decodeAnswer c (final && rest.isEmpty) [c0, c1, c2, c3] = some (w, bytes)) (hcap : bytes.length ≤ cap) :
    decodeResult c final cap (c0 :: c1 :: c2 :: c3 :: rest) =
      TransferResult.after 4 bytes (decodeResult c final (cap - bytes.length) rest) := by
  change (if final && rest.isEmpty then decodeFinal c c0 c1 c2 c3 else decodeGroup c c0 c1 c2 c3) = _ at h
  rw [decodeResult, h]
  exact if_neg (Nat.not_lt.2 hcap)

end

/-- How a `DEC` ends with fewer than four symbols left (R221, R226). -/
theorem decodeResult_short (c : Configuration) (final : Bool) (cap : Nat) : ∀ {source : List Byte}, source.length < 4 →
    decodeResult c final cap source = (trailStatus final source.length, 0, [])
  | [], _ => by simp [decodeResult, trailStatus]
  | [_], _ | [_, _], _ | [_, _, _], _ => by cases final <;> simp [decodeResult, trailStatus]

/-- A `DEC` whose source begins with whole groups whose symbols all have values, and whose bytes fit (R226). -/
theorem decodeResult_valued (c : WfConfiguration) (final : Bool) (m : Memory) (rest : List Byte) : ∀ (n a cap : Nat),
    (∀ i < 4 * n, valueOf c.regs (m.read (a + i)) ≠ sentinel) → 3 * n ≤ cap →
    decodeResult c.regs final cap (m.readBytes a (4 * n) ++ rest) =
      TransferResult.after (4 * n) (lanesFrom (3 * n) (rawByteAt c.regs m a))
        (decodeResult c.regs final (cap - 3 * n) rest)
  | 0, _, _, _, _ => by simp [Memory.readBytes, lanesFrom, TransferResult.after]
  | n + 1, a, cap, hgood, hcap => by
    have ih := decodeResult_valued c final m rest n (a + 4) (cap - 3)
      (fun i hi => by rw [Nat.add_assoc]; exact hgood (4 + i) (by omega)) (by omega)
    have hans := decodeAnswer_of_valued (c0 := m.read a) (final && (m.readBytes (a + 4) (4 * n) ++ rest).isEmpty)
      (hgood 0 (by omega)) (hgood 1 (by omega)) (hgood 2 (by omega)) (hgood 3 (by omega))
    simp only [Nat.mul_succ, readBytes_cons, lanesFrom_succ, List.cons_append, Nat.add_assoc, Nat.reduceAdd,
      rawByteAt_add_three]
    rw [decodeResult_group hans (by simp only [List.length_cons, List.length_nil]; omega)]
    simp only [List.length_cons, List.length_nil, Nat.reduceAdd, ih, TransferResult.after_after, Nat.sub_sub,
      Nat.add_comm 4, Nat.add_comm 3]
    rfl

/-! ## What the result depends on -/

theorem encodeList_sameButCap {c1 c2 : Configuration} (h : SameButCap c1 c2) :
    ∀ b : List Byte, encodeList c1 b = encodeList c2 b
  | [] => rfl
  | [b0] => by rw [h]; rfl
  | [b0, b1] => by rw [h]; rfl
  | b0 :: b1 :: b2 :: rest => by
    have ih := encodeList_sameButCap h rest
    have hgroup : encodeGroup c1 b0 b1 b2 = encodeGroup c2 b0 b1 b2 := by rw [h]; rfl
    rw [encodeList, encodeList, hgroup, ih]

theorem decodeResult_sameButCap {c1 c2 : Configuration} (h : SameButCap c1 c2) (final : Bool) :
    ∀ (cap : Nat) (source : List Byte), decodeResult c1 final cap source = decodeResult c2 final cap source
  | cap, [] => by simp [decodeResult]
  | cap, [_] | cap, [_, _] | cap, [_, _, _] => by simp [decodeResult]
  | cap, c0 :: c1' :: c2' :: c3 :: rest => by
    have ih := fun k => decodeResult_sameButCap h final k rest
    have hgroup : decodeGroup c1 c0 c1' c2' c3 = decodeGroup c2 c0 c1' c2' c3 := by rw [h]; rfl
    have hfinal : decodeFinal c1 c0 c1' c2' c3 = decodeFinal c2 c0 c1' c2' c3 := by rw [h]; rfl
    simp only [decodeResult, hgroup, hfinal, ih]

/-- The capability level has no part in the result of a transfer (R228). -/
theorem transferResult_sameButCap {c1 c2 : Configuration} (h : SameButCap c1 c2) (l : Latch) (cap : Nat)
    (source : List Byte) : transferResult c1 l cap source = transferResult c2 l cap source := by
  simp only [transferResult, encodeTransfer, encodeList_sameButCap h, decodeResult_sameButCap h]

/-! ## Round trip -/

/-- A final `DEC` of an encoding gives the bytes back (R149, R230). -/
theorem decodeResult_encodeList (c : WfConfiguration) : ∀ (b : List Byte) (cap : Nat), b.length ≤ cap →
    decodeResult c.regs true cap (encodeList c.regs b) = (.done, (encodeList c.regs b).length, b)
  | [], _, _ => by simp [encodeList, decodeResult]
  | [b0], _, h => decodeResult_group (rest := []) (decodeAnswer_encodeTail1 c b0) h
  | [b0, b1], _, h => decodeResult_group (rest := []) (decodeAnswer_encodeTail2 c b0 b1) h
  | b0 :: b1 :: b2 :: rest, cap, h => by
    simp only [List.length_cons] at h
    have ih := decodeResult_encodeList c rest (cap - 3) (by omega)
    have hgroup := decodeResult_group (cap := cap)
      (decodeAnswer_encodeGroup c (true && (encodeList c.regs rest).isEmpty) b0 b1 b2)
      (by simp only [List.length_cons, List.length_nil]; omega)
    rw [encodeList]
    refine hgroup.trans ?_
    simp only [List.length_cons, List.length_nil, Nat.reduceAdd, ih, List.length_append, Vector.length_toList]
    rw [TransferResult.after, Nat.add_comm]
    rfl

end Sys2Proof.Machine
end

section
/-! SUPPORT. The run of a started `ENC` or `DEC`, step by step, computes its result (44_chunk_driver.md R218, R225,
R226, R232): after each step, what has been counted and written and the result on what is left make up the whole
result. -/

namespace Sys2Proof.Machine

/-! ## Stored bytes, one after the other -/

theorem readBytes_append (m : Memory) (a n k : Nat) :
    m.readBytes a (n + k) = m.readBytes a n ++ m.readBytes (a + n) k := by
  simp [Memory.readBytes, List.range_add, Nat.add_assoc]

/-- Bytes stored behind bytes that have been stored; where no bytes are, their place is no matter. -/
theorem StoredAt.append {s t : State} {m : Memory} {a b : Nat} {front back : List Byte} (h1 : StoredAt s t.mem a front)
    (h2 : StoredAt t m b back) (hb : back ≠ [] → b = a + front.length) : StoredAt s m a (front ++ back) := by
  refine ⟨h2.1, fun x => ?_⟩
  rw [h2.2, storedByte, h1.2]
  by_cases hnil : back = []
  · subst hnil
    rw [List.append_nil, if_neg (by simp)]
  · rw [hb hnil]
    simp only [storedByte, List.length_append]
    by_cases hx : a + front.length ≤ x ∧ x < a + front.length + back.length
    · rw [if_pos hx, if_pos (by omega), List.getD_append_right _ _ _ _ (by omega), Nat.sub_add_eq]
    · rw [if_neg hx]
      by_cases hy : a ≤ x ∧ x < a + front.length
      · rw [if_pos hy, if_pos (by omega), List.getD_append _ _ _ _ (by omega)]
      · rw [if_neg hy, if_neg (by omega)]

/-- Bytes that lie clear of those stored are as before. -/
theorem StoredAt.readBytes_clear {s : State} {m : Memory} {a b n : Nat} {bytes : List Byte} (h : StoredAt s m a bytes)
    (hclear : ∀ i < n, ¬(a ≤ b + i ∧ b + i < a + bytes.length)) : m.readBytes b n = s.mem.readBytes b n :=
  readBytes_congr fun i hi => by rw [h.2, storedByte, if_neg (hclear i hi)]

/-- The bytes stored read back. -/
theorem StoredAt.readBytes_self {s : State} {m : Memory} {a : Nat} {bytes : List Byte} (h : StoredAt s m a bytes) :
    m.readBytes a bytes.length = bytes := by
  refine List.ext_getElem (by simp) fun i hi hi' => ?_
  rw [← List.getD_eq_getElem _ 0#8, ← List.getD_eq_getElem _ 0#8, Memory.getD_readBytes _ _ hi', h.2, storedByte,
    if_pos (by omega), Nat.add_sub_cancel_left]

/-! ## What a step has done and what is left -/

/-- The source bytes not yet consumed. -/
abbrev State.sourceLeft (s : State) : List Byte := s.mem.readBytes s.srcAddr s.remaining

/-- What a transfer that stands in `s` will still come to: nothing more once it has ended. -/
def State.toCome (s : State) : TransferResult :=
  if s.phase = .done then (s.status, 0, []) else transferResult s.config.regs s.latch s.room s.sourceLeft

/-- `t` is a state of the same command with `r` more source bytes counted, and with `bytes` stored at `q` and counted
(R31, R32, R81). -/
structure Counted (s t : State) (r : Nat) (bytes : List Byte) : Prop where
  same : SameCommand s t
  consumed : t.consumed.toNat = s.consumed.toNat + r
  written : t.written.toNat = s.written.toNat + bytes.length
  consumedBound : t.consumed.toNat ≤ s.latch.srcLen.toNat
  writtenBound : t.written.toNat ≤ s.latch.dstCap.toNat
  stored : StoredAt s t.mem s.dstAddr bytes

/-- What has been counted on the way from `s` to `t`, and what is to come in `t`, are what was to come in `s`. -/
def ComputesTo (s t : State) : Prop := ∃ r bytes, Counted s t r bytes ∧ s.toCome = t.toCome.after r bytes

theorem toCome_done {s : State} (h : s.phase = .done) : s.toCome = (s.status, 0, []) := if_pos h

theorem toCome_inFlight {s : State} (h : s.phase ≠ .done) :
    s.toCome = transferResult s.config.regs s.latch s.room s.sourceLeft := if_neg h

theorem SameCommand.trans {s t v : State} (h1 : SameCommand s t) (h2 : SameCommand t v) : SameCommand s v where
  config := h2.config.trans h1.config
  latch := h2.latch.trans h1.latch
  memMap := h2.memMap.trans h1.memMap
  offers := h2.offers.trans h1.offers
  responses := h2.responses.trans h1.responses
  hostTakes := h2.hostTakes.trans h1.hostTakes
  resetIn := h2.resetIn.trans h1.resetIn
  uopSel := h2.uopSel.trans h1.uopSel

theorem Counted.dstAddr {s t : State} {r : Nat} {bytes : List Byte} (h : Counted s t r bytes) :
    t.dstAddr = s.dstAddr + bytes.length := by
  rw [State.dstAddr, State.dstAddr, h.same.latch, h.written, Nat.add_assoc]

theorem Counted.trans {s t v : State} {r k : Nat} {bytes more : List Byte} (h1 : Counted s t r bytes)
    (h2 : Counted t v k more) : Counted s v (r + k) (bytes ++ more) where
  same := h1.same.trans h2.same
  consumed := by rw [h2.consumed, h1.consumed, Nat.add_assoc]
  written := by rw [h2.written, h1.written, List.length_append, Nat.add_assoc]
  consumedBound := h1.same.latch ▸ h2.consumedBound
  writtenBound := h1.same.latch ▸ h2.writtenBound
  stored := h1.stored.append h2.stored fun _ => h1.dstAddr

theorem ComputesTo.trans {s t v : State} (h1 : ComputesTo s t) (h2 : ComputesTo t v) : ComputesTo s v := by
  obtain ⟨r, bytes, hc, he⟩ := h1
  obtain ⟨k, more, hc', he'⟩ := h2
  exact ⟨r + k, bytes ++ more, hc.trans hc', by rw [he, he', TransferResult.after_after]⟩

/-- The source not yet consumed, cut after `r` bytes. -/
theorem sourceLeft_cut {s : State} {r : Nat} (h : r ≤ s.remaining) :
    s.sourceLeft = s.mem.readBytes s.srcAddr r ++ s.mem.readBytes (s.srcAddr + r) (s.remaining - r) := by
  rw [← readBytes_append, Nat.add_sub_cancel' h]

section
variable {s t : State} {r : Nat} {bytes : List Byte}

/-- A step writes no source byte (R71): what is left of the source is the old one without the bytes counted. -/
theorem Counted.sourceLeft (h : Counted s t r bytes) (hi : TransferInv s) :
    t.sourceLeft = s.mem.readBytes (s.srcAddr + r) (s.remaining - r) := by
  have hsrc : t.srcAddr = s.srcAddr + r := by rw [State.srcAddr, State.srcAddr, h.same.latch, h.consumed, Nat.add_assoc]
  have hrem : t.remaining = s.remaining - r := by
    rw [State.remaining, State.remaining, h.same.latch, h.consumed, Nat.sub_add_eq]
  have hdst := h.writtenBound
  rw [h.written] at hdst
  rw [State.sourceLeft, hsrc, hrem]
  refine h.stored.readBytes_clear fun i hin hmeet => hi.admitted.disjoint (s.srcAddr + r + i) ?_
  unfold State.srcAddr State.dstAddr State.remaining at *
  exact ⟨⟨by omega, by omega⟩, ⟨by omega, by omega⟩⟩

theorem Counted.room (h : Counted s t r bytes) : t.room = s.room - bytes.length := by
  rw [State.room, State.room, h.same.latch, h.written, Nat.sub_add_eq]

/-- A step that leaves the transfer in flight, by what it takes off the result (R225, R226). -/
theorem Counted.computesTo_inFlight (h : Counted s t r bytes) (hi : TransferInv s) (hs : s.phase ≠ .done)
    (ht : t.phase ≠ .done) (hres : transferResult s.config.regs s.latch s.room s.sourceLeft =
      (transferResult s.config.regs s.latch (s.room - bytes.length)
        (s.mem.readBytes (s.srcAddr + r) (s.remaining - r))).after r bytes) : ComputesTo s t := by
  refine ⟨r, bytes, h, ?_⟩
  rw [toCome_inFlight hs, toCome_inFlight ht, h.sourceLeft hi, h.room, h.same.config, h.same.latch, hres]

/-- A step that ends the transfer, by the result it ends with (R225, R226). -/
theorem Counted.computesTo_done (h : Counted s t r bytes) (hs : s.phase ≠ .done) (ht : t.phase = .done)
    (hres : transferResult s.config.regs s.latch s.room s.sourceLeft = (t.status, r, bytes)) : ComputesTo s t := by
  refine ⟨r, bytes, h, ?_⟩
  rw [toCome_inFlight hs, toCome_done ht, hres, TransferResult.after, Nat.zero_add, List.append_nil]

/-- The cursors moved by what has been read and written. -/
theorem counted_of_cursors (hsame : SameCommand s t) (hi : TransferInv s) (hr : r ≤ s.remaining)
    (hw : bytes.length ≤ s.room) (hc : t.consumed = s.consumed + BitVec.ofNat 32 r)
    (hd : t.written = s.written + BitVec.ofNat 32 bytes.length) (hm : StoredAt s t.mem s.dstAddr bytes) :
    Counted s t r bytes := by
  have hcb := hi.consumedBound
  have hwb := hi.writtenBound
  unfold State.remaining at hr
  unfold State.room at hw
  have hct := toNat_add_ofNat (show s.consumed.toNat + r ≤ s.latch.srcLen.toNat by omega)
  have hdt := toNat_add_ofNat (show s.written.toNat + bytes.length ≤ s.latch.dstCap.toNat by omega)
  rw [← hc] at hct
  rw [← hd] at hdt
  exact ⟨hsame, hct, hdt, by omega, by omega, hm⟩

/-- Nothing read, written or counted. -/
theorem counted_nothing (hsame : SameCommand s t) (hi : TransferInv s) (hw : s.mem.wf = true)
    (hc : t.consumed = s.consumed) (hd : t.written = s.written) (hm : t.mem = s.mem) : Counted s t 0 [] where
  same := hsame
  consumed := by rw [hc, Nat.add_zero]
  written := by rw [hd, List.length_nil, Nat.add_zero]
  consumedBound := hc ▸ hi.consumedBound
  writtenBound := hd ▸ hi.writtenBound
  stored := hm ▸ storedAt_nil hw _

end

/-- A step that only moves on to another phase of the transfer. -/
theorem computesTo_of_unchanged {s t : State} (hsame : SameCommand s t) (hi : TransferInv s) (hw : s.mem.wf = true)
    (hs : s.phase ≠ .done) (ht : t.phase ≠ .done) (hc : t.consumed = s.consumed) (hd : t.written = s.written)
    (hm : t.mem = s.mem) : ComputesTo s t := by
  refine (counted_nothing hsame hi hw hc hd hm).computesTo_inFlight hi hs ht ?_
  simp [TransferResult.after]

/-- A step that only ends the transfer. -/
theorem computesTo_ended {s : State} (hi : TransferInv s) (hw : s.mem.wf = true) (hs : s.phase ≠ .done) (st : Status)
    (u : Units) (n : Nat) (hres : transferResult s.config.regs s.latch s.room s.sourceLeft = (st, 0, [])) :
    ComputesTo s (ended st u n s) :=
  (counted_nothing (t := ended st u n s) (by constructor <;> rfl) hi hw rfl rfl rfl).computesTo_done hs rfl hres

/-- A step of a transfer in flight with a next state that computes on. -/
def StepComputes (s : State) : Prop := ∃ t, sequencerStep s = .next t ∧ ComputesTo s t

theorem scan_computes {s : State} (hi : TransferInv s) (hw : s.mem.wf = true) (hp : s.phase = .scanning) :
    StepComputes s := by
  refine ⟨_, sequencerStep_scanning hp, computesTo_of_unchanged (scan_transferStep hp).sameCommand hi hw (by simp [hp])
    ?_ (scan_consumed s) (scan_written s) (scan_mem s)⟩
  unfold scan
  split <;> nofun

/-! ## The steps of ENC -/

section
variable {s : State} (hi : TransferInv s) (hw : s.mem.wf = true) (hop : s.latch.op = opEnc)
include hi hw hop

omit hw in
/-- Whole groups that have been read, encoded and written. -/
theorem computesTo_of_encoded {t : State} {r : Nat} (hsame : SameCommand s t) (hs : s.phase ≠ .done)
    (ht : t.phase ≠ .done) (h3 : r % 3 = 0) (hr : r ≤ s.remaining)
    (hroom : (encodeList s.config.regs (s.mem.readBytes s.srcAddr r)).length ≤ s.room)
    (hc : t.consumed = s.consumed + BitVec.ofNat 32 r)
    (hd : t.written = s.written +
      BitVec.ofNat 32 (encodeList s.config.regs (s.mem.readBytes s.srcAddr r)).length)
    (hm : StoredAt s t.mem s.dstAddr (encodeList s.config.regs (s.mem.readBytes s.srcAddr r))) : ComputesTo s t := by
  refine (counted_of_cursors hsame hi hr hroom hc hd hm).computesTo_inFlight hi hs ht ?_
  have h := encodeTransfer_append (final := s.latch.final) (cap := s.room)
    (s.mem.readBytes (s.srcAddr + r) (s.remaining - r))
    (front := s.mem.readBytes s.srcAddr r) (by rwa [Memory.length_readBytes]) hroom
  rw [transferResult_enc hop, transferResult_enc hop, sourceLeft_cut hr, h, Memory.length_readBytes]

theorem encBulk_computes (hp : s.phase = .bulkTransform) : StepComputes s := by
  obtain ⟨hcap, hok⟩ := hi.bulkReady hp
  have hl := lanes_of_cap_ne_zero hcap
  obtain ⟨hrem, henc, -⟩ := bulkOk_room hok
  have hroom := henc hop
  obtain ⟨t, ht⟩ := veIter_completes (fun _ => hi.sourceHolds (by omega)) (hi.destinationHolds hroom)
  obtain ⟨-, -, hmem, u, rfl⟩ := veIter_writes ht
  obtain ⟨n, hn, hwin⟩ := exists_groups s
  have hstep := (sequencerStep_encBulk hp hop).trans (congrArg outcome (encBulk_eq ht))
  have hkind := sequencerStep_transferStep (.inr (.inl hp)) hstep
  have hout : lanesFrom s.lanes (symbolAt s.config.regs s.mem s.srcAddr) =
      encodeList s.config.regs (s.mem.readBytes s.srcAddr s.window) := by
    rw [hn, hwin, encodeList_readBytes]
  have hlen : (encodeList s.config.regs (s.mem.readBytes s.srcAddr s.window)).length = s.lanes := by
    rw [← hout, length_lanesFrom]
  refine ⟨_, hstep, computesTo_of_encoded hi hop (r := s.window) hkind.sameCommand (by simp [hp]) ?_ (by omega)
    (by omega) (by omega) (by simp) (by simp [hlen]) ?_⟩
  · simp only [release_phase, leaveBulkUnlessOk_phase, advance_phase, hp]
    split <;> nofun
  · rw [release_mem, leaveBulkUnlessOk_mem, advance_mem, ← hout]
    exact storedAt_writeBytes hw (by rwa [length_lanesFrom])

theorem encGroup_computes (hp : s.phase = .tailTransform) (hr : 3 ≤ s.remaining) : StepComputes s := by
  have hs : s.phase ≠ .done := by simp [hp]
  by_cases hfull : s.room < 4
  · obtain ⟨u, n, h⟩ := encGroup_of_full hfull
    refine ⟨_, (sequencerStep_encGroup hp hop hr).trans (congrArg outcome h), computesTo_ended hi hw hs _ u n ?_⟩
    rw [transferResult_enc hop, encodeTransfer, Memory.length_readBytes, encodeResult_full _ hr hfull]
    rfl
  · have hd := hi.destinationHolds (Nat.le_of_not_lt hfull)
    obtain ⟨u, n, h⟩ := encGroup_of_room (Nat.le_of_not_lt hfull) (hi.sourceHolds hr) hd
    have hout : encodeList s.config.regs (s.mem.readBytes s.srcAddr 3) =
        (encodeGroup s.config.regs (s.nextByte 0) (s.nextByte 1) (s.nextByte 2)).toList := List.append_nil _
    refine ⟨_, (sequencerStep_encGroup hp hop hr).trans (congrArg outcome h), computesTo_of_encoded hi hop (r := 3)
      (by constructor <;> rfl) hs hs rfl hr ?_ rfl ?_ ?_⟩ <;> rw [hout]
    · simpa using hfull
    · simp
    · exact storedAt_writeBytes hw (by simpa using hd.2)

/-- A final short group that has been read, encoded and written (R217). -/
theorem computesTo_of_closed {u : Units} {n : Nat} {symbols : Vector Byte 4} (hp : s.phase = .tailTransform)
    (hr : s.remaining < 3) (h0 : s.remaining ≠ 0) (hf : s.latch.final = true) (hroom : 4 ≤ s.room)
    (hout : encodeList s.config.regs s.sourceLeft = symbols.toList) : ComputesTo s (ended .done u n
      (advance s.remaining 4 { s with mem := s.mem.writeBytes s.dstAddr symbols.toList })) := by
  have hd := hi.destinationHolds hroom
  refine (counted_of_cursors (r := s.remaining) (bytes := symbols.toList) (by constructor <;> rfl) hi le_rfl (by simpa)
    rfl (by simp [ended]) (storedAt_writeBytes hw (by simpa using hd.2))).computesTo_done (by simp [hp]) rfl ?_
  have hres := encodeResult_short s.room true hr
  rw [if_neg h0, if_neg (by decide), if_neg (by omega)] at hres
  rw [transferResult_enc hop, encodeTransfer, Memory.length_readBytes, hf, hres, ← hout]
  dsimp only
  rw [List.take_of_length_le (by simp)]
  rfl

theorem encTrail_computes (hp : s.phase = .tailTransform) (hr : s.remaining < 3) : StepComputes s := by
  have hstep := sequencerStep_encTrail hp hop hr
  have hs : s.phase ≠ .done := by simp [hp]
  have short (st : Status) (h : encodeResult s.remaining s.room s.latch.final = (st, 0, 0)) :
      transferResult s.config.regs s.latch s.room s.sourceLeft = (st, 0, []) := by
    rw [transferResult_enc hop, encodeTransfer, Memory.length_readBytes, h]
    rfl
  have hres := encodeResult_short s.room s.latch.final hr
  by_cases h0 : s.remaining = 0
  · obtain ⟨u, n, h⟩ := encTrail_of_none h0
    rw [if_pos h0] at hres
    exact ⟨_, hstep.trans (congrArg outcome h), computesTo_ended hi hw hs _ u n (short _ hres)⟩
  rw [if_neg h0] at hres
  cases hf : s.latch.final with
  | false =>
    obtain ⟨u, n, h⟩ := encTrail_of_more h0 hf
    rw [if_pos hf] at hres
    exact ⟨_, hstep.trans (congrArg outcome h), computesTo_ended hi hw hs _ u n (short _ hres)⟩
  | true =>
    rw [if_neg (by simp [hf])] at hres
    by_cases hfull : s.room < 4
    · obtain ⟨u, n, h⟩ := encTrail_of_full h0 hf hfull
      rw [if_pos hfull] at hres
      exact ⟨_, hstep.trans (congrArg outcome h), computesTo_ended hi hw hs _ u n (short _ hres)⟩
    have hroom := Nat.le_of_not_lt hfull
    have hd := hi.destinationHolds hroom
    by_cases h2 : s.remaining = 2
    · obtain ⟨u, n, h⟩ := encTrail_of_two h2 hf hroom (hi.sourceHolds h2.ge) hd
      have hclosed := computesTo_of_closed hi hw hop (u := u) (n := n)
        (symbols := encodeTail2 s.config.regs (s.nextByte 0) (s.nextByte 1)) hp hr h0 hf hroom
        (by rw [State.sourceLeft, h2]; rfl)
      rw [h2] at hclosed
      exact ⟨_, hstep.trans (congrArg outcome h), hclosed⟩
    · have h1 : s.remaining = 1 := by omega
      obtain ⟨u, n, h⟩ := encTrail_of_one h1 hf hroom (hi.sourceHolds h1.ge) hd
      have hclosed := computesTo_of_closed hi hw hop (u := u) (n := n)
        (symbols := encodeTail1 s.config.regs (s.nextByte 0)) hp hr h0 hf hroom (by rw [State.sourceLeft, h1]; rfl)
      rw [h1] at hclosed
      exact ⟨_, hstep.trans (congrArg outcome h), hclosed⟩

end

/-! ## The steps of DEC -/

section
variable {s : State} (hi : TransferInv s) (hw : s.mem.wf = true) (hop : s.latch.op = opDec)
include hi hw hop

theorem decBulk_computes (hp : s.phase = .bulkTransform) : StepComputes s := by
  obtain ⟨hcap, hok⟩ := hi.bulkReady hp
  obtain ⟨hrem, -, hdec⟩ := bulkOk_room hok
  have hroom := hdec hop
  obtain ⟨t, ht⟩ := vdIter_completes (hi.sourceHolds hrem) (hi.destinationHolds hroom)
  have hstep := (sequencerStep_decBulk hp hop).trans (congrArg outcome (decBulk_eq ht))
  have hkind := sequencerStep_transferStep (.inr (.inl hp)) hstep
  have hs : s.phase ≠ .done := by simp [hp]
  obtain ⟨-, ⟨hbad, u, rfl⟩ | ⟨hgood, hvalued, -, u, m, rfl, hm⟩⟩ := vdIter_writes hw ht
  · rw [if_pos hbad] at hstep hkind
    exact ⟨_, hstep, computesTo_of_unchanged hkind.sameCommand hi hw hs nofun rfl rfl rfl⟩
  · rw [if_neg (Bool.eq_false_iff.1 hgood)] at hstep hkind
    obtain ⟨n, hn, hwin⟩ := exists_groups s
    refine ⟨_, hstep, (counted_of_cursors (r := s.lanes)
      (bytes := lanesFrom s.window (rawByteAt s.config.regs s.mem s.srcAddr)) hkind.sameCommand hi hrem
      (by simpa using hroom) (by simp) (by simp) ?_).computesTo_inFlight hi hs ?_ ?_⟩
    · rwa [release_mem, leaveBulkUnlessOk_mem]
    · simp only [release_phase, leaveBulkUnlessOk_phase, advance_phase, hp]
      split <;> nofun
    · rw [transferResult_dec hop, transferResult_dec hop, sourceLeft_cut hrem, length_lanesFrom, hwin, hn]
      exact decodeResult_valued s.config _ s.mem _ n _ _ (hn ▸ hvalued) (hwin ▸ hroom)

theorem decGroup_computes (hp : s.phase = .tailTransform) (hr : 4 ≤ s.remaining) : StepComputes s := by
  have hstep := sequencerStep_decGroup hp hop hr
  have hs : s.phase ≠ .done := by simp [hp]
  have hsource := hi.sourceHolds hr
  have hleft := sourceLeft_cut hr
  change s.sourceLeft = s.nextByte 0 :: s.nextByte 1 :: s.nextByte 2 :: s.nextByte 3 :: _ at hleft
  have hlast : isLastGroup s = (s.latch.final && (s.mem.readBytes (s.srcAddr + 4) (s.remaining - 4)).isEmpty) := by
    rw [isLastGroup, Bool.eq_iff_iff.2 (show s.remaining == 4 ↔ _ from ?_)]
    rw [beq_iff_eq, List.isEmpty_iff_length_eq_zero, Memory.length_readBytes]
    omega
  cases hans : s.nextAnswer with
  | none =>
    obtain ⟨u, n, h⟩ := decGroup_of_invalid hsource hans
    refine ⟨_, hstep.trans (congrArg outcome h), computesTo_ended hi hw hs _ u n ?_⟩
    rw [State.nextAnswer, hlast] at hans
    rw [transferResult_dec hop, hleft]
    exact decodeResult_invalid hans
  | some answer =>
    obtain ⟨w, bytes⟩ := answer
    by_cases hfull : s.room < bytes.length
    · obtain ⟨u, n, h⟩ := decGroup_of_full hsource hans hfull
      refine ⟨_, hstep.trans (congrArg outcome h), computesTo_ended hi hw hs _ u n ?_⟩
      rw [State.nextAnswer, hlast] at hans
      rw [transferResult_dec hop, hleft]
      exact decodeResult_full hans hfull
    · have hroom := Nat.le_of_not_lt hfull
      have hd := hi.destinationHolds hroom
      obtain ⟨u, n, h⟩ := decGroup_of_room hsource hans hroom hd
      refine ⟨_, hstep.trans (congrArg outcome h), (counted_of_cursors (r := 4) (bytes := bytes)
        (by constructor <;> rfl) hi hr hroom rfl rfl (storedAt_writeBytes hw hd.2)).computesTo_inFlight hi hs hs ?_⟩
      rw [State.nextAnswer, hlast] at hans
      rw [transferResult_dec hop, transferResult_dec hop, hleft]
      exact decodeResult_group hans hroom

theorem decTrail_computes (hp : s.phase = .tailTransform) (hr : s.remaining < 4) : StepComputes s := by
  obtain ⟨u, n, h⟩ := decTrail_eq s
  refine ⟨_, (sequencerStep_decTrail hp hop hr).trans (congrArg outcome h),
    computesTo_ended hi hw (by simp [hp]) _ u n ?_⟩
  have hshort := decodeResult_short s.config.regs s.latch.final s.room (source := s.sourceLeft)
    (by rwa [Memory.length_readBytes])
  rw [transferResult_dec hop, hshort, Memory.length_readBytes]

end

/-! ## Every step, and the run -/

/-- Every step of a transfer in flight computes on (R225, R226). -/
theorem sequencerStep_computes {s : State} (hi : TransferInv s) (hw : s.mem.wf = true) (hp : s.InFlight) :
    StepComputes s := by
  rcases hp with hp | hp | hp
  · exact scan_computes hi hw hp
  · rcases hi.transfer with hop | hop
    · exact encBulk_computes hi hw hop hp
    · exact decBulk_computes hi hw hop hp
  · rcases hi.transfer with hop | hop
    · by_cases hr : 3 ≤ s.remaining
      · exact encGroup_computes hi hw hop hp hr
      · exact encTrail_computes hi hw hop hp (by omega)
    · by_cases hr : 4 ≤ s.remaining
      · exact decGroup_computes hi hw hop hp hr
      · exact decTrail_computes hi hw hop hp (by omega)

/-- A transfer that ends leaves no fault and no value (R214). -/
theorem TransferStep.result_clean {s t : State} (h : TransferStep s t) (ht : t.phase = .done) :
    t.fault = 0#4 ∧ t.value = 0#32 := by
  cases h with
  | toBulk => cases ht
  | toTail => cases ht
  | iterated u n m r w hs =>
    simp only [leaveBulkUnlessOk_phase, advance_phase, hs] at ht
    split at ht <;> cases ht
  | grouped u n m r w hs => exact absurd (hs.symm.trans ht) (by decide)
  | closed => exact ⟨rfl, rfl⟩
  | stopped => exact ⟨rfl, rfl⟩

/-- A transfer in flight comes to its end within the bound on its steps, and has then computed its result (R232). -/
theorem runSteps_computes : ∀ (k : Nat) {s : State}, s.Inv → s.resetIn = none → s.InFlight → s.stepsLeft ≤ k →
    ∃ j t, j ≤ k ∧ runSteps j s = .next t ∧ t.phase = .done ∧ t.fault = 0#4 ∧ t.value = 0#32 ∧ ComputesTo s t
  | 0, s, _, _, hp, hk => absurd (stepsLeft_pos hp) (by omega)
  | k + 1, s, hi, hr, hp, hk => by
    have hinv := hi.inFlight hp
    obtain ⟨t, ht, hst⟩ := sequencerStep_computes hinv hi.memory hp
    have hkind := sequencerStep_transferStep hp ht
    rw [← step_of_quiet hr hi.selectQuiet] at ht
    by_cases hdone : t.phase = .done
    · obtain ⟨hf, hv⟩ := hkind.result_clean hdone
      exact ⟨1, t, by omega, runSteps_succ ht, hdone, hf, hv, hst⟩
    · have hlt := hkind.stepsLeft_lt hinv
      obtain ⟨j, v, hj, hrun, hend, hf, hv, htv⟩ := runSteps_computes k (hkind.inv hi)
        (hkind.sameCommand.resetIn.trans hr) (inFlight_iff.2 ⟨hkind.phase_ne_idle, hdone⟩) (by omega)
      exact ⟨j + 1, v, by omega, (runSteps_succ ht).trans hrun, hend, hf, hv, hst.trans htv⟩

end Sys2Proof.Machine
end

section
/-! SUPPORT. A whole `ENC` or `DEC` from Accept to `Done`, as a function of its inputs (44_chunk_driver.md R225, R226,
R232), and what `CAP` has no part in (R228). -/

namespace Sys2Proof.Machine

/-! ## Runs -/

/-- A run goes on from where its first part ends. -/
theorem runSteps_add (n : Nat) : ∀ {j : Nat} {s t : State}, runSteps j s = .next t → runSteps (j + n) s = runSteps n t
  | 0, s, t, h => by
    injection h with h
    rw [Nat.zero_add, h]
  | j + 1, s, t, h => by
    cases hs : step s with
    | next v =>
      rw [runSteps_succ hs] at h
      rw [Nat.add_right_comm, runSteps_succ hs, runSteps_add n h]
    | fault f =>
      have hf : Sys2Proof.core.step s = .fault f := hs
      simp [runSteps, Host.Core.run, hf] at h
    | refused r =>
      have hr : Sys2Proof.core.step s = .refused r := hs
      simp [runSteps, Host.Core.run, hr] at h

/-- An ended command whose response is not taken stays as it is (R222; log 11). -/
theorem runSteps_waiting {t : State} (hu : t.Undisturbed) (hp : t.phase = .done) : ∀ n : Nat, runSteps n t = .next t
  | 0 => rfl
  | n + 1 => (runSteps_succ (step_waiting hu hp)).trans (runSteps_waiting hu hp n)

/-! ## A started transfer, run to its end -/

/-- The result of the transfer of latch `l`, from the configuration and the source bytes in `s` (R225, R226). -/
def State.transferOf (s : State) (l : Latch) : TransferResult :=
  transferResult s.config.regs l l.dstCap.toNat (s.mem.readBytes l.srcBase.toNat l.srcLen.toNat)

/-- `t` has ended the transfer of latch `l` accepted in `s`, with the result of the rule (R225, R226). -/
structure Finished (s : State) (l : Latch) (t : State) : Prop where
  phase : t.phase = .done
  fault : t.fault = 0#4
  value : t.value = 0#32
  same : SameCommand (afterAccept l 0#4 0#32 .scanning s) t
  status : t.status = (s.transferOf l).1
  consumed : t.consumed.toNat = (s.transferOf l).2.1
  written : t.written.toNat = (s.transferOf l).2.2.length
  stored : StoredAt s t.mem l.dstBase.toNat (s.transferOf l).2.2

/-- The status, the counts and the bytes of a finished transfer, of a result that is known. -/
theorem Finished.result {s t : State} {l : Latch} {st : Status} {n : Nat} {bytes : List Byte} (h : Finished s l t)
    (hres : s.transferOf l = (st, n, bytes)) : t.status = st ∧ t.consumed.toNat = n ∧ t.written.toNat = bytes.length ∧
      StoredAt s t.mem l.dstBase.toNat bytes := by
  obtain ⟨-, -, -, -, hs, hc, hw, hm⟩ := h
  rw [hres] at hs hc hw hm
  exact ⟨hs, hc, hw, hm⟩

/-- What a started transfer has computed when it has ended. -/
theorem finished_of_computesTo {s t : State} {l : Latch} (hp : t.phase = .done) (hf : t.fault = 0#4)
    (hv : t.value = 0#32) (h : ComputesTo (afterAccept l 0#4 0#32 .scanning s) t) : Finished s l t := by
  obtain ⟨r, bytes, hc, he⟩ := h
  rw [toCome_done hp, TransferResult.after, Nat.zero_add, List.append_nil] at he
  have hres : s.transferOf l = (t.status, r, bytes) := he
  refine ⟨hp, hf, hv, hc.same, ?_, ?_, ?_, ?_⟩ <;> rw [hres]
  · exact hc.consumed.trans (Nat.zero_add r)
  · exact hc.written.trans (Nat.zero_add _)
  · exact hc.stored

/-- A started transfer ends within its bound, with the result of the rule (R225, R226, R232). -/
theorem started_run {s : State} {l : Latch} (hq : s.Quiet) (hw : s.mem.wf = true) (hop : l.op = opEnc ∨ l.op = opDec)
    (h : Admitted s l.srcLen l.srcBase l.dstCap l.dstBase) :
    ∃ k t, k ≤ l.srcLen.toNat / 3 + 3 ∧ runSteps k (afterAccept l 0#4 0#32 .scanning s) = .next t ∧
      Finished s l t := by
  have hinv : (afterAccept l 0#4 0#32 .scanning s).Inv := .of_inFlight hq.2 hw nofun (transferInv_started hop h)
  obtain ⟨k, t, hk, hrun, hp, hf, hv, hst⟩ := runSteps_computes _ hinv hq.1 (.inl rfl) (stepsLeft_scanning rfl).le
  exact ⟨k, t, hk, hrun, finished_of_computesTo hp hf hv hst⟩

/-- The same, the response not being taken: the state at the bound (R232). -/
theorem started_run_waiting {s : State} {l : Latch} (hu : s.Undisturbed) (hw : s.mem.wf = true)
    (hop : l.op = opEnc ∨ l.op = opDec) (h : Admitted s l.srcLen l.srcBase l.dstCap l.dstBase) :
    ∃ t, runSteps (l.srcLen.toNat / 3 + 3) (afterAccept l 0#4 0#32 .scanning s) = .next t ∧ Finished s l t := by
  obtain ⟨k, t, hk, hrun, ht⟩ := started_run hu.quiet hw hop h
  have hut : t.Undisturbed := ⟨⟨ht.same.resetIn.trans hu.quiet.1, ht.same.uopSel.trans hu.quiet.2⟩,
    ht.same.hostTakes.trans hu.notTaken⟩
  obtain ⟨n, hn⟩ := Nat.exists_eq_add_of_le hk
  rw [hn]
  exact ⟨t, (runSteps_add n hrun).trans (runSteps_waiting hut ht.phase n), ht⟩

/-! ## The two commands -/

theorem readBytes_take (m : Memory) (a : Nat) {n k : Nat} (h : k ≤ n) : (m.readBytes a n).take k = m.readBytes a k := by
  obtain ⟨j, rfl⟩ := Nat.exists_eq_add_of_le h
  rw [readBytes_append, List.take_left' (Memory.length_readBytes ..)]

/-- The result of an `ENC`, by the source bytes it consumes (R225). -/
theorem transferOf_enc (s : State) {l : Latch} (hop : l.op = opEnc) :
    let r := encodeResult l.srcLen.toNat l.dstCap.toNat l.final
    let symbols := encodeList s.config.regs (s.mem.readBytes l.srcBase.toNat r.2.1)
    s.transferOf l = (r.1, r.2.1, symbols) ∧ symbols.length = r.2.2 := by
  obtain ⟨hle, hlen⟩ := encodeResult_written s.config.regs l.final l.dstCap.toNat
    (s.mem.readBytes l.srcBase.toNat l.srcLen.toNat)
  rw [Memory.length_readBytes] at hle hlen
  rw [readBytes_take _ _ hle] at hlen
  refine ⟨?_, hlen⟩
  rw [State.transferOf, transferResult_enc hop, encodeTransfer, Memory.length_readBytes, readBytes_take _ _ hle]

/-- The result of a `DEC` (R226). -/
theorem transferOf_dec (s : State) {l : Latch} (hop : l.op = opDec) :
    s.transferOf l = decodeResult s.config.regs l.final l.dstCap.toNat (s.mem.readBytes l.srcBase.toNat l.srcLen.toNat) :=
  transferResult_dec hop _ _ _

/-! ## Another capability level -/

/-- The state with another configuration. -/
abbrev State.withConfig (s : State) (c : WfConfiguration) : State := { s with config := c }

/-- An outcome of a command does not depend on the configuration `c` put in place of the state's. -/
def Reconfigurable (run : State → Host.Outcome State Fault Refusal) (c : WfConfiguration) (s : State) : Prop :=
  run (s.withConfig c) = mapNext (fun t => t.withConfig c) (run s)

theorem SameButCap.pad {c1 c2 : Configuration} (h : SameButCap c1 c2) : c2.pad = c1.pad := by
  rw [h]

section
variable {s : State} {c : WfConfiguration}

theorem accept_reconfigurable {l : Latch} {start : State → Host.Outcome State Fault Refusal} (hp : s.phase = .idle)
    (h : firstFailingCheck l = none → Reconfigurable start c (latchCommand l s)) :
    Reconfigurable (accept l start) c s := by
  unfold Reconfigurable
  cases hf : firstFailingCheck l with
  | some f =>
    rw [accept_fault (s := s.withConfig c) hp hf, accept_fault hp hf]
    rfl
  | none =>
    rw [accept_start (s := s.withConfig c) hp hf, accept_start hp hf]
    exact h hf

theorem startTransfer_reconfigurable (s : State) (c : WfConfiguration) : Reconfigurable startTransfer c s := by
  have ho : regionsOverlap (s.withConfig c).latch = regionsOverlap s.latch := rfl
  have hm : regionsAreMemory (s.withConfig c) = regionsAreMemory s := rfl
  rw [Reconfigurable, startTransfer, startTransfer, ho, hm]
  split_ifs <;> rfl

/-- A `DECLEN` looks at no other part of the configuration than `PAD` (R124). -/
theorem startDeclen_reconfigurable {n : Len} {base : Addr} (hpad : c.regs.pad = s.config.regs.pad)
    (hn : n.toNat ≤ Config.lenMax) :
    Reconfigurable startDeclen c (latchCommand ⟨opDeclen, false, false, base, n, 0, 0⟩ s) := by
  unfold Reconfigurable
  cases hm : regionsAreMemory (latchCommand ⟨opDeclen, false, false, base, n, 0, 0⟩ s) with
  | false =>
    rw [startDeclen_fault hm]
    exact startDeclen_fault hm
  | true =>
    have hr : readableMem s.memMap base.toNat n.toNat = true := (Bool.and_eq_true_iff.1 hm).1
    have h := startDeclen_eq (s := s.withConfig c) hn hr
    rw [hpad] at h
    rw [startDeclen_eq hn hr]
    exact h

/-- Accept of any command does the same at every capability level (R228). -/
theorem execCommand_reconfigurable {i : Instr} (hi : i.isMicroOp = false) (hp : s.phase = .idle)
    (h : SameButCap s.config.regs c.regs) : Reconfigurable (exec i) c s := by
  cases i with
  | enc | dec => exact accept_reconfigurable hp fun _ => startTransfer_reconfigurable _ c
  | enclen n =>
    refine accept_reconfigurable hp fun hf => ?_
    rw [Reconfigurable, startEnclen_eq s hf]
    exact startEnclen_eq (s.withConfig c) hf
  | declen elem n base =>
    refine accept_reconfigurable hp fun hf => ?_
    obtain ⟨rfl, hrange⟩ := firstFailingCheck_declen hf
    exact startDeclen_reconfigurable h.pad hrange.1
  | _ => cases hi

/-- Accept of whatever is on offer does the same at every capability level (R228). -/
theorem idleStep_reconfigurable (hp : s.phase = .idle) (h : SameButCap s.config.regs c.regs) :
    Reconfigurable idleStep c s := by
  unfold Reconfigurable
  cases ho : s.offers with
  | nil => simp [idleStep, ho, mapNext]
  | cons d rest =>
    cases hd : decode (.cmd d) with
    | error e =>
      have hno (i : Instr) : decode (.cmd d) ≠ .ok i := by simp [hd]
      rw [idleStep_of_undecodable ho hno, idleStep_of_undecodable (s := s.withConfig c) ho hno]
      rfl
    | ok i =>
      rw [idleStep_of_decode ho hd, idleStep_of_decode (s := s.withConfig c) ho hd]
      exact execCommand_reconfigurable (s := { s with offers := rest }) (decode_cmd_isMicroOp hd) hp h

/-- The result of a transfer is the same at every capability level (R228). -/
theorem transferOf_withConfig (h : SameButCap s.config.regs c.regs) (l : Latch) :
    (s.withConfig c).transferOf l = s.transferOf l := (transferResult_sameButCap h l _ _).symm

/-- The ends of a transfer at two capability levels answer alike and leave the same memory (R228). -/
theorem Finished.unobservable {l : Latch} {t v : State} (h : SameButCap s.config.regs c.regs) (ht : Finished s l t)
    (hv : Finished (s.withConfig c) l v) : SameResponse t v ∧ t.mem = v.mem := by
  have hres := transferOf_withConfig h l
  refine ⟨⟨?_, ht.fault.trans hv.fault.symm, BitVec.eq_of_toNat_eq ?_, BitVec.eq_of_toNat_eq ?_,
    ht.value.trans hv.value.symm⟩, Memory.eq_of_read ht.stored.1 hv.stored.1 fun a => ?_⟩
  · rw [ht.status, hv.status, hres]
  · rw [ht.consumed, hv.consumed, hres]
  · rw [ht.written, hv.written, hres]
  · rw [ht.stored.2, hv.stored.2, hres]
    rfl

end

end Sys2Proof.Machine

open Sys2Proof Sys2Proof.Machine

/-- Settles O55, by the run of the started transfer. -/
theorem encCommand : Obligations.EncCommand := by
  intro s final srcLen srcBase dstCap dstBase hq hp hw ha
  obtain ⟨k, t, hk, hrun, ht⟩ := started_run (l := transferLatch false final srcLen srcBase dstCap dstBase) hq hw
    (transferLatch_op ..) ha
  obtain ⟨hres, hlen⟩ := transferOf_enc s (l := transferLatch false final srcLen srcBase dstCap dstBase) rfl
  obtain ⟨hs, hc, hd, hm⟩ := ht.result hres
  refine ⟨_, k, t, exec_transfer false final hp ha, hk, hrun, ht.phase, ht.fault, ht.value, ?_, ?_, ht.same.config,
    ht.same.offers, ht.same.responses⟩
  · rw [hs, hc, hd, hlen]
    rfl
  · rw [hc]
    exact hm

/-- Settles O56, by the run of the started transfer. -/
theorem decCommand : Obligations.DecCommand := by
  intro s final srcLen srcBase dstCap dstBase hq hp hw ha
  obtain ⟨k, t, hk, hrun, ht⟩ := started_run (l := transferLatch true final srcLen srcBase dstCap dstBase) hq hw
    (transferLatch_op ..) ha
  have hres := transferOf_dec s (l := transferLatch true final srcLen srcBase dstCap dstBase) rfl
  exact ⟨_, k, t, exec_transfer true final hp ha, hk, hrun, ht.phase, ht.fault, ht.value, hres ▸ ht.status,
    hres ▸ ht.consumed, hres ▸ ht.written, hres ▸ ht.stored, ht.same.config, ht.same.offers, ht.same.responses⟩

/-- Settles O57: Accept by cases on the command on offer, a transfer by the result that both runs come to. -/
theorem capabilityLevelUnobservable : Obligations.CapabilityLevelUnobservable := by
  intro s c hq hp hcap
  refine ⟨?_, fun decoding final srcLen srcBase dstCap dstBase hw hn ha => ?_⟩
  · rw [step_of_quiet hq.1 hq.2, step_of_quiet (s := s.withConfig c) hq.1 hq.2, sequencerStep_idle hp,
      sequencerStep_idle (s := s.withConfig c) hp]
    exact idleStep_reconfigurable hp hcap
  · have ha' : Admitted (s.withConfig c) srcLen srcBase dstCap dstBase := ha.of_memMap_eq rfl
    have hop := transferLatch_op decoding final srcLen srcBase dstCap dstBase
    obtain ⟨t, hrun, ht⟩ := started_run_waiting ⟨hq, hn⟩ hw hop ha
    obtain ⟨v, hrun', hv⟩ := started_run_waiting (s := s.withConfig c) ⟨hq, hn⟩ hw hop ha'
    obtain ⟨hrsp, hmem⟩ := ht.unobservable hcap hv
    exact ⟨_, _, t, v, exec_transfer decoding final hp ha, exec_transfer (s := s.withConfig c) decoding final hp ha',
      hrun, hrun', ht.phase, hv.phase, hrsp, hmem⟩

end

section
/-! SUPPORT. Commands offered one after the other (44_chunk_driver.md R229, R230): each is accepted, run and delivered,
and leaves the block ready for the next. -/

namespace Sys2Proof.Machine

/-! ## One command, from its offer to its response -/

/-- The block waits for a command, and the host takes every response at once. -/
structure Ready (s : State) : Prop where
  quiet : s.Quiet
  idle : s.phase = .idle
  memory : s.mem.wf = true
  hostTakes : s.hostTakes = true

/-- `t` is ready again after the transfer of latch `l` offered in `s`; `rest` is still on offer, and `r` is the
response, with the result of the rule (R222, R225, R226). -/
structure Responded (s : State) (l : Latch) (rest : List Descriptor) (t : State) (r : ResponseWord) : Prop where
  ready : Ready t
  offers : t.offers = rest
  responses : t.responses = s.responses ++ [r]
  config : t.config = s.config
  memMap : t.memMap = s.memMap
  fault : rspFault r = 0#4
  status : rspStatus r = statusCode (s.transferOf l).1
  consumed : (rspConsumed r).toNat = (s.transferOf l).2.1
  written : (rspWritten r).toNat = (s.transferOf l).2.2.length
  stored : StoredAt s t.mem l.dstBase.toNat (s.transferOf l).2.2

/-- The response and the bytes of a transfer, of a result that is known. -/
theorem Responded.result {s t : State} {l : Latch} {rest : List Descriptor} {r : ResponseWord} {st : Status} {n : Nat}
    {bytes : List Byte} (h : Responded s l rest t r) (hres : s.transferOf l = (st, n, bytes)) :
    rspStatus r = statusCode st ∧ (rspConsumed r).toNat = n ∧ (rspWritten r).toNat = bytes.length ∧
      StoredAt s t.mem l.dstBase.toNat bytes := by
  obtain ⟨-, -, -, -, -, -, hs, hc, hw, hm⟩ := h
  rw [hres] at hs hc hw hm
  exact ⟨hs, hc, hw, hm⟩

/-- Delivering the response of a finished transfer (R222). -/
theorem Finished.responded {s e : State} {l : Latch} {rest : List Descriptor} (hs : Ready s)
    (h : Finished { s with offers := rest } l e) : Responded s l rest (deliver e) (responseOf e) := by
  obtain ⟨hstatus, -, hfault, -, hconsumed, hwritten, -⟩ := responseOf_fields e
  exact {
    ready := ⟨⟨h.same.resetIn.trans hs.quiet.1, h.same.uopSel.trans hs.quiet.2⟩, rfl, h.stored.1,
      h.same.hostTakes.trans hs.hostTakes⟩
    offers := h.same.offers
    responses := congrArg (· ++ [responseOf e]) h.same.responses
    config := h.same.config
    memMap := h.same.memMap
    fault := hfault.trans h.fault
    status := hstatus.trans (congrArg statusCode h.status)
    consumed := (congrArg BitVec.toNat hconsumed).trans h.consumed
    written := (congrArg BitVec.toNat hwritten).trans h.written
    stored := h.stored }

/-- A transfer on offer is accepted, run to its end and delivered (R210, R211, R222). -/
theorem responded_run {s : State} {d : Descriptor} {rest : List Descriptor} (decoding final : Bool)
    {srcLen dstCap : Len} {srcBase dstBase : Addr} (hs : Ready s) (ho : s.offers = d :: rest)
    (ha : Admitted s srcLen srcBase dstCap dstBase)
    (hd : encode (if decoding then .dec final false srcLen srcBase dstCap dstBase
      else .enc final false srcLen srcBase dstCap dstBase) = .cmd d) :
    ∃ k t r, runSteps k s = .next t ∧
      Responded s (transferLatch decoding final srcLen srcBase dstCap dstBase) rest t r := by
  have hq := hs.quiet
  have ha' : Admitted { s with offers := rest } srcLen srcBase dstCap dstBase := ha.of_memMap_eq rfl
  have hdec := decode_encode (if decoding then .dec final false srcLen srcBase dstCap dstBase
    else .enc final false srcLen srcBase dstCap dstBase)
  rw [hd] at hdec
  have haccept : step s = .next (afterAccept (transferLatch decoding final srcLen srcBase dstCap dstBase) 0#4 0#32
      .scanning { s with offers := rest }) := by
    rw [step_of_quiet hq.1 hq.2, sequencerStep_idle hs.idle, idleStep_of_decode ho hdec]
    exact exec_transfer (s := { s with offers := rest }) decoding final hs.idle ha'
  obtain ⟨k, e, -, hrun, he⟩ := started_run (s := { s with offers := rest })
    (l := transferLatch decoding final srcLen srcBase dstCap dstBase) hq hs.memory (transferLatch_op ..) ha'
  have hdeliver : step e = .next (deliver e) := by
    rw [step_of_quiet (he.same.resetIn.trans hq.1) (he.same.uopSel.trans hq.2), sequencerStep_done he.phase, doneStep,
      if_pos (he.same.hostTakes.trans hs.hostTakes)]
  exact ⟨k + 1 + 1, deliver e, responseOf e,
    (runSteps_succ haccept).trans ((runSteps_add 1 hrun).trans (runSteps_succ hdeliver)), he.responded hs⟩

/-! ## Encodings that fit -/

section
variable {s : State} {l : Latch} {source : List Byte} (hop : l.op = opEnc)
include hop

/-- A final `ENC` with room for the whole encoding writes all of it (R225). -/
theorem transferOf_enc_whole (hf : l.final = true) (h : 4 * ((l.srcLen.toNat + 2) / 3) ≤ l.dstCap.toNat)
    (hsource : s.mem.readBytes l.srcBase.toNat l.srcLen.toNat = source) :
    s.transferOf l = (.done, l.srcLen.toNat, encodeList s.config.regs source) := by
  obtain ⟨hres, -⟩ := transferOf_enc s hop
  rw [hf, encodeResult_whole h] at hres
  exact hsource ▸ hres

/-- An `ENC` with more to come and room for its whole groups writes these (R225). -/
theorem transferOf_enc_more (hf : l.final = false) (h : 4 * (l.srcLen.toNat / 3) ≤ l.dstCap.toNat)
    (hsource : s.mem.readBytes l.srcBase.toNat (3 * (l.srcLen.toNat / 3)) = source) :
    s.transferOf l = (if l.srcLen.toNat % 3 = 0 then .done else .needMoreData, 3 * (l.srcLen.toNat / 3),
      encodeList s.config.regs source) := by
  obtain ⟨hres, -⟩ := transferOf_enc s hop
  rw [hf, encodeResult_more h] at hres
  exact hsource ▸ hres

end

/-! ## What is left of a region -/

/-- The base of what is left of a region behind its first `k` bytes, if anything is. -/
theorem toNat_base_add {base : Addr} {k : Nat} (h : base.toNat + k < Config.addressSpace) :
    (base + BitVec.ofNat 64 k).toNat = base.toNat + k := by
  unfold Config.addressSpace at h
  simp only [BitVec.toNat_add, BitVec.toNat_ofNat]
  omega

/-- The length of what is left of a region behind its first `k` bytes. -/
theorem toNat_len_sub {len : Len} {k : Nat} (h : k ≤ len.toNat) : (len - BitVec.ofNat 32 k).toNat = len.toNat - k := by
  have := len.isLt
  simp only [BitVec.toNat_sub, BitVec.toNat_ofNat]
  omega

section
variable {base : Addr} {len : Len} {k : Nat} (h : RegionInRange base len) (hk : k ≤ len.toNat)
include h hk

/-- What is left of a region is part of it. -/
theorem inRegion_of_left {a : Nat} (ha : InRegion (base + BitVec.ofNat 64 k) (len - BitVec.ofNat 32 k) a) :
    InRegion base len a := by
  have hlen := toNat_len_sub hk
  have hend := h.2
  have hbase := toNat_base_add (base := base) (k := k) (by omega)
  exact ⟨by omega, by omega⟩

/-- What is left of a region in range is in range. -/
theorem regionInRange_left : RegionInRange (base + BitVec.ofNat 64 k) (len - BitVec.ofNat 32 k) := by
  have hlen := toNat_len_sub hk
  have hbase : (base + BitVec.ofNat 64 k).toNat ≤ base.toNat + k := by
    simp only [BitVec.toNat_add, BitVec.toNat_ofNat]
    omega
  exact ⟨by omega, by omega⟩

end

/-- The preconditions of a transfer hold of a shorter source (R70, R71). -/
theorem Admitted.shorter {s : State} {srcLen len dstCap : Len} {srcBase dstBase : Addr}
    (h : Admitted s srcLen srcBase dstCap dstBase) (hle : len.toNat ≤ srcLen.toNat) :
    Admitted s len srcBase dstCap dstBase where
  source := ⟨hle.trans h.source.1, (Nat.add_le_add_left hle _).trans h.source.2⟩
  destination := h.destination
  disjoint a ha := h.disjoint a ⟨⟨ha.1.1, ha.1.2.trans_le (Nat.add_le_add_left hle _)⟩, ha.2⟩
  readable := readableMem_mono h.readable le_rfl (Nat.add_le_add_left hle _)
  writable := h.writable

/-- The preconditions of a transfer hold of what is left of its regions (R70, R71). -/
theorem Admitted.left {s : State} {srcLen dstCap : Len} {srcBase dstBase : Addr} {k j : Nat}
    (h : Admitted s srcLen srcBase dstCap dstBase) (hk : k ≤ srcLen.toNat) (hj : j ≤ dstCap.toNat) :
    Admitted s (srcLen - BitVec.ofNat 32 k) (srcBase + BitVec.ofNat 64 k) (dstCap - BitVec.ofNat 32 j)
      (dstBase + BitVec.ofNat 64 j) where
  source := regionInRange_left h.source hk
  destination := regionInRange_left h.destination hj
  disjoint a ha := h.disjoint a ⟨inRegion_of_left h.source hk ha.1, inRegion_of_left h.destination hj ha.2⟩
  readable := readableMem_iff.2 ⟨(regionInRange_left h.source hk).2, fun x h1 h2 =>
    have hx := inRegion_of_left h.source hk ⟨h1, h2⟩
    (readableMem_iff.1 h.readable).2 x hx.1 hx.2⟩
  writable := writableMem_iff.2 ⟨(regionInRange_left h.destination hj).2, fun x h1 h2 =>
    have hx := inRegion_of_left h.destination hj ⟨h1, h2⟩
    (writableMem_iff.1 h.writable).2 x hx.1 hx.2⟩

/-- What is left of a region of memory, read as a whole. -/
theorem readBytes_left (m : Memory) {base : Addr} {len : Len} {k : Nat} (h : RegionInRange base len)
    (hk : k ≤ len.toNat) : m.readBytes (base + BitVec.ofNat 64 k).toNat (len - BitVec.ofNat 32 k).toNat =
      m.readBytes (base.toNat + k) (len.toNat - k) := by
  rw [toNat_len_sub hk]
  by_cases hlt : base.toNat + k < Config.addressSpace
  · rw [toNat_base_add hlt]
  · rw [show len.toNat - k = 0 by have := h.2; omega]
    rfl

end Sys2Proof.Machine

open Sys2Proof Sys2Proof.Machine

/-- Settles O59: the `ENC` writes the whole encoding, which the `DEC` reads back and decodes. -/
theorem roundTrip : Obligations.RoundTrip := by
  intro s n srcBase midCap midBase outCap outBase d1 d2 hq hp hw ht hn e hmid hout ha1 ha2 hd1 hd2 ho
  obtain ⟨source, hsource⟩ : ∃ source, s.mem.readBytes srcBase.toNat n.toNat = source := ⟨_, rfl⟩
  have hn' : source.length = n.toNat := hsource ▸ Memory.length_readBytes ..
  have he : (BitVec.ofNat 32 e).toNat = e := by
    rw [BitVec.toNat_ofNat]
    unfold Config.encMax Config.lenMax at hn
    omega
  have he' : (encodeList s.config.regs source).length = e := by rw [length_encodeList, hn']
  -- the ENC
  obtain ⟨k1, t1, r1, hrun1, h1⟩ := responded_run false true ⟨hq, hp, hw, ht⟩ ho ha1 hd1
  obtain ⟨hs1, hc1, hw1, hmem1⟩ := h1.result (transferOf_enc_whole rfl rfl hmid hsource)
  -- the DEC, on the symbols the ENC has written
  obtain ⟨k2, t2, r2, hrun2, h2⟩ := responded_run true true h1.ready h1.offers (ha2.of_memMap_eq h1.memMap) hd2
  have hread : t1.mem.readBytes midBase.toNat (BitVec.ofNat 32 e).toNat = encodeList s.config.regs source := by
    rw [he, ← he']
    exact hmem1.readBytes_self
  have hdecoded : decodeResult t1.config.regs true outCap.toNat (t1.mem.readBytes midBase.toNat
      (BitVec.ofNat 32 e).toNat) = (.done, e, source) := by
    rw [hread, h1.config, decodeResult_encodeList s.config source _ (by rwa [hn']), he']
  obtain ⟨hs2, hc2, hw2, hmem2⟩ := h2.result ((transferOf_dec t1 rfl).trans hdecoded)
  -- the source, in the destination of the DEC
  have hback : t2.mem.readBytes outBase.toNat n.toNat = source := hn' ▸ hmem2.readBytes_self
  refine ⟨k1 + k2, t2, r1, r2, (runSteps_add k2 hrun1).trans hrun2, h2.ready.idle, h2.offers, ?_, h1.fault, hs1,
    BitVec.eq_of_toNat_eq hc1, hw1.trans he', h2.fault, hs2, hc2, BitVec.eq_of_toNat_eq (hw2.trans hn'),
    fun j hj => ?_⟩
  · rw [h2.responses, h1.responses, List.append_assoc]
    rfl
  · rw [← Memory.getD_readBytes _ _ hj 0#8, hback, ← hsource, Memory.getD_readBytes _ _ hj]

/-- Settles O60: the whole groups of the first chunk and what is left behind them are the whole source, and their
encodings the whole encoding. -/
theorem streamedEncodeEqualsWhole : Obligations.StreamedEncodeEqualsWhole := by
  intro s n first srcBase dstCap dstBase d1 d2 hq hp hw ht ha hfirst hcap groups hd1 hd2 ho
  have hsrc : 3 * groups ≤ n.toNat := by omega
  have hdst : 4 * groups ≤ dstCap.toNat := by omega
  have hn := toNat_len_sub hsrc
  have hd := toNat_len_sub hdst
  obtain ⟨front, hfront⟩ : ∃ front, s.mem.readBytes srcBase.toNat (3 * groups) = front := ⟨_, rfl⟩
  obtain ⟨back, hback⟩ : ∃ back, s.mem.readBytes (srcBase.toNat + 3 * groups) (n.toNat - 3 * groups) = back := ⟨_, rfl⟩
  have hlen : front.length = 3 * groups := hfront ▸ Memory.length_readBytes ..
  have hlen1 : (encodeList s.config.regs front).length = 4 * groups := by
    rw [length_encodeList, hlen]
    omega
  have hlen2 : (encodeList s.config.regs back).length = 4 * ((n.toNat - 3 * groups + 2) / 3) := by
    rw [length_encodeList, ← hback, Memory.length_readBytes]
  -- the first chunk
  obtain ⟨k1, t1, r1, hrun1, h1⟩ := responded_run false false ⟨hq, hp, hw, ht⟩ ho (ha.shorter hfirst) hd1
  obtain ⟨hs1, hc1, hw1, hmem1⟩ := h1.result (transferOf_enc_more rfl rfl hdst hfront)
  -- what it has not consumed together with the second chunk: the first one's output has left these bytes as they are
  obtain ⟨k2, t2, r2, hrun2, h2⟩ := responded_run false true h1.ready h1.offers
    ((ha.left hsrc hdst).of_memMap_eq h1.memMap) hd2
  have hkept : t1.mem.readBytes (srcBase.toNat + 3 * groups) (n.toNat - 3 * groups) = back := by
    rw [← hback]
    refine hmem1.readBytes_clear fun i hi hmeet => ?_
    rw [hlen1] at hmeet
    exact ha.disjoint _ ⟨⟨by omega, by omega⟩, ⟨hmeet.1, hmeet.2.trans_le (Nat.add_le_add_left hdst _)⟩⟩
  have hcap2 : 4 * (((n - BitVec.ofNat 32 (3 * groups)).toNat + 2) / 3) ≤
      (dstCap - BitVec.ofNat 32 (4 * groups)).toNat := by omega
  have hres2 := transferOf_enc_whole (l := transferLatch false true (n - BitVec.ofNat 32 (3 * groups))
    (srcBase + BitVec.ofNat 64 (3 * groups)) (dstCap - BitVec.ofNat 32 (4 * groups))
    (dstBase + BitVec.ofNat 64 (4 * groups))) rfl rfl hcap2 ((readBytes_left t1.mem
      ha.source hsrc).trans hkept)
  rw [h1.config] at hres2
  obtain ⟨hs2, -, hw2, hmem2⟩ := h2.result hres2
  refine ⟨k1 + k2, t2, r1, r2, (runSteps_add k2 hrun1).trans hrun2, h2.ready.idle, h2.offers, ?_, h1.fault, ?_, hc1,
    h2.fault, hs2, ?_, ?_⟩
  · rw [h2.responses, h1.responses, List.append_assoc]
    rfl
  · rw [hs1]
    exact apply_ite statusCode _ _ _
  · rw [hw1, hw2, hlen1, hlen2]
    omega
  · rw [← Nat.add_sub_cancel' hsrc, readBytes_append, hfront, hback, encodeList_append _ _ (by omega)]
    refine hmem1.append hmem2 fun hne => ?_
    have hpos := List.length_pos_iff.2 hne
    have hend := ha.destination.2
    rw [hlen2] at hpos
    rw [hlen1]
    exact toNat_base_add (by omega)

end

section
/-! SUPPORT. The faults Accept raises for a command's operands (30_encoding.md R97; 60_exceptions.md R256 to R258):
`ELEM` before any range, then the ranges, and none past them. -/

namespace Sys2Proof.Machine

/-! ## The checks that operands fail -/

/-- `ELEM = 1` is the first check to fail, whatever the ranges are (R97, R258). -/
theorem firstFailingCheck_wide {l : Latch} (he : l.elem = true) :
    firstFailingCheck l = some .unsupportedElementType := if_pos he

/-- A region that is not in range fails the check of the ranges, in any command but `ENCLEN` (R97). -/
theorem firstFailingCheck_outOfRange {l : Latch} (hop : l.op ≠ opEnclen) (he : l.elem = false)
    (h : ¬(RegionInRange l.srcBase l.srcLen ∧ RegionInRange l.dstBase l.dstCap)) :
    firstFailingCheck l = some .rangeError := by
  rw [← regionInRange_iff, ← regionInRange_iff, ← Bool.and_eq_true] at h
  simp [firstFailingCheck, he, hop, h]

/-- Accept of a command with `ELEM = 1` (R256, R258). -/
theorem accept_wide {s : State} (hp : s.phase = .idle) (l : Latch) (start : State → Host.Outcome State Fault Refusal)
    (he : l.elem = true) :
    accept l start s = .next (afterAccept l (faultCode .unsupportedElementType) 0#32 .done s) :=
  accept_fault hp (firstFailingCheck_wide he)

/-- Accept of a command other than `ENCLEN` with a region out of range (R257). -/
theorem accept_outOfRange {s : State} (hp : s.phase = .idle) (l : Latch)
    (start : State → Host.Outcome State Fault Refusal) (hop : l.op ≠ opEnclen) (he : l.elem = false)
    (h : ¬(RegionInRange l.srcBase l.srcLen ∧ RegionInRange l.dstBase l.dstCap)) :
    accept l start s = .next (afterAccept l (faultCode .rangeError) 0#32 .done s) :=
  accept_fault hp (firstFailingCheck_outOfRange hop he h)

/-! ## What Accept does past the checks -/

/-- A transfer that is started raises no fault (R211). -/
theorem fault_of_startTransfer {s t : State} (h : startTransfer s = .next t) : t.fault = s.fault := by
  unfold startTransfer at h
  split at h
  · cases h
  · split at h
    · injection h with h
      rw [← h]
    · cases h

/-- A transfer in range that is accepted raises no fault (R211, R257). -/
theorem fault_of_accept_transfer {l : Latch} {s t : State} (hp : s.phase = .idle) (hop : l.op = opEnc ∨ l.op = opDec)
    (he : l.elem = false) (hsrc : RegionInRange l.srcBase l.srcLen) (hdst : RegionInRange l.dstBase l.dstCap)
    (h : accept l startTransfer s = .next t) : t.fault = 0#4 := by
  rw [accept_transfer_eq hp hop he hsrc hdst] at h
  exact fault_of_startTransfer h

/-- A `DECLEN` in range that is accepted raises no fault: its source is then readable, and it is answered (R123,
R257). -/
theorem fault_of_execDeclen {n : Len} {base : Addr} {s t : State} (hp : s.phase = .idle) (hsrc : RegionInRange base n)
    (h : execDeclen false n base s = .next t) : t.fault = 0#4 := by
  have hm := readable_of_startDeclen ((accept_declen_eq hp hsrc).symm.trans h)
  injection (execDeclen_answers hp hsrc hm).symm.trans h with ht
  rw [← ht]
  rfl

/-- An `ENCLEN` up to `ENC_MAX` raises no fault (R120, R257). -/
theorem fault_of_execEnclen {n : Len} {s t : State} (hp : s.phase = .idle) (hn : n.toNat ≤ Config.encMax)
    (h : execEnclen n s = .next t) : t.fault = 0#4 := by
  injection (execEnclen_answers hp hn).symm.trans h with ht
  rw [← ht]
  rfl

end Sys2Proof.Machine

open Sys2Proof Sys2Proof.Machine

/-- Settles O16: `ELEM` is the first check, so each of the three commands fails it. -/
theorem wideElementsFault : Obligations.WideElementsFault := by
  intro s final srcLen srcBase dstCap dstBase hp
  exact ⟨accept_wide hp ⟨opEnc, final, true, srcBase, srcLen, dstBase, dstCap⟩ startTransfer rfl,
    accept_wide hp ⟨opDec, final, true, srcBase, srcLen, dstBase, dstCap⟩ startTransfer rfl,
    accept_wide hp ⟨opDeclen, false, true, srcBase, srcLen, 0, 0⟩ startDeclen rfl⟩

/-- Settles O17: out of range, the check of the ranges is the first to fail; in range, none fails, and what follows the
checks raises nothing. -/
theorem rangeErrors : Obligations.RangeErrors := by
  intro s final srcLen srcBase dstCap dstBase hp
  refine ⟨fun hout => ?_, fun hout => ?_, fun hn => execEnclen_rangeError hp (Nat.not_le.2 hn), fun t ht => ?_⟩
  · have transfer (op : BitVec 4) (hop : op ≠ opEnclen) :=
      accept_outOfRange hp ⟨op, final, false, srcBase, srcLen, dstBase, dstCap⟩ startTransfer hop rfl
        fun ⟨⟨hlen, hend⟩, hdst⟩ => hout ⟨hlen, hend, hdst⟩
    exact ⟨transfer opEnc (by decide), transfer opDec (by decide)⟩
  · exact accept_outOfRange hp ⟨opDeclen, false, false, srcBase, srcLen, 0, 0⟩ startDeclen
      (by decide : opDeclen ≠ opEnclen) rfl fun h => hout h.1
  · rcases ht with ⟨hlen, hend, hcap, hdend, henc | hdec⟩ | ⟨hlen, hend, hdeclen⟩ | ⟨hn, henclen⟩
    · exact fault_of_accept_transfer hp (.inl rfl) rfl ⟨hlen, hend⟩ ⟨hcap, hdend⟩ henc
    · exact fault_of_accept_transfer hp (.inr rfl) rfl ⟨hlen, hend⟩ ⟨hcap, hdend⟩ hdec
    · exact fault_of_execDeclen hp ⟨hlen, hend⟩ hdeclen
    · exact fault_of_execEnclen hp hn henclen

end

section
/-! SUPPORT. A reset in mid-command (70_reset_and_hazards.md R282): the command in flight carried on by its own steps
comes to its end, and of the bytes it would still write the abandoned command leaves a prefix. -/

namespace Sys2Proof.Machine

/-! ## The command carried on -/

theorem carryOn_done {s : State} (hp : s.phase = .done) : ∀ k : Nat, carryOn k s = s
  | 0 => rfl
  | k + 1 => by simp [carryOn, hp]

/-- Carrying a command on takes the sequencer's steps (R210). -/
theorem carryOn_succ {s t : State} (k : Nat) (hp : s.InFlight) (h : sequencerStep s = .next t) :
    carryOn (k + 1) s = carryOn k t := by
  rcases hp with hp | hp | hp
  · rw [sequencerStep_scanning hp] at h
    injection h with h
    simp [carryOn, hp, h]
  · rw [sequencerStep_bulk hp, outcome_next_iff] at h
    simp [carryOn, hp, h]
  · rw [sequencerStep_tail hp, outcome_next_iff] at h
    simp [carryOn, hp, h]

/-- With fuel for the steps left, a command is carried on to its end, and the machine runs to the same state (R232). -/
theorem runSteps_carryOn : ∀ (k : Nat) {s : State}, s.Inv → s.resetIn = none → s.phase ≠ .idle → s.stepsLeft ≤ k →
    ∃ n, runSteps n s = .next (carryOn k s) ∧ (carryOn k s).phase = .done
  | k, s, hi, hr, hidle, hk => by
    by_cases hdone : s.phase = .done
    · rw [carryOn_done hdone]
      exact ⟨0, rfl, hdone⟩
    have hp := inFlight_iff.2 ⟨hidle, hdone⟩
    have hinv := hi.inFlight hp
    obtain ⟨t, ht⟩ := hinv.sequencerStep_next hp
    have hstep := sequencerStep_transferStep hp ht
    have hlt := hstep.stepsLeft_lt hinv
    match k with
    | 0 => omega
    | k + 1 =>
      obtain ⟨n, hrun, hend⟩ := runSteps_carryOn k (hstep.inv hi) (hstep.sameCommand.resetIn.trans hr)
        hstep.phase_ne_idle (by omega)
      rw [carryOn_succ k hp ht]
      exact ⟨n + 1, (runSteps_succ ((step_of_quiet hr hi.selectQuiet).trans ht)).trans hrun, hend⟩

/-- The fuel of `restOfOutput` is enough (R232). -/
theorem stepsLeft_le (s : State) : s.stepsLeft ≤ s.remaining / 3 + 3 := by
  unfold State.stepsLeft
  split <;> omega

/-- What the command in flight would still write is what it has written at the end of its run (R282). -/
theorem restOfOutput_run {s : State} (hi : s.Inv) (hr : s.resetIn = none) (hp : s.phase ≠ .idle) :
    ∃ n e, runSteps n s = .next e ∧ e.phase = .done ∧
      restOfOutput s = e.mem.readBytes s.dstAddr (e.written.toNat - s.written.toNat) := by
  obtain ⟨n, hrun, hend⟩ := runSteps_carryOn _ hi hr hp (stepsLeft_le s)
  exact ⟨n, _, hrun, hend, rfl⟩

/-! ## What an abandoned command leaves -/

theorem State.Inv.writtenBound {s : State} (hi : s.Inv) (hp : s.phase ≠ .idle) :
    s.written.toNat ≤ s.latch.dstCap.toNat := by
  by_cases hdone : s.phase = .done
  · exact (hi.ended hdone).writtenBound
  · exact (hi.inFlight (inFlight_iff.2 ⟨hp, hdone⟩)).writtenBound

/-- An abandoned command leaves a prefix of its output in the destination region, and no other byte (R282). -/
theorem abandon_stored {s : State} (hw : s.mem.wf = true) (hb : s.written.toNat ≤ s.latch.dstCap.toNat) :
    ∃ bytes, bytes <+: restOfOutput s ∧ s.written.toNat + bytes.length ≤ s.latch.dstCap.toNat ∧
      StoredAt s (abandon s).mem s.dstAddr bytes := by
  rcases abandon_cases s with he | ⟨bytes, hpre, hin, hwrite, he⟩
  · rw [he]
    exact ⟨[], List.nil_prefix, hb, storedAt_nil hw _⟩
  · rw [he]
    have hend := (insideDestination_iff.1 hin).2
    unfold State.dstAddr at hend
    exact ⟨bytes, hpre, by omega, storedAt_writeBytes hw hwrite⟩

/-- Abandoning a command touches neither the address map nor the host's side (R282; log 28). -/
theorem abandon_sameCommand (s : State) : SameCommand s (abandon s) := by
  rcases abandon_cases s with he | ⟨bytes, -, -, -, he⟩
  · rw [he]
    constructor <;> rfl
  · rw [he]
    constructor <;> rfl

/-- A reset asked for changes nothing of what the invariant speaks of. -/
theorem State.Inv.with_resetIn {s : State} (hi : s.Inv) (r : Option WfConfiguration) :
    State.Inv { s with resetIn := r } where
  selectQuiet := hi.selectQuiet
  memory := hi.memory
  inFlight hp := { hi.inFlight hp with admitted := (hi.inFlight hp).admitted.of_memMap_eq rfl }
  ended hp := { hi.ended hp with }

end Sys2Proof.Machine

open Sys2Proof Sys2Proof.Machine

/-- Settles O2: between commands the reset event is `resetBlock` alone. -/
theorem resetEventInstallsConfiguration : Obligations.ResetEventInstallsConfiguration := by
  intro s c hr hp
  have hstep : step s = .next (resetBlock c s) := by rw [step_of_reset hr, resetEvent_idle c hp]
  exact ⟨_, hstep, by simp⟩

/-- Settles O3: the abandoned command's output is read off the run to its end, and it leaves a prefix of it. -/
theorem resetAbandonsCommand : Obligations.ResetAbandonsCommand := by
  intro s c hi hr hp
  have hi' := hi.with_resetIn none
  have same := abandon_sameCommand { s with resetIn := none }
  obtain ⟨n, e, hrun, hend, hrest⟩ := restOfOutput_run hi' rfl hp
  obtain ⟨bytes, hpre, hbound, hstored⟩ := abandon_stored hi'.memory (hi'.writtenBound hp)
  have hstep : step s = .next (resetBlock c (abandon { s with resetIn := none })) := by
    rw [step_of_reset hr, resetEvent_inCommand c hp]
  exact ⟨_, n, e, bytes, hstep, rfl, rfl, same.responses, same.offers, same.memMap, same.hostTakes, rfl, rfl, hrun, hend,
    hrest ▸ hpre, hbound, hstored⟩

end
